-- ==== Sys2Proof/Word.lean ====
section
/-! DEFINITION. The word types of the register codec (00_scope.md R7, R8, R12). -/

namespace Sys2Proof

/-- One byte: the width of a device register (00_scope.md R7). -/
abbrev Byte := BitVec 8

/-- One command word (30_encoding.md R60). -/
abbrev Word := BitVec 32

/-- A register index, 0x00..0x7F (00_scope.md R8). -/
abbrev RegIdx := BitVec 7

/-- A 7-bit device address (00_scope.md R7). -/
abbrev Dev7 := BitVec 7

/-- The bits of one `FLOAT_FMT` value, read as an unsigned number, as the hexadecimal values of 43_unit_lut.md are. How many bits there
are, and what they mean, is the format's to say (`FloatFmt`), and the format is a parameter (00_scope.md R9, R11; log 10). -/
abbrev FloatVal := Nat

end Sys2Proof
end

