-- ==== Sys2Proof/Syntax.lean ====
section
/-! DEFINITION. The commands: one constructor of `Instr` per row of the opcode table (30_encoding.md R63), with the
enumerations of 30_encoding.md section 3 as their operands. -/

namespace Sys2Proof

/-- The two instances of the block (00_scope.md R2). -/
inductive InstanceId where
  | acc
  | mag
deriving DecidableEq, Repr

/-- The accelerometer output data rates: the eleven codes of 30_encoding.md R66. -/
inductive AccOdr where
  | powerDown
  | hz1
  | hz10
  | hz25
  | hz50
  | hz100
  | hz200
  | hz400
  | hz1620LowPower
  | hz1344Normal
  | hz5376LowPower
deriving DecidableEq, Repr

/-- The accelerometer power modes (30_encoding.md R68). -/
inductive PowerMode where
  | normal
  | lowPower
deriving DecidableEq, Repr

/-- The accelerometer full scales FS_2G, FS_4G, FS_8G, FS_16G (30_encoding.md R68). -/
inductive AccFs where
  | g2
  | g4
  | g8
  | g16
deriving DecidableEq, Repr

/-- The high-pass filter modes: off, or one of four cutoff presets with its index (30_encoding.md R69). -/
inductive HpfMode where
  | off
  | cutoff (c : BitVec 2)
deriving DecidableEq, Repr

/-- The FIFO modes (30_encoding.md R68). -/
inductive FifoMode where
  | disabled
  | stream
deriving DecidableEq, Repr

/-- The seven magnetometer ranges, in the order of their codes 1..7, in tenths of a gauss: ±1.3 G is `g13` (30_encoding.md R80). -/
inductive MagFs where
  | g13
  | g19
  | g25
  | g40
  | g47
  | g56
  | g81
deriving DecidableEq, Repr

/-- A magnetometer output data rate code, 0..7: the value of the `DO` field (30_encoding.md R80). -/
abbrev MagOdr := BitVec 3

/-- One command. A helper command is valid on both instances, so it names the instance it is presented to (30_encoding.md R60,
R65); every other command belongs to one instance. -/
inductive Instr where
  | readReg (inst : InstanceId) (r : RegIdx)
  | writeReg (inst : InstanceId) (r : RegIdx) (v : Byte)
  | readRegMasked (inst : InstanceId) (r : RegIdx) (m : Byte)
  | updateRegMasked (inst : InstanceId) (r : RegIdx) (v m : Byte)
  | readBurst (inst : InstanceId) (r : RegIdx) (n : Byte)
  | accInit (start : Bool)
  | accSetOdr (c : AccOdr)
  | accGetOdr
  | accSetPowerMode (pm : PowerMode)
  | accGetPowerMode
  | accSetFullScale (fs : AccFs)
  | accGetFullScale
  | accSetHighRes (e : Bool)
  | accGetHighRes
  | accSetHpfMode (h : HpfMode)
  | accGetHpfMode
  | accSetFifoMode (f : FifoMode)
  | accGetFifoMode
  | accSetFifoWatermark (w : Byte)
  | accGetFifoWatermark
  | accClearFifo
  | accSetDrdyInt (e : Bool)
  | accGetDrdyInt
  | accGetOdrHz
  | accGetHpfCutoff
  | accGetSens
  | accReadData16
  | accReadData
  | magInit (start : Bool)
  | magSetMode (e : Bool)
  | magGetMode
  | magSetOdr (d : MagOdr)
  | magGetOdr
  | magSetFullScale (g : MagFs)
  | magGetFullScale
  | magSetTempEn (e : Bool)
  | magGetTempEn
  | magGetOdrHz
  | magGetSens
  | magReadData16
  | magReadData
  | magReadTemp16
  | magReadTemp
deriving DecidableEq, Repr

/-- The instance a command is presented to (30_encoding.md R65). -/
def Instr.target : Instr → InstanceId
  | .readReg i _ | .writeReg i _ _ | .readRegMasked i _ _ | .updateRegMasked i _ _ _ | .readBurst i _ _ => i
  | .accInit _ | .accSetOdr _ | .accGetOdr | .accSetPowerMode _ | .accGetPowerMode | .accSetFullScale _
  | .accGetFullScale | .accSetHighRes _ | .accGetHighRes | .accSetHpfMode _ | .accGetHpfMode | .accSetFifoMode _
  | .accGetFifoMode | .accSetFifoWatermark _ | .accGetFifoWatermark | .accClearFifo | .accSetDrdyInt _
  | .accGetDrdyInt | .accGetOdrHz | .accGetHpfCutoff | .accGetSens | .accReadData16 | .accReadData => .acc
  | .magInit _ | .magSetMode _ | .magGetMode | .magSetOdr _ | .magGetOdr | .magSetFullScale _ | .magGetFullScale
  | .magSetTempEn _ | .magGetTempEn | .magGetOdrHz | .magGetSens | .magReadData16 | .magReadData
  | .magReadTemp16 | .magReadTemp => .mag

/-- A helper command of 40_register_access.md, as against a codec, LUT or sample command (40_register_access.md R105). -/
def Instr.isHelper : Instr → Bool
  | .readReg _ _ | .writeReg _ _ _ | .readRegMasked _ _ _ | .updateRegMasked _ _ _ _ | .readBurst _ _ _ => true
  | _ => false

end Sys2Proof
end

