-- ==== Sys2Proof/Config.lean ====
section
/-! DEFINITION. What the spec leaves open: the types of the parameters a model takes as an argument (00_scope.md R10, R11),
the transactions an oracle answers (20_memory.md R43, R44), and the free values, which have no body. -/

namespace Sys2Proof

/-- The register map `RegMap`: every register index, mask and field value that the rules name (30_encoding.md R70 to R79).
Its default, and the mask it derives, stand in Machine/Tables.lean. -/
structure RegMap where
  accIdAddr : RegIdx
  accIdValue : Byte
  accCtrl1 : RegIdx
  accCtrl2 : RegIdx
  accCtrl3 : RegIdx
  accCtrl4 : RegIdx
  accCtrl5 : RegIdx
  accStatus : RegIdx
  accOutXL : RegIdx
  accFifoCtrl : RegIdx
  accOdrMask : Byte
  accLpenMask : Byte
  accAxesMask : Byte
  accHpcfMask : Byte
  accHpfEnMask : Byte
  accIntDrdyMask : Byte
  accIntWtmMask : Byte
  accFsMask : Byte
  accHrMask : Byte
  accBootMask : Byte
  accFifoEnMask : Byte
  accDrdyMask : Byte
  accFmMask : Byte
  accFmBypass : Byte
  accFmStream : Byte
  accFthMask : Byte
  magCra : RegIdx
  magCrb : RegIdx
  magMr : RegIdx
  magOutXH : RegIdx
  magIra : RegIdx
  magIrb : RegIdx
  magIrc : RegIdx
  magTempH : RegIdx
  magTempEnMask : Byte
  magDoMask : Byte
  magGnMask : Byte
  magMdMask : Byte
deriving DecidableEq, Repr

/-- How an operation rounds: the five rounding directions of IEEE 754 (43_unit_lut.md R182, 92_eei_decisions.md D9). -/
inductive Rounding where
  | nearestEven
  | nearestAway
  | towardZero
  | towardPositive
  | towardNegative
deriving DecidableEq, Repr

/-- `FLOAT_FMT`, "the format and rounding" (00_scope.md R9): an IEEE 754 binary format, a sign bit above `expBits` exponent bits above
`fracBits` fraction bits, with its rounding (log 10). -/
structure FloatFmt where
  expBits : Nat
  fracBits : Nat
  rounding : Rounding
deriving DecidableEq, Repr

/-- The default `FLOAT_FMT`: IEEE 754 binary32, round to nearest, ties to even (43_unit_lut.md R182, 92_eei_decisions.md D9). -/
def binary32 : FloatFmt where
  expBits := 8
  fracBits := 23
  rounding := .nearestEven

/-- One entry of `MAG_GAIN_TABLE`: the XY and Z gains in LSB per gauss (43_unit_lut.md R172, log 21). -/
structure GainRow where
  xy : FloatVal
  z : FloatVal
deriving DecidableEq, Repr

/-- `MAG_GAIN_TABLE`, keyed by the magnetometer full-scale code (43_unit_lut.md R172). -/
structure GainTable where
  g13 : GainRow
  g19 : GainRow
  g25 : GainRow
  g40 : GainRow
  g47 : GainRow
  g56 : GainRow
  g81 : GainRow
deriving DecidableEq, Repr

/-- `ACC_ODR_HZ_TABLE`: the rate in hertz of each accelerometer ODR code (43_unit_lut.md R173). DESIGN CHOICE (log 27): the
power-down entry is a parameter like the others. -/
structure AccOdrHzTable where
  powerDown : FloatVal
  hz1 : FloatVal
  hz10 : FloatVal
  hz25 : FloatVal
  hz50 : FloatVal
  hz100 : FloatVal
  hz200 : FloatVal
  hz400 : FloatVal
  hz1620LowPower : FloatVal
  hz1344Normal : FloatVal
  hz5376LowPower : FloatVal
deriving DecidableEq, Repr

/-- `MAG_ODR_HZ_TABLE`: the rate in hertz of each magnetometer ODR code (43_unit_lut.md R174). -/
structure MagOdrHzTable where
  d0 : FloatVal
  d1 : FloatVal
  d2 : FloatVal
  d3 : FloatVal
  d4 : FloatVal
  d5 : FloatVal
  d6 : FloatVal
  d7 : FloatVal
deriving DecidableEq, Repr

/-- The parameters a model takes as an argument (00_scope.md R10, R11). `LN_IMPL` is a function, so it is the free function
`Config.lnImpl`. The rates, the gains and `piValue` are values of `floatFmt`. -/
structure Params where
  floatFmt : FloatFmt
  regMap : RegMap
  accDefaultOdr : AccOdr
  magSleepPattern : Byte
  magGains : GainTable
  accOdrHz : AccOdrHzTable
  magOdrHz : MagOdrHzTable
  piValue : FloatVal
deriving DecidableEq, Repr

/-- What a transport call asks for (20_memory.md R44): `dev8` is the device address in the 8-bit form. -/
inductive BusRequest where
  | write (dev8 : Byte) (bytes : List Byte) (noStop : Bool)
  | read (dev8 : Byte) (n : Nat)
deriving DecidableEq, Repr

/-- How a transaction ends: success, failure (20_memory.md R44), or never (20_memory.md R58). -/
inductive BusStatus where
  | ok
  | err
  | hang
deriving DecidableEq, Repr, Inhabited

/-- One entry of a transaction history: the request and its response (20_memory.md R43). `data` holds the bytes of a read
answered `ok`; it is empty otherwise. -/
structure Transaction where
  req : BusRequest
  status : BusStatus
  data : List Byte
deriving DecidableEq, Repr

/-- FREE VALUE (log 4): how the device oracle ends the transaction `req`, for the draw number `draw` and the history so far
(20_memory.md R40: "a draw under no law", whose answer "may depend on the history of earlier transactions"). -/
opaque Config.oracleStatus (draw : Nat) (history : List Transaction) (req : BusRequest) : BusStatus

/-- FREE VALUE (log 4): byte `k` of the oracle's answer to the read `req` (20_memory.md R40, 70_reset_and_hazards.md R231). -/
opaque Config.oracleByte (draw : Nat) (history : List Transaction) (req : BusRequest) (k : Nat) : Byte

/-- FREE VALUE (log 11): `LN_IMPL` of a machine with the format `f`, "a total function about which the model assumes only that its result
depends on its argument alone" (43_unit_lut.md R182); the sign that R179 gives it is in `fln` (Machine/Float.lean). -/
opaque Config.lnImpl (f : FloatFmt) (x : FloatVal) : FloatVal

/-- The floating-point operations of `FLOAT_FMT` (00_scope.md R14). -/
inductive FloatOp where
  | mul
  | div
  | add
deriving DecidableEq, Repr

/-- FREE VALUE (log 12): the sign and payload of the NaN that the operation `op` of the format `f` gives on `x` and `y`; IEEE 754 leaves
them open and the spec names no NaN. -/
opaque Config.nanBits (f : FloatFmt) (op : FloatOp) (x y : FloatVal) : FloatVal

end Sys2Proof
end

