-- ==== Sys2Proof/Machine/Float.lean ====
section
/-! DEFINITION. The floating-point operations of `FLOAT_FMT` (00_scope.md R9, R14; 43_unit_lut.md R182), for every IEEE 754 binary format
and rounding (log 10; the cases no rule reaches are log 12). Every finite value is a whole number of units, the unit being the least
positive value of the format, so each operation is an exact computation on natural numbers followed by one rounding. -/

namespace Sys2Proof.Machine

/-! ### The bits of a value -/

/-- The place of the sign bit: how many bits lie below it. -/
def signPos (f : FloatFmt) : Nat := f.expBits + f.fracBits

/-- The sign bit. -/
def fsign (f : FloatFmt) (x : FloatVal) : Bool := x.testBit (signPos f)

/-- The bits below the sign, as a number. -/
def fmagBits (f : FloatFmt) (x : FloatVal) : Nat := x % 2 ^ signPos f

/-- The bits of an infinity below its sign: every exponent bit set, every fraction bit clear. -/
def infBits (f : FloatFmt) : Nat := (2 ^ f.expBits - 1) * 2 ^ f.fracBits

/-- An infinity. -/
def isInf (f : FloatFmt) (x : FloatVal) : Bool := fmagBits f x == infBits f

/-- A NaN. -/
def isNaN (f : FloatFmt) (x : FloatVal) : Bool := fmagBits f x > infBits f

/-- A zero of either sign. -/
def isZero (f : FloatFmt) (x : FloatVal) : Bool := fmagBits f x == 0

/-- The unit of the format is 2^-`unitExp`, its least positive value; for binary32 it is 2^-149. -/
def unitExp (f : FloatFmt) : Nat := 2 ^ (f.expBits - 1) - 2 + f.fracBits

/-- The magnitude of a finite value in units: subnormals count from zero, and each later binade doubles the step. -/
def magnitude (f : FloatFmt) (x : FloatVal) : Nat :=
  let e := fmagBits f x / 2 ^ f.fracBits
  let m := fmagBits f x % 2 ^ f.fracBits
  if e = 0 then m else (2 ^ f.fracBits + m) * 2 ^ (e - 1)

/-- A finite value as a whole number of units. -/
def signedMagnitude (f : FloatFmt) (x : FloatVal) : Int := if fsign f x then -(magnitude f x : Int) else magnitude f x

/-- Assemble a value from its sign and its lower bits. -/
def packFloat (f : FloatFmt) (sign : Bool) (bits : Nat) : FloatVal := (if sign then 2 ^ signPos f else 0) + bits

/-! ### Rounding -/

/-- Whether a magnitude of `q` whole steps and the part `r / den` of a step, of a value with the given sign, is rounded up to `q + 1`
steps. -/
def roundsUp (mode : Rounding) (sign : Bool) (q r den : Nat) : Bool :=
  match mode with
  | .nearestEven => 2 * r > den || (2 * r == den && q % 2 == 1)
  | .nearestAway => 2 * r ≥ den
  | .towardZero => false
  | .towardPositive => !sign && r != 0
  | .towardNegative => sign && r != 0

/-- `num / den` rounded to a whole number. -/
def roundQuotient (mode : Rounding) (sign : Bool) (num den : Nat) : Nat :=
  let q := num / den
  if roundsUp mode sign q (num % den) den then q + 1 else q

/-- The bits below the sign of a result beyond the largest finite value: an infinity, or that largest value where the rounding is
directed away from the infinity. -/
def overflowBits (f : FloatFmt) (sign : Bool) : Nat :=
  match f.rounding with
  | .nearestEven | .nearestAway => infBits f
  | .towardZero => infBits f - 1
  | .towardPositive => if sign then infBits f - 1 else infBits f
  | .towardNegative => if sign then infBits f else infBits f - 1

/-- The bits below the sign of `num / den` units, rounded. `shift` is the binade: a significand of `fracBits + 1` bits in steps of 2^shift
units; its carry into the next binade is the addition itself. -/
def roundMagnitude (f : FloatFmt) (sign : Bool) (num den : Nat) : Nat :=
  let q := num / den
  let shift := if q < 2 ^ (f.fracBits + 1) then 0 else Nat.log2 q - f.fracBits
  let bits := shift * 2 ^ f.fracBits + roundQuotient f.rounding sign num (den * 2 ^ shift)
  if bits ≥ infBits f then overflowBits f sign else bits

/-- `num / den` units with a sign, rounded. -/
def roundFloat (f : FloatFmt) (sign : Bool) (num den : Nat) : FloatVal := packFloat f sign (roundMagnitude f sign num den)

/-! ### Operations -/

/-- A quiet NaN whose sign and payload are a free value (log 12). -/
def someNaN (f : FloatFmt) (op : FloatOp) (x y : FloatVal) : FloatVal :=
  let free := Config.nanBits f op x y
  packFloat f (fsign f free) (infBits f + 2 ^ (f.fracBits - 1) + free % 2 ^ (f.fracBits - 1))

/-- Multiplication (00_scope.md R14, 43_unit_lut.md R182). -/
def fmul (f : FloatFmt) (x y : FloatVal) : FloatVal :=
  let sign := fsign f x != fsign f y
  if isNaN f x || isNaN f y then someNaN f .mul x y
  else if isInf f x || isInf f y then
    if isZero f x || isZero f y then someNaN f .mul x y else packFloat f sign (infBits f)
  else roundFloat f sign (magnitude f x * magnitude f y) (2 ^ unitExp f)

/-- Division (00_scope.md R14, 43_unit_lut.md R182). -/
def fdiv (f : FloatFmt) (x y : FloatVal) : FloatVal :=
  let sign := fsign f x != fsign f y
  if isNaN f x || isNaN f y then someNaN f .div x y
  else if isInf f x then
    if isInf f y then someNaN f .div x y else packFloat f sign (infBits f)
  else if isInf f y then packFloat f sign 0
  else if isZero f y then
    if isZero f x then someNaN f .div x y else packFloat f sign (infBits f)
  else roundFloat f sign (magnitude f x * 2 ^ unitExp f) (magnitude f y)

/-- Addition (00_scope.md R14, 43_unit_lut.md R182). An exact zero sum is +0 unless both operands are negative, in every rounding ("no
expression here produces -0.0", R182; log 12). -/
def fadd (f : FloatFmt) (x y : FloatVal) : FloatVal :=
  if isNaN f x || isNaN f y then someNaN f .add x y
  else if isInf f x then
    if isInf f y && (fsign f x != fsign f y) then someNaN f .add x y else x
  else if isInf f y then y
  else
    let sum := signedMagnitude f x + signedMagnitude f y
    let sign := if sum = 0 then fsign f x && fsign f y else decide (sum < 0)
    roundFloat f sign sum.natAbs 1

/-- Negation: the sign bit is inverted. -/
def fneg (f : FloatFmt) (x : FloatVal) : FloatVal := packFloat f (!fsign f x) (fmagBits f x)

/-- Subtraction. -/
def fsub (f : FloatFmt) (x y : FloatVal) : FloatVal := fadd f x (fneg f y)

/-- The value nearest to the decimal constant `num / den`, whatever the rounding of the operations ("a decimal constant in the source is
converted to the nearest binary32 value before use", 43_unit_lut.md R182). -/
def fconst (f : FloatFmt) (num den : Nat) : FloatVal := roundFloat { f with rounding := .nearestEven } false (num * 2 ^ unitExp f) den

/-- An integer operand, converted, which for the default format is exact for every integer the rules meet (43_unit_lut.md R182). -/
def fofInt (f : FloatFmt) (n : Int) : FloatVal := roundFloat f (decide (n < 0)) (n.natAbs * 2 ^ unitExp f) 1

/-! ### The logarithm -/

/-- A value above zero and below one. -/
def inUnitInterval (f : FloatFmt) (x : FloatVal) : Bool :=
  !fsign f x && !isZero f x && decide (fmagBits f x < fmagBits f (fconst f 1 1))

/-- The natural logarithm: `LN_IMPL`, a free function of its argument (43_unit_lut.md R182), but for what R179 and 90_conflicts.md C8 say of
it, that `-ln(x)` is positive for x in (0, 1): there it is negative and finite, with a free magnitude (log 11). -/
def fln (f : FloatFmt) (x : FloatVal) : FloatVal :=
  let free := Config.lnImpl f x
  if inUnitInterval f x then packFloat f true (1 + free % (infBits f - 1)) else packFloat f (fsign f free) (fmagBits f free)

end Sys2Proof.Machine
end

