-- ==== Sys2Proof/Machine/Tables.lean ====
section
/-! DEFINITION. The defaults of the parameters and the look-ups in them (30_encoding.md R70 to R79, 43_unit_lut.md R172 to R174,
92_eei_decisions.md D5, D9, D12, D20, D22, D27, D39). Every default but `magGnMask` is the spec's own or from general knowledge by
the spec's own mark (log 9). -/

namespace Sys2Proof.Machine

/-- The default register map (30_encoding.md R70 to R78). -/
def defaultRegMap : RegMap where
  accIdAddr := 0x0F#7
  accIdValue := 0x33#8
  accCtrl1 := 0x20#7
  accCtrl2 := 0x21#7
  accCtrl3 := 0x22#7
  accCtrl4 := 0x23#7
  accCtrl5 := 0x24#7
  accStatus := 0x27#7
  accOutXL := 0x28#7
  accFifoCtrl := 0x2E#7
  accOdrMask := 0xF0#8
  accLpenMask := 0x08#8
  accAxesMask := 0x07#8
  accHpcfMask := 0x30#8
  accHpfEnMask := 0x08#8
  accIntDrdyMask := 0x10#8
  accIntWtmMask := 0x04#8
  accFsMask := 0x30#8
  accHrMask := 0x08#8
  accBootMask := 0x80#8
  accFifoEnMask := 0x40#8
  accDrdyMask := 0x08#8
  accFmMask := 0xC0#8
  accFmBypass := 0x00#8
  accFmStream := 0x80#8
  accFthMask := 0x1F#8
  magCra := 0x00#7
  magCrb := 0x01#7
  magMr := 0x02#7
  magOutXH := 0x03#7
  magIra := 0x0A#7
  magIrb := 0x0B#7
  magIrc := 0x0C#7
  magTempH := 0x31#7
  magTempEnMask := 0x80#8
  magDoMask := 0x1C#8
  magGnMask := 0xE0#8
  magMdMask := 0x03#8

/-- `ACC_INT_ROUTE_MASK` (30_encoding.md R73). -/
def routeMask (m : RegMap) : Byte := m.accIntDrdyMask ||| m.accIntWtmMask

/-- One entry of the default gains, as values of the format. -/
def gainRowOf (f : FloatFmt) (xy z : Nat) : GainRow := ⟨fconst f xy 1, fconst f z 1⟩

/-- The default gains in LSB per gauss (43_unit_lut.md R172). -/
def defaultGains (f : FloatFmt) : GainTable where
  g13 := gainRowOf f 1100 980
  g19 := gainRowOf f 855 760
  g25 := gainRowOf f 670 600
  g40 := gainRowOf f 450 400
  g47 := gainRowOf f 400 355
  g56 := gainRowOf f 330 295
  g81 := gainRowOf f 230 205

/-- The row of a gain table for one full scale. -/
def gainRow (t : GainTable) : MagFs → GainRow
  | .g13 => t.g13
  | .g19 => t.g19
  | .g25 => t.g25
  | .g40 => t.g40
  | .g47 => t.g47
  | .g56 => t.g56
  | .g81 => t.g81

/-- The default accelerometer rates in hertz (43_unit_lut.md R173). -/
def defaultAccOdrHz (f : FloatFmt) : AccOdrHzTable where
  powerDown := fconst f 0 1
  hz1 := fconst f 1 1
  hz10 := fconst f 10 1
  hz25 := fconst f 25 1
  hz50 := fconst f 50 1
  hz100 := fconst f 100 1
  hz200 := fconst f 200 1
  hz400 := fconst f 400 1
  hz1620LowPower := fconst f 1620 1
  hz1344Normal := fconst f 1344 1
  hz5376LowPower := fconst f 5376 1

/-- `accOdrHz(c)`: one branch per code, with no fall-through (43_unit_lut.md R173, 90_conflicts.md C4). -/
def accOdrHz (t : AccOdrHzTable) : AccOdr → FloatVal
  | .powerDown => t.powerDown
  | .hz1 => t.hz1
  | .hz10 => t.hz10
  | .hz25 => t.hz25
  | .hz50 => t.hz50
  | .hz100 => t.hz100
  | .hz200 => t.hz200
  | .hz400 => t.hz400
  | .hz1620LowPower => t.hz1620LowPower
  | .hz1344Normal => t.hz1344Normal
  | .hz5376LowPower => t.hz5376LowPower

/-- The default magnetometer rates in hertz (43_unit_lut.md R174). -/
def defaultMagOdrHz (f : FloatFmt) : MagOdrHzTable where
  d0 := fconst f 3 4
  d1 := fconst f 3 2
  d2 := fconst f 3 1
  d3 := fconst f 15 2
  d4 := fconst f 15 1
  d5 := fconst f 30 1
  d6 := fconst f 75 1
  d7 := fconst f 220 1

/-- `magOdrHz(d)` (43_unit_lut.md R174). -/
def magOdrHz (t : MagOdrHzTable) (d : MagOdr) : FloatVal :=
  match d.toFin with
  | 0 => t.d0
  | 1 => t.d1
  | 2 => t.d2
  | 3 => t.d3
  | 4 => t.d4
  | 5 => t.d5
  | 6 => t.d6
  | 7 => t.d7

/-- The code `MAG_INIT` sets: "the code whose rate is 15 Hz" (42_mag_codec.md R150), the first such code of the table.
DESIGN CHOICE (log 17): code 4 where the table holds no 15 Hz, which `paramsOk` excludes. -/
def magOdr15Hz (f : FloatFmt) (t : MagOdrHzTable) : MagOdr :=
  ([0, 1, 2, 3, 4, 5, 6, 7].find? fun d => magOdrHz t d == fconst f 15 1).getD 4

/-- Every parameter at its default (00_scope.md R11): `FLOAT_FMT` is binary32 and `PI_VALUE` is 0x40490FDB (92_eei_decisions.md D9),
`ACC_DEFAULT_ODR` is 100 Hz (D12), `MAG_SLEEP_PATTERN` is 0b11 (D20). -/
def defaultParams : Params where
  floatFmt := binary32
  regMap := defaultRegMap
  accDefaultOdr := .hz100
  magSleepPattern := 0x03#8
  magGains := defaultGains binary32
  accOdrHz := defaultAccOdrHz binary32
  magOdrHz := defaultMagOdrHz binary32
  piValue := 0x40490FDB

end Sys2Proof.Machine
end

