-- ==== Sys2Proof/Machine/State.lean ====
section
/-! DEFINITION. The state of the machine: both instances of the block with every register 10_state.md gives them, and, outside the
block, the devices that answer the bus and the commands the host presents. -/

namespace Sys2Proof.Machine

/-! ### Outcomes (60_exceptions.md R200) -/

/-- The failing transaction of a `BUS_ERROR` (60_exceptions.md R200). -/
inductive Dir where
  | write
  | read
deriving DecidableEq, Repr

/-- The reason of an `INIT_FAILED` (60_exceptions.md R202). -/
inductive InitReason where
  | idMismatch
  | readbackMismatch
deriving DecidableEq, Repr

/-- The rejected argument of an `INVALID_CONFIG`, with the power mode for an ODR (60_exceptions.md R203). -/
inductive ConfigInfo where
  | odr (c : AccOdr) (mode : PowerMode)
  | watermark (w : Byte)
deriving DecidableEq, Repr

/-- The caches a `CACHE_UNSET` names (60_exceptions.md R205). -/
inductive CacheId where
  | sensAcc
  | sensMag
deriving DecidableEq, Repr

/-- The reason of a `REFUSED` (30_encoding.md R62, 60_exceptions.md R206). -/
inductive RefuseReason where
  | unknownOp
  | wrongInstance
  | reservedNonzero
  | badArgument
deriving DecidableEq, Repr

/-- The outcome of a command with its recorded info (60_exceptions.md R200): the value of `x[STATUS]`. -/
inductive Status where
  | ok
  | busError (dir : Dir) (a : Byte)
  | initFailed (reason : InitReason) (r : RegIdx) (seen : Byte)
  | invalidConfig (info : ConfigInfo)
  | unreachableDecode (r : RegIdx) (b : Byte)
  | cacheUnset (which : CacheId)
  | refused (reason : RefuseReason)
deriving DecidableEq, Repr

/-- The result data of a command: the value of `x[RESULT]` (10_state.md R27; the single integer is 44_sample_decode.md R195, log 16). -/
inductive ResultData where
  | byte (b : Byte)
  | bytes (bs : List Byte)
  | bool (b : Bool)
  | code (c : Byte)
  | int (n : Int)
  | ints (x y z : Int)
  | float (f : FloatVal)
  | floats (x y z : FloatVal)
deriving DecidableEq, Repr

/-! ### The devices, outside the block -/

/-- The registers of a register-file device: (index, byte) pairs in one canonical form, the indices rising and below 128 and no byte
0x00, which is what an unlisted register reads as (20_memory.md R59, log 6). -/
abbrev Memory := List Host.Cell

/-- The register-file device of 20_memory.md R59: `REG`, the pointer `P` and the increment flag `I`. -/
structure RegFile where
  reg : Memory
  ptr : RegIdx
  inc : Bool
deriving DecidableEq, Repr

/-- One answer a device oracle will give: success, with the bytes it returns to a read; failure; or none ever (20_memory.md R40,
R58). -/
inductive Answer where
  | ok (data : List Byte)
  | err
  | hang
deriving DecidableEq, Repr

/-- What answers the transactions of an instance. An oracle gives the listed answers, one a transaction, and then free values
(20_memory.md R40, log 4); the register-file device is the test fixture of R59 (log 6). -/
inductive Device where
  | oracle (answers : List Answer)
  | regFile (rf : RegFile)
deriving DecidableEq, Repr

/-! ### One instance of the block -/

/-- The state of one instance (10_state.md section 2 and 3), less its sensitivity registers, with its device. -/
structure Block where
  /-- The 7-bit device address the instance is bound to (10_state.md R30). -/
  dev7 : Dev7
  /-- `x[STATUS]`: the outcome of the last command, or no value (10_state.md R26). -/
  status : Option Status
  /-- `x[RESULT]`: the result data, or no value (10_state.md R27). -/
  result : Option ResultData
  /-- `x[FAULTED]` (10_state.md R28). -/
  faulted : Bool
  /-- `x[REFUSED]` (10_state.md R29). -/
  refused : Bool
  /-- A transaction of the last command never completed (20_memory.md R58, 60_exceptions.md R219, log 7). -/
  hung : Bool
  /-- The transaction history, oldest first (20_memory.md R43). -/
  history : List Transaction
  /-- The device behind the transport (20_memory.md R40). Not state of the block. -/
  device : Device
deriving DecidableEq, Repr

/-- A command the host presents: a word at the input of one instance (30_encoding.md R60). -/
structure Command where
  target : InstanceId
  word : Word
deriving DecidableEq, Repr

/-- The state of the machine. -/
structure State where
  /-- The parameters, constant (00_scope.md R10, R11, log 9). -/
  params : Params
  /-- The ACC instance. -/
  acc : Block
  /-- The MAG instance. -/
  mag : Block
  /-- `SENS_ACC`, or UNSET (10_state.md R21, R25). -/
  sensAcc : Option FloatVal
  /-- `SENS_MAG_XY`, or UNSET (10_state.md R23, R25). -/
  sensMagXY : Option FloatVal
  /-- `SENS_MAG_Z`, or UNSET (10_state.md R23, R25). -/
  sensMagZ : Option FloatVal
  /-- How many answers oracles have drawn: the model's own counter (log 4). -/
  draws : Nat
  /-- The commands the host has presented and no instance has accepted yet, oldest first: the model's own list (log 2). -/
  pending : List Command
deriving DecidableEq, Repr

/-- The state of one instance. -/
def State.block (s : State) : InstanceId → Block
  | .acc => s.acc
  | .mag => s.mag

/-- Replace the state of one instance. -/
def State.setBlock (s : State) (i : InstanceId) (b : Block) : State :=
  match i with
  | .acc => { s with acc := b }
  | .mag => { s with mag := b }

/-- The 8-bit form of the device address, which the transport takes: `DEV8 = DEV7 << 1` (10_state.md R30). -/
def Block.dev8 (b : Block) : Byte := b.dev7.setWidth 8 <<< 1

/-! ### Stops -/

/-- Why an instance accepts no command (60_exceptions.md R210, R219). -/
inductive StuckReason where
  | faulted
  | refused
  | hung
deriving DecidableEq, Repr

/-- The faults of the model. -/
inductive Fault where
  /-- A command was presented to an instance with no further step: it is marked FAULTED or REFUSED, or a transaction never completed.
  Raised by every meaning before it does anything, and by `step` when only such commands are pending. Safe: the spec gives the
  instance no further step (10_state.md R28, R29, 60_exceptions.md R210, R219). -/
  | stuck (i : InstanceId) (why : StuckReason)
deriving DecidableEq, Repr

/-- The refusals of the model. A word the block refuses ends in the outcome `REFUSED` instead, which is a next state. -/
inductive Refusal where
  /-- An instruction without a meaning in the model. No arm of `exec` raises it. Safe. -/
  | notModelled (mnemonic : String)
deriving DecidableEq, Repr

/-! ### Reset -/

/-- An instance right after construction (10_state.md R35, 70_reset_and_hazards.md R230): bound, nothing run, no transaction issued.
What its device answers is open (70_reset_and_hazards.md R231). -/
def Block.constructed (dev7 : Dev7) : Block where
  dev7 := dev7
  status := none
  result := none
  faulted := false
  refused := false
  hung := false
  history := []
  device := .oracle []

/-- The machine right after reset: both instances constructed (10_state.md R35), the parameters at their defaults, no command
presented (70_reset_and_hazards.md R230). -/
def State.reset : State where
  params := defaultParams
  acc := Block.constructed 0x19#7
  mag := Block.constructed 0x1E#7
  sensAcc := none
  sensMagXY := none
  sensMagZ := none
  draws := 0
  pending := []

end Sys2Proof.Machine
end

