-- ==== Sys2Proof/Machine/Device.lean ====
section
/-! DEFINITION. What answers a bus transaction: the registers of the register-file device, that device (20_memory.md R59), and the
oracle (20_memory.md R40). -/

namespace Sys2Proof.Machine

/-! ### Registers of the register-file device -/

/-- What a register that is not listed reads as: 0x00 ("every register not named is 0x00", 95_test_vectors.md section 0; log 6). -/
def unlistedByte : Byte := 0x00#8

/-- Read one register. -/
def Memory.read : Memory → Nat → Byte
  | [], _ => unlistedByte
  | (k, v) :: rest, a => if k = a then v else Memory.read rest a

/-- Write one register, keeping the canonical form: rising addresses, and no entry equal to what an unlisted register reads as. -/
def Memory.write : Memory → Nat → Byte → Memory
  | [], a, b => if b = unlistedByte then [] else [(a, b)]
  | (k, v) :: rest, a, b =>
    if a < k then (if b = unlistedByte then (k, v) :: rest else (a, b) :: (k, v) :: rest)
    else if a = k then (if b = unlistedByte then rest else (a, b) :: rest)
    else (k, v) :: Memory.write rest a b

/-- The canonical form above a lower bound. -/
def Memory.wfFrom : Nat → Memory → Bool
  | _, [] => true
  | lo, (k, v) :: rest => decide (lo ≤ k) && decide (k < 128) && decide (v ≠ unlistedByte) && Memory.wfFrom (k + 1) rest

/-- The canonical form: addresses strictly rising and below 128 (20_memory.md R42), and no entry equal to an unlisted register. -/
def Memory.wf (m : Memory) : Bool := Memory.wfFrom 0 m

/-- The register index of an address byte: `a[6:0]` (20_memory.md R41). -/
def addrIndex (a : Byte) : RegIdx := a.extractLsb' 0 7

/-- The auto-increment request of an address byte: `a[7]` (20_memory.md R41). -/
def addrInc (a : Byte) : Bool := a.getLsbD 7

/-- The read answer of the register-file device: `REG[P], REG[P+I], REG[P+2I], ...`, indices mod 128 (20_memory.md R59). -/
def regFileBytes (rf : RegFile) (n : Nat) : List Byte :=
  (List.range n).map fun k => rf.reg.read ((rf.ptr.toNat + k * rf.inc.toNat) % 128)

/-- The register-file device answers one transaction (20_memory.md R59). Framings the block never issues have no effect (log 6). -/
def regFileRespond (rf : RegFile) : BusRequest → List Byte × RegFile
  | .write _ [a] true => ([], { rf with ptr := addrIndex a, inc := addrInc a })
  | .write _ [a, v] false => ([], { rf with reg := rf.reg.write (addrIndex a).toNat v })
  | .write _ _ _ => ([], rf)
  | .read _ n => (regFileBytes rf n, rf)

/-! ### The oracle -/

/-- The bytes an oracle returns: none to a write; to a read of `n` bytes, `n` bytes, those listed first and free values for the rest
(20_memory.md R40, log 4). -/
def oracleBytes (listed : List Byte) (draw : Nat) (history : List Transaction) (req : BusRequest) : List Byte :=
  match req with
  | .write _ _ _ => []
  | .read _ n => (List.range n).map fun k => listed.getD k (Config.oracleByte draw history req k)

/-- What one answer listed for an oracle says. -/
def Answer.status : Answer → BusStatus
  | .ok _ => .ok
  | .err => .err
  | .hang => .hang

/-- The bytes one answer lists. -/
def Answer.data : Answer → List Byte
  | .ok bs => bs
  | .err | .hang => []

/-! ### Any device -/

/-- A device's answer to one transaction: how it ends, the bytes returned, the device afterwards and the draw counter afterwards. -/
structure Response where
  status : BusStatus
  data : List Byte
  device : Device
  draws : Nat
deriving DecidableEq, Repr

/-- The bytes come with a success only (20_memory.md R43). -/
def oracleResponse (st : BusStatus) (listed : List Byte) (rest : List Answer) (draw : Nat) (history : List Transaction)
    (req : BusRequest) : Response where
  status := st
  data := if st = .ok then oracleBytes listed draw history req else []
  device := .oracle rest
  draws := draw + 1

/-- The answer of a device to a transaction, for the history before it (20_memory.md R40, R59). -/
def respond (dev : Device) (draw : Nat) (history : List Transaction) (req : BusRequest) : Response :=
  match dev with
  | .oracle (a :: rest) => oracleResponse a.status a.data rest draw history req
  | .oracle [] => oracleResponse (Config.oracleStatus draw history req) [] [] draw history req
  | .regFile rf =>
    { status := .ok, data := (regFileRespond rf req).1, device := .regFile (regFileRespond rf req).2, draws := draw }

end Sys2Proof.Machine
end

