-- ==== Sys2Proof/Machine/Flags.lean ====
section
/-! DEFINITION. The block's only flags: the outcome codes, which outcomes are fatal, and the sticky marks (10_state.md R26, R28, R29,
60_exceptions.md R200). -/

namespace Sys2Proof.Machine

/-- The numeric code a host interface reports in `x[STATUS]` (60_exceptions.md R200). -/
def statusCode : Status → Nat
  | .ok => 0
  | .busError _ _ => 1
  | .initFailed _ _ _ => 2
  | .invalidConfig _ => 3
  | .unreachableDecode _ _ => 4
  | .cacheUnset _ => 5
  | .refused _ => 6

/-- A fatal fault: it sets `x[FAULTED]` (10_state.md R28, 60_exceptions.md R200). -/
def isFatal : Status → Bool
  | .invalidConfig _ | .unreachableDecode _ _ | .cacheUnset _ => true
  | .ok | .busError _ _ | .initFailed _ _ _ | .refused _ => false

/-- A refusal: it sets `x[REFUSED]` (10_state.md R29, 60_exceptions.md R206). -/
def isRefusal : Status → Bool
  | .refused _ => true
  | .ok | .busError _ _ | .initFailed _ _ _ | .invalidConfig _ | .unreachableDecode _ _ | .cacheUnset _ => false

/-- Why an instance accepts no command, if it accepts none (60_exceptions.md R210, R219). -/
def stuckReason (b : Block) : Option StuckReason :=
  if b.faulted then some .faulted
  else if b.refused then some .refused
  else if b.hung then some .hung
  else none

/-- The instance accepts its next command (60_exceptions.md R210). -/
def accepts (s : State) (i : InstanceId) : Bool := (stuckReason (s.block i)).isNone

end Sys2Proof.Machine
end

