-- ==== Sys2Proof/Machine/Ops.lean ====
section
/-! DEFINITION. The shared operations: the bus transactions and their framing (20_memory.md R43 to R47), the register access helper as
sub-operations (40_register_access.md R100 to R105), how a command ends (60_exceptions.md R200 to R210), and the frame every command
runs in. -/

namespace Sys2Proof.Machine

/-! ### Sub-operations -/

/-- How a sub-operation ends early: with an outcome other than `OK`, which is the caller's outcome too (00_scope.md R14,
60_exceptions.md R207), or not at all (20_memory.md R58). -/
inductive Ending where
  | outcome (o : Status)
  | hang
deriving DecidableEq, Repr

/-- A sub-operation: from a state to a value and a state, or to an early end and the state it leaves ("nothing already done is
undone", 20_memory.md R47). -/
abbrev Op (α : Type) := EStateM Ending State α

/-- `raise E(info)` (00_scope.md R14). -/
def raise {α : Type} (o : Status) : Op α := throw (.outcome o)

/-! ### Transactions (20_memory.md R43 to R47) -/

/-- The state after the transaction `req` of instance `i`, answered by `r`: it is recorded in the history with its response
(20_memory.md R43). -/
def recorded (i : InstanceId) (req : BusRequest) (r : Response) (s : State) : State :=
  let b := s.block i
  { s.setBlock i { b with history := b.history ++ [⟨req, r.status, r.data⟩], device := r.device } with draws := r.draws }

/-- Issue one transaction. On success the bytes it returned; on `err` the command ends in `BUS_ERROR(dir, a)` with no retry
(20_memory.md R44, R47, 60_exceptions.md R201); on `hang` it never ends (20_memory.md R58). -/
def transact (i : InstanceId) (req : BusRequest) (dir : Dir) (a : Byte) : Op (List Byte) := fun s =>
  let r := respond (s.block i).device s.draws (s.block i).history req
  match r.status with
  | .ok => .ok r.data (recorded i req r s)
  | .err => .error (.outcome (.busError dir a)) (recorded i req r s)
  | .hang => .error .hang (recorded i req r s)

/-- `MemRead(a, n)`: an address write with no stop and then a read of `n` bytes, with nothing between (20_memory.md R45). -/
def memRead (i : InstanceId) (a : Byte) (n : Nat) : Op (List Byte) := do
  let dev8 := ((← get).block i).dev8
  let _ ← transact i (.write dev8 [a] true) .write a
  transact i (.read dev8 n) .read a

/-- `MemWrite(a, 1, v)`: one two-byte write with a stop (20_memory.md R46). -/
def memWrite (i : InstanceId) (a v : Byte) : Op Unit := do
  let dev8 := ((← get).block i).dev8
  let _ ← transact i (.write dev8 [a, v] false) .write a

/-- Byte `k` of the bytes read. `k` is below the length of the list wherever a rule uses it (Laws/Ops.lean, `memRead_length`). -/
def byteAt (bs : List Byte) (k : Nat) : Byte := bs.getD k 0

/-- The address byte of a single-register access: `0 ++ r[6:0]` (20_memory.md R41). -/
def singleAddr (r : RegIdx) : Byte := 0#1 ++ r

/-- The address byte of a burst: `1 ++ r[6:0]` (20_memory.md R41, 40_register_access.md R104). -/
def burstAddr (r : RegIdx) : Byte := 1#1 ++ r

/-! ### The register access helper (40_register_access.md) -/

/-- `READ_REG` as a sub-operation (40_register_access.md R100). -/
def readReg (i : InstanceId) (r : RegIdx) : Op Byte := do
  let bs ← memRead i (singleAddr r) 1
  return byteAt bs 0

/-- `WRITE_REG` as a sub-operation (40_register_access.md R101). -/
def writeReg (i : InstanceId) (r : RegIdx) (v : Byte) : Op Unit := memWrite i (singleAddr r) v

/-- `READ_REG_MASKED` as a sub-operation (40_register_access.md R102). -/
def readRegMasked (i : InstanceId) (r : RegIdx) (m : Byte) : Op Byte := do
  let b ← readReg i r
  return b &&& m

/-- The new value of a masked update: `(old & ~m) | (v & m)` (40_register_access.md R103). -/
def mergeMasked (old v m : Byte) : Byte := (old &&& ~~~m) ||| (v &&& m)

/-- Run `f` on the state when `op` ends in an outcome other than `OK`. -/
def onOutcome {α : Type} (op : Op α) (f : State → State) : Op α := fun s =>
  match op s with
  | .ok a s' => .ok a s'
  | .error (.outcome o) s' => .error (.outcome o) (f s')
  | .error .hang s' => .error .hang s'

/-- `UPDATE_REG_MASKED` as a sub-operation, with what a bus error in its write (not in its read) does besides
(40_register_access.md R103; 41_accel_codec.md R117 and 42_mag_codec.md R155 for the latter). -/
def updateRegMaskedElse (i : InstanceId) (r : RegIdx) (v m : Byte) (onWriteError : State → State) : Op Unit := do
  let old ← readReg i r
  onOutcome (writeReg i r (mergeMasked old v m)) onWriteError

/-- `UPDATE_REG_MASKED` as a sub-operation (40_register_access.md R103). -/
def updateRegMasked (i : InstanceId) (r : RegIdx) (v m : Byte) : Op Unit := updateRegMaskedElse i r v m id

/-- `READ_BURST` as a sub-operation (40_register_access.md R104). -/
def readBurst (i : InstanceId) (r : RegIdx) (n : Nat) : Op (List Byte) := memRead i (burstAddr r) n

/-! ### How a command ends (60_exceptions.md) -/

/-- A command ends with `OK`: STATUS is `OK` and RESULT the result data, or no value where there is none (10_state.md R26, R27,
log 13). -/
def endOk (i : InstanceId) (d : Option ResultData) (s : State) : State :=
  s.setBlock i { s.block i with status := some .ok, result := d }

/-- Outcome entry, for any outcome other than `OK` (60_exceptions.md R209): STATUS is set with its info, RESULT holds no value, a fatal
fault sets FAULTED and a refusal REFUSED; nothing else is saved. There is no return from it (60_exceptions.md R210). -/
def takeOutcome (i : InstanceId) (o : Status) (s : State) : State :=
  let b := s.block i
  s.setBlock i { b with
    status := some o, result := none, faulted := b.faulted || isFatal o, refused := b.refused || isRefusal o }

/-- A transaction never completes: the command reports nothing and the instance has no further step (60_exceptions.md R219, log 7). -/
def hangUp (i : InstanceId) (s : State) : State := s.setBlock i { s.block i with hung := true }

/-- The state a command leaves, from how its pseudocode ended. -/
def finish (i : InstanceId) : EStateM.Result Ending State (Option ResultData) → State
  | .ok d s => endOk i d s
  | .error (.outcome o) s => takeOutcome i o s
  | .error .hang s => hangUp i s

/-- Run a command on instance `i`: the sticky marks are checked before anything else (60_exceptions.md R208), and an instance with no
further step accepts no command (60_exceptions.md R210). -/
def runCommand (i : InstanceId) (op : Op (Option ResultData)) (s : State) : Host.Outcome State Fault Refusal :=
  match stuckReason (s.block i) with
  | some why => .fault (.stuck i why)
  | none => .next (finish i (op s))

/-- A command word that fails a decode check: the outcome `REFUSED(reason)` with no transaction (60_exceptions.md R206). -/
def refuseCommand (i : InstanceId) (reason : RefuseReason) (s : State) : Host.Outcome State Fault Refusal :=
  runCommand i (raise (.refused reason)) s

end Sys2Proof.Machine
end

