-- ==== Sys2Proof/Machine/Helper.lean ====
section
/-! DEFINITION. The register access helper commands (40_register_access.md R100 to R104). -/

namespace Sys2Proof.Machine

/-- `READ_REG` (40_register_access.md R100). -/
def execReadReg (i : InstanceId) (r : RegIdx) (s : State) : Host.Outcome State Fault Refusal :=
  runCommand i (do let b ← readReg i r; return some (.byte b)) s

/-- `WRITE_REG` (40_register_access.md R101). -/
def execWriteReg (i : InstanceId) (r : RegIdx) (v : Byte) (s : State) : Host.Outcome State Fault Refusal :=
  runCommand i (do writeReg i r v; return none) s

/-- `READ_REG_MASKED` (40_register_access.md R102). -/
def execReadRegMasked (i : InstanceId) (r : RegIdx) (m : Byte) (s : State) : Host.Outcome State Fault Refusal :=
  runCommand i (do let b ← readRegMasked i r m; return some (.byte b)) s

/-- `UPDATE_REG_MASKED` (40_register_access.md R103). -/
def execUpdateRegMasked (i : InstanceId) (r : RegIdx) (v m : Byte) (s : State) : Host.Outcome State Fault Refusal :=
  runCommand i (do updateRegMasked i r v m; return none) s

/-- `READ_BURST` (40_register_access.md R104). A length of 0 is not a command: it is refused (30_encoding.md R62, log 18). -/
def execReadBurst (i : InstanceId) (r : RegIdx) (n : Byte) (s : State) : Host.Outcome State Fault Refusal :=
  if n = 0#8 then refuseCommand i .badArgument s
  else runCommand i (do let bs ← readBurst i r n.toNat; return some (.bytes bs)) s

end Sys2Proof.Machine
end

