-- ==== Sys2Proof/Machine/Lut.lean ====
section
/-! DEFINITION. The pure functions of the unit conversion tables (43_unit_lut.md R170 to R176); the rate tables stand in
Machine/Tables.lean. -/

namespace Sys2Proof.Machine

/-- `EARTH_GRAVITY`, 9.80665 m/s² per g (43_unit_lut.md R170). -/
def earthGravity (f : FloatFmt) : FloatVal := fconst f 980665 100000

/-- `fs_factor(fs)` in g per LSB (43_unit_lut.md R171; 0.012 at ±16 g is no typo, 90_conflicts.md C6). -/
def fsFactor (f : FloatFmt) : AccFs → FloatVal
  | .g2 => fconst f 1 1000
  | .g4 => fconst f 2 1000
  | .g8 => fconst f 4 1000
  | .g16 => fconst f 12 1000

/-- `accSens(fs)` in m/s² per LSB (43_unit_lut.md R171). -/
def accSens (f : FloatFmt) (fs : AccFs) : FloatVal := fmul f (fsFactor f fs) (earthGravity f)

/-- `magSens(g)` in gauss per LSB, for XY and for Z (43_unit_lut.md R172). -/
def magSens (f : FloatFmt) (t : GainTable) (g : MagFs) : FloatVal × FloatVal :=
  (fdiv f (fconst f 1 1) (gainRow t g).xy, fdiv f (fconst f 1 1) (gainRow t g).z)

/-- The argument of the logarithm, `1 - 3 / (25 * 2^c)` (43_unit_lut.md R175, R182). -/
def hpfLnArgument (f : FloatFmt) (c : BitVec 2) : FloatVal :=
  fsub f (fconst f 1 1) (fdiv f (fconst f 3 1) (fmul f (fconst f 25 1) (fofInt f (2 ^ c.toNat))))

/-- The divisor `2 * pi` (43_unit_lut.md R175, R182). -/
def twoPi (f : FloatFmt) (piValue : FloatVal) : FloatVal := fmul f (fconst f 2 1) piValue

/-- `hpfCutoffHz(c, odrHz)`, evaluated in the order of 43_unit_lut.md R182 (R175). -/
def hpfCutoffHz (f : FloatFmt) (piValue : FloatVal) (c : BitVec 2) (odrHz : FloatVal) : FloatVal :=
  fdiv f (fmul f (fneg f (fln f (hpfLnArgument f c))) odrHz) (twoPi f piValue)

/-- `TEMP_SENS`, 1/16 °C per LSB (43_unit_lut.md R176). -/
def tempSens (f : FloatFmt) : FloatVal := fconst f 1 16

/-- `TEMP_OFFSET`, 21.0 °C (43_unit_lut.md R176). -/
def tempOffset (f : FloatFmt) : FloatVal := fconst f 21 1

end Sys2Proof.Machine
end

