-- ==== Sys2Proof/Machine/Operands.lean ====
section
/-! DEFINITION. The operand codes (30_encoding.md R66 to R69, R80), the fields of device registers and their decoding (30_encoding.md
R71 to R81), and the validity of a rate in a power mode (30_encoding.md R67). -/

namespace Sys2Proof.Machine

/-! ### Codes -/

/-- The code of an accelerometer rate (30_encoding.md R66): `code[7:4]` is the field value, bit 1 says valid in low-power mode and
bit 0 valid in normal mode. -/
def accOdrCode : AccOdr → Byte
  | .powerDown => 0x00#8
  | .hz1 => 0x13#8
  | .hz10 => 0x23#8
  | .hz25 => 0x33#8
  | .hz50 => 0x43#8
  | .hz100 => 0x53#8
  | .hz200 => 0x63#8
  | .hz400 => 0x73#8
  | .hz1620LowPower => 0x82#8
  | .hz1344Normal => 0x91#8
  | .hz5376LowPower => 0x92#8

/-- The rate of a code; no other value is an accelerometer ODR code (30_encoding.md R66). -/
def accOdrOfCode (c : Byte) : Option AccOdr :=
  match c.toNat with
  | 0x00 => some .powerDown
  | 0x13 => some .hz1
  | 0x23 => some .hz10
  | 0x33 => some .hz25
  | 0x43 => some .hz50
  | 0x53 => some .hz100
  | 0x63 => some .hz200
  | 0x73 => some .hz400
  | 0x82 => some .hz1620LowPower
  | 0x91 => some .hz1344Normal
  | 0x92 => some .hz5376LowPower
  | _ => none

/-- Power mode codes (30_encoding.md R68). -/
def powerModeCode : PowerMode → Byte
  | .normal => 0#8
  | .lowPower => 1#8

/-- The power mode of a code (30_encoding.md R68). -/
def powerModeOfCode (c : Byte) : Option PowerMode :=
  match c.toNat with
  | 0 => some .normal
  | 1 => some .lowPower
  | _ => none

/-- Full-scale codes, each equal to its 2-bit field value (30_encoding.md R68). -/
def accFsCode : AccFs → Byte
  | .g2 => 0#8
  | .g4 => 1#8
  | .g8 => 2#8
  | .g16 => 3#8

/-- The full scale of a code (30_encoding.md R68). -/
def accFsOfCode (c : Byte) : Option AccFs :=
  match c.toNat with
  | 0 => some .g2
  | 1 => some .g4
  | 2 => some .g8
  | 3 => some .g16
  | _ => none

/-- High-pass filter codes: 0 is off and `1 + c` is preset `c` (30_encoding.md R69). -/
def hpfCode : HpfMode → Byte
  | .off => 0#8
  | .cutoff c => 1#8 + c.setWidth 8

/-- The filter mode of a code (30_encoding.md R69). -/
def hpfOfCode (c : Byte) : Option HpfMode :=
  match c.toNat with
  | 0 => some .off
  | 1 => some (.cutoff 0#2)
  | 2 => some (.cutoff 1#2)
  | 3 => some (.cutoff 2#2)
  | 4 => some (.cutoff 3#2)
  | _ => none

/-- FIFO mode codes (30_encoding.md R68). -/
def fifoModeCode : FifoMode → Byte
  | .disabled => 0#8
  | .stream => 1#8

/-- The FIFO mode of a code (30_encoding.md R68). -/
def fifoModeOfCode (c : Byte) : Option FifoMode :=
  match c.toNat with
  | 0 => some .disabled
  | 1 => some .stream
  | _ => none

/-- Boolean codes (30_encoding.md R68). -/
def boolCode : Bool → Byte
  | false => 0#8
  | true => 1#8

/-- The boolean of a code (30_encoding.md R61). -/
def boolOfCode (c : Byte) : Option Bool :=
  match c.toNat with
  | 0 => some false
  | 1 => some true
  | _ => none

/-- Magnetometer full-scale codes, the `GN` field values 1..7 (30_encoding.md R80). -/
def magFsCode : MagFs → Byte
  | .g13 => 1#8
  | .g19 => 2#8
  | .g25 => 3#8
  | .g40 => 4#8
  | .g47 => 5#8
  | .g56 => 6#8
  | .g81 => 7#8

/-- The magnetometer full scale of a code; 0 is not a code (30_encoding.md R80). -/
def magFsOfCode (c : Byte) : Option MagFs :=
  match c.toNat with
  | 1 => some .g13
  | 2 => some .g19
  | 3 => some .g25
  | 4 => some .g40
  | 5 => some .g47
  | 6 => some .g56
  | 7 => some .g81
  | _ => none

/-- Magnetometer rate codes, the `DO` field values 0..7 (30_encoding.md R80). -/
def magOdrCode (d : MagOdr) : Byte := d.setWidth 8

/-- The magnetometer rate of a code (30_encoding.md R80). -/
def magOdrOfCode (c : Byte) : Option MagOdr := if c.toNat < 8 then some (c.setWidth 3) else none

/-! ### The rate and the power mode -/

/-- `odr_valid(c, pm)` (30_encoding.md R67): power-down is never validated; normal mode needs bit 0 of the code, low-power mode
bit 1. -/
def odrValid (c : AccOdr) (pm : PowerMode) : Bool :=
  if accOdrCode c = 0x00#8 then true
  else match pm with
    | .normal => (accOdrCode c).getLsbD 0
    | .lowPower => (accOdrCode c).getLsbD 1

/-! ### Fields of device registers (30_encoding.md R71 to R81) -/

/-- `CTRL1[7:4]`. -/
def odrField (r : Byte) : BitVec 4 := r.extractLsb' 4 4

/-- `CTRL1[3]`. -/
def lpenBit (r : Byte) : Bool := r.getLsbD 3

/-- The rate that `CTRL1` holds: one branch per field value and mode; field 8 in normal mode and fields 10 to 15 are not in the
enumeration (30_encoding.md R81, 41_accel_codec.md R114, 90_conflicts.md C4). -/
def accOdrOfCtrl1 (r : Byte) : Option AccOdr :=
  match (odrField r).toNat, lpenBit r with
  | 0, _ => some .powerDown
  | 1, _ => some .hz1
  | 2, _ => some .hz10
  | 3, _ => some .hz25
  | 4, _ => some .hz50
  | 5, _ => some .hz100
  | 6, _ => some .hz200
  | 7, _ => some .hz400
  | 8, true => some .hz1620LowPower
  | 9, true => some .hz5376LowPower
  | 9, false => some .hz1344Normal
  | _, _ => none

/-- The full scale in `CTRL4[5:4]` (30_encoding.md R81). -/
def accFsOfField (b : Byte) : AccFs :=
  match (b.extractLsb' 4 2).toFin with
  | 0 => .g2
  | 1 => .g4
  | 2 => .g8
  | 3 => .g16

/-- `CTRL2[5:4]`: the cutoff preset index. -/
def hpcfField (r : Byte) : BitVec 2 := r.extractLsb' 4 2

/-- `CRA[4:2]`: the magnetometer rate (30_encoding.md R81). -/
def magOdrOfField (b : Byte) : MagOdr := b.extractLsb' 2 3

/-- The magnetometer full scale in `CRB[7:5]`; 0 is not in the enumeration (30_encoding.md R81). -/
def magFsOfField (b : Byte) : Option MagFs :=
  match (b.extractLsb' 5 3).toFin with
  | 0 => none
  | 1 => some .g13
  | 2 => some .g19
  | 3 => some .g25
  | 4 => some .g40
  | 5 => some .g47
  | 6 => some .g56
  | 7 => some .g81

/-! ### Sample words (44_sample_decode.md R190, 00_scope.md R13) -/

/-- `sext_16(v)`. -/
def sext16 (v : BitVec 16) : Int := v.toInt

/-- `asr(v, k) = floor(v / 2^k)`. -/
def asr (v : Int) (k : Nat) : Int := v / 2 ^ k

/-- `le16(lo, hi)`: the low byte comes first in the burst. -/
def le16 (lo hi : Byte) : Int := sext16 (hi ++ lo)

/-- `be16(hi, lo)`: the high byte comes first in the burst. -/
def be16 (hi lo : Byte) : Int := sext16 (hi ++ lo)

/-- `just12(w)`: undo the 12-bit left-justification. -/
def just12 (w : Int) : Int := asr w 4

end Sys2Proof.Machine
end

