-- ==== Sys2Proof/Machine/Accel.lean ====
section
/-! DEFINITION. The accelerometer encoder and decoder (41_accel_codec.md). Each command is a sub-operation, which other commands invoke
by name (00_scope.md R14), and a meaning that runs it. `p` is the parameter record. -/

namespace Sys2Proof.Machine

/-! ### Getters -/

/-- `ACC_GET_ODR` as a sub-operation (41_accel_codec.md R114). -/
def accGetOdr (p : Params) : Op AccOdr := do
  let r ← readReg .acc p.regMap.accCtrl1
  match accOdrOfCtrl1 r with
  | some c => return c
  | none => raise (.unreachableDecode p.regMap.accCtrl1 r)

/-- `ACC_GET_POWER_MODE` as a sub-operation (41_accel_codec.md R116). -/
def accGetPowerMode (p : Params) : Op PowerMode := do
  let b ← readRegMasked .acc p.regMap.accCtrl1 p.regMap.accLpenMask
  return if b ≠ 0#8 then .lowPower else .normal

/-- `ACC_GET_FULL_SCALE` as a sub-operation (41_accel_codec.md R118). -/
def accGetFullScale (p : Params) : Op AccFs := do
  let b ← readRegMasked .acc p.regMap.accCtrl4 p.regMap.accFsMask
  return accFsOfField b

/-- `ACC_GET_HIGH_RES` as a sub-operation (41_accel_codec.md R120). -/
def accGetHighRes (p : Params) : Op Bool := do
  let b ← readRegMasked .acc p.regMap.accCtrl4 p.regMap.accHrMask
  return b != 0#8

/-- `ACC_GET_HPF_MODE` as a sub-operation (41_accel_codec.md R122). -/
def accGetHpfMode (p : Params) : Op HpfMode := do
  let r ← readReg .acc p.regMap.accCtrl2
  return if r &&& p.regMap.accHpfEnMask = 0#8 then .off else .cutoff (hpcfField r)

/-- `ACC_GET_FIFO_MODE` as a sub-operation (41_accel_codec.md R127). -/
def accGetFifoMode (p : Params) : Op FifoMode := do
  let e ← readRegMasked .acc p.regMap.accCtrl5 p.regMap.accFifoEnMask
  let fm ← readRegMasked .acc p.regMap.accFifoCtrl p.regMap.accFmMask
  if e = 0#8 ∧ fm = p.regMap.accFmBypass then return .disabled
  else if e = p.regMap.accFifoEnMask ∧ fm = p.regMap.accFmStream then return .stream
  else raise (.unreachableDecode p.regMap.accFifoCtrl fm)

/-- `ACC_GET_FIFO_WATERMARK` as a sub-operation (41_accel_codec.md R129). -/
def accGetFifoWatermark (p : Params) : Op Byte :=
  readRegMasked .acc p.regMap.accFifoCtrl p.regMap.accFthMask

/-! ### Internal sub-operations -/

/-- `ACC_DRAIN()`: discard a stale pending sample (41_accel_codec.md R111). -/
def accDrain (p : Params) : Op Unit := do
  let s ← readRegMasked .acc p.regMap.accStatus p.regMap.accDrdyMask
  if s ≠ 0#8 then
    let _ ← readBurst .acc p.regMap.accOutXL 6
    return ()
  else return ()

/-- `ACC_REBOOT_PULSE()`: set `BOOT`, then clear it (41_accel_codec.md R131). -/
def accRebootPulse (p : Params) : Op Unit := do
  updateRegMasked .acc p.regMap.accCtrl5 p.regMap.accBootMask p.regMap.accBootMask
  updateRegMasked .acc p.regMap.accCtrl5 0x00#8 p.regMap.accBootMask

/-- `IRQ(disable)` (41_accel_codec.md R123). -/
def irqDisable (p : Params) : Op Unit :=
  updateRegMasked .acc p.regMap.accCtrl3 0x00#8 (routeMask p.regMap)

/-- `IRQ(enable)` (41_accel_codec.md R123): drain, then route by the FIFO mode, through one mask. -/
def irqEnable (p : Params) : Op Unit := do
  accDrain p
  let f ← accGetFifoMode p
  match f with
  | .stream => updateRegMasked .acc p.regMap.accCtrl3 p.regMap.accIntWtmMask (routeMask p.regMap)
  | .disabled => updateRegMasked .acc p.regMap.accCtrl3 p.regMap.accIntDrdyMask (routeMask p.regMap)

/-- `IRQ(query)` (41_accel_codec.md R123). -/
def irqQuery (p : Params) : Op Bool := do
  let b ← readRegMasked .acc p.regMap.accCtrl3 (routeMask p.regMap)
  return b != 0#8

/-- `IRQ(refresh)` (41_accel_codec.md R123). -/
def irqRefresh (p : Params) : Op Unit := do
  let q ← irqQuery p
  if q then irqEnable p else return ()

/-! ### Setters -/

/-- Drain when leaving power-down for an active rate (41_accel_codec.md R113). -/
def drainFrom (p : Params) (cur : AccOdr) : Op Unit := if cur = .powerDown then accDrain p else pure ()

/-- `ACC_SET_ODR` as a sub-operation (41_accel_codec.md R113). -/
def accSetOdr (p : Params) (c : AccOdr) : Op Unit := do
  let cur ← accGetOdr p
  if cur = c then return ()
  else if c = .powerDown then
    updateRegMasked .acc p.regMap.accCtrl1 0x00#8 p.regMap.accOdrMask
  else
    let pm ← accGetPowerMode p
    if odrValid c pm then
      drainFrom p cur
      updateRegMasked .acc p.regMap.accCtrl1 ((accOdrCode c &&& 0xF0#8) ||| p.regMap.accAxesMask)
        (p.regMap.accOdrMask ||| p.regMap.accAxesMask)
    else raise (.invalidConfig (.odr c pm))

/-- `ACC_SET_POWER_MODE` as a sub-operation: the rate is not checked (41_accel_codec.md R115, 70_reset_and_hazards.md R240). -/
def accSetPowerMode (p : Params) (pm : PowerMode) : Op Unit :=
  updateRegMasked .acc p.regMap.accCtrl1 (powerModeCode pm <<< 3) p.regMap.accLpenMask

/-- `x[SENS_ACC] <- UNSET`, after a bus error at the write of the full-scale setter (10_state.md R25, 41_accel_codec.md R117). -/
def unsetSensAcc (s : State) : State := { s with sensAcc := none }

/-- `ACC_SET_FULL_SCALE` as a sub-operation (41_accel_codec.md R117): write the field, then the cache. -/
def accSetFullScale (p : Params) (fs : AccFs) : Op Unit := do
  updateRegMaskedElse .acc p.regMap.accCtrl4 (accFsCode fs <<< 4) p.regMap.accFsMask unsetSensAcc
  modify fun s => { s with sensAcc := some (accSens p.floatFmt fs) }

/-- `ACC_SET_HIGH_RES` as a sub-operation (41_accel_codec.md R119). -/
def accSetHighRes (p : Params) (e : Bool) : Op Unit :=
  updateRegMasked .acc p.regMap.accCtrl4 (boolCode e <<< 3) p.regMap.accHrMask

/-- `ACC_SET_HPF_MODE` as a sub-operation (41_accel_codec.md R121): off clears the enable bit only. -/
def accSetHpfMode (p : Params) (h : HpfMode) : Op Unit :=
  match h with
  | .off => updateRegMasked .acc p.regMap.accCtrl2 0x00#8 p.regMap.accHpfEnMask
  | .cutoff c =>
    updateRegMasked .acc p.regMap.accCtrl2 (p.regMap.accHpfEnMask ||| (c.setWidth 8 <<< 4))
      (p.regMap.accHpfEnMask ||| p.regMap.accHpcfMask)

/-- `ACC_SET_DRDY_INT` as a sub-operation (41_accel_codec.md R124). -/
def accSetDrdyInt (p : Params) (e : Bool) : Op Unit := if e then irqEnable p else irqDisable p

/-- `ACC_SET_FIFO_MODE` as a sub-operation (41_accel_codec.md R126): the enable bit, the mode field, the routing refresh. -/
def accSetFifoMode (p : Params) (f : FifoMode) : Op Unit := do
  updateRegMasked .acc p.regMap.accCtrl5 (if f = .stream then p.regMap.accFifoEnMask else 0x00#8) p.regMap.accFifoEnMask
  updateRegMasked .acc p.regMap.accFifoCtrl (if f = .stream then p.regMap.accFmStream else p.regMap.accFmBypass)
    p.regMap.accFmMask
  irqRefresh p

/-- `ACC_SET_FIFO_WATERMARK` as a sub-operation (41_accel_codec.md R128). -/
def accSetFifoWatermark (p : Params) (w : Byte) : Op Unit :=
  if w.toNat > 31 then raise (.invalidConfig (.watermark w))
  else updateRegMasked .acc p.regMap.accFifoCtrl w p.regMap.accFthMask

/-- `ACC_CLEAR_FIFO` as a sub-operation (41_accel_codec.md R130): bypass, then the raw mode bits read before. -/
def accClearFifo (p : Params) : Op Unit := do
  let fm ← readRegMasked .acc p.regMap.accFifoCtrl p.regMap.accFmMask
  updateRegMasked .acc p.regMap.accFifoCtrl p.regMap.accFmBypass p.regMap.accFmMask
  updateRegMasked .acc p.regMap.accFifoCtrl fm p.regMap.accFmMask

/-! ### Init -/

/-- `ACC_INIT` as a sub-operation (41_accel_codec.md R112). -/
def accInit (p : Params) (start : Bool) : Op Unit := do
  let id ← readReg .acc p.regMap.accIdAddr
  if id ≠ p.regMap.accIdValue then raise (.initFailed .idMismatch p.regMap.accIdAddr id)
  else
    accRebootPulse p
    irqDisable p
    accSetFifoMode p .disabled
    accSetFifoWatermark p 0#8
    accSetFullScale p .g2
    accSetHpfMode p .off
    accSetHighRes p true
    accSetPowerMode p .normal
    accDrain p
    let target := if start then p.accDefaultOdr else .powerDown
    accSetOdr p target
    let f ← readRegMasked .acc p.regMap.accCtrl1 p.regMap.accOdrMask
    if f ≠ accOdrCode target &&& 0xF0#8 then raise (.initFailed .readbackMismatch p.regMap.accCtrl1 f)
    else return ()

/-! ### Meanings -/

/-- `ACC_INIT` (41_accel_codec.md R112). -/
def execAccInit (start : Bool) (s : State) : Host.Outcome State Fault Refusal :=
  runCommand .acc (do accInit s.params start; return none) s

/-- `ACC_SET_ODR` (41_accel_codec.md R113). -/
def execAccSetOdr (c : AccOdr) (s : State) : Host.Outcome State Fault Refusal :=
  runCommand .acc (do accSetOdr s.params c; return none) s

/-- `ACC_GET_ODR` (41_accel_codec.md R114). -/
def execAccGetOdr (s : State) : Host.Outcome State Fault Refusal :=
  runCommand .acc (do let c ← accGetOdr s.params; return some (.code (accOdrCode c))) s

/-- `ACC_SET_POWER_MODE` (41_accel_codec.md R115). -/
def execAccSetPowerMode (pm : PowerMode) (s : State) : Host.Outcome State Fault Refusal :=
  runCommand .acc (do accSetPowerMode s.params pm; return none) s

/-- `ACC_GET_POWER_MODE` (41_accel_codec.md R116). -/
def execAccGetPowerMode (s : State) : Host.Outcome State Fault Refusal :=
  runCommand .acc (do let pm ← accGetPowerMode s.params; return some (.code (powerModeCode pm))) s

/-- `ACC_SET_FULL_SCALE` (41_accel_codec.md R117). -/
def execAccSetFullScale (fs : AccFs) (s : State) : Host.Outcome State Fault Refusal :=
  runCommand .acc (do accSetFullScale s.params fs; return none) s

/-- `ACC_GET_FULL_SCALE` (41_accel_codec.md R118). -/
def execAccGetFullScale (s : State) : Host.Outcome State Fault Refusal :=
  runCommand .acc (do let fs ← accGetFullScale s.params; return some (.code (accFsCode fs))) s

/-- `ACC_SET_HIGH_RES` (41_accel_codec.md R119). -/
def execAccSetHighRes (e : Bool) (s : State) : Host.Outcome State Fault Refusal :=
  runCommand .acc (do accSetHighRes s.params e; return none) s

/-- `ACC_GET_HIGH_RES` (41_accel_codec.md R120). -/
def execAccGetHighRes (s : State) : Host.Outcome State Fault Refusal :=
  runCommand .acc (do let e ← accGetHighRes s.params; return some (.bool e)) s

/-- `ACC_SET_HPF_MODE` (41_accel_codec.md R121). -/
def execAccSetHpfMode (h : HpfMode) (s : State) : Host.Outcome State Fault Refusal :=
  runCommand .acc (do accSetHpfMode s.params h; return none) s

/-- `ACC_GET_HPF_MODE` (41_accel_codec.md R122). -/
def execAccGetHpfMode (s : State) : Host.Outcome State Fault Refusal :=
  runCommand .acc (do let h ← accGetHpfMode s.params; return some (.code (hpfCode h))) s

/-- `ACC_SET_FIFO_MODE` (41_accel_codec.md R126). -/
def execAccSetFifoMode (f : FifoMode) (s : State) : Host.Outcome State Fault Refusal :=
  runCommand .acc (do accSetFifoMode s.params f; return none) s

/-- `ACC_GET_FIFO_MODE` (41_accel_codec.md R127). -/
def execAccGetFifoMode (s : State) : Host.Outcome State Fault Refusal :=
  runCommand .acc (do let f ← accGetFifoMode s.params; return some (.code (fifoModeCode f))) s

/-- `ACC_SET_FIFO_WATERMARK` (41_accel_codec.md R128). -/
def execAccSetFifoWatermark (w : Byte) (s : State) : Host.Outcome State Fault Refusal :=
  runCommand .acc (do accSetFifoWatermark s.params w; return none) s

/-- `ACC_GET_FIFO_WATERMARK` (41_accel_codec.md R129). -/
def execAccGetFifoWatermark (s : State) : Host.Outcome State Fault Refusal :=
  runCommand .acc (do let w ← accGetFifoWatermark s.params; return some (.byte w)) s

/-- `ACC_CLEAR_FIFO` (41_accel_codec.md R130). -/
def execAccClearFifo (s : State) : Host.Outcome State Fault Refusal :=
  runCommand .acc (do accClearFifo s.params; return none) s

/-- `ACC_SET_DRDY_INT` (41_accel_codec.md R124). -/
def execAccSetDrdyInt (e : Bool) (s : State) : Host.Outcome State Fault Refusal :=
  runCommand .acc (do accSetDrdyInt s.params e; return none) s

/-- `ACC_GET_DRDY_INT` (41_accel_codec.md R125). -/
def execAccGetDrdyInt (s : State) : Host.Outcome State Fault Refusal :=
  runCommand .acc (do let q ← irqQuery s.params; return some (.bool q)) s

end Sys2Proof.Machine
end

