-- ==== Sys2Proof/Machine/Mag.lean ====
section
/-! DEFINITION. The magnetometer encoder and decoder (42_mag_codec.md). -/

namespace Sys2Proof.Machine

/-! ### Getters -/

/-- `MAG_GET_MODE` as a sub-operation: enabled when bit 1 of `MR` is clear (42_mag_codec.md R152, 90_conflicts.md C5). -/
def magGetMode (p : Params) : Op Bool := do
  let b ← readRegMasked .mag p.regMap.magMr 0x02#8
  return b == 0#8

/-- `MAG_GET_ODR` as a sub-operation (42_mag_codec.md R154). -/
def magGetOdr (p : Params) : Op MagOdr := do
  let b ← readRegMasked .mag p.regMap.magCra p.regMap.magDoMask
  return magOdrOfField b

/-- `MAG_GET_FULL_SCALE` as a sub-operation (42_mag_codec.md R156). -/
def magGetFullScale (p : Params) : Op MagFs := do
  let b ← readRegMasked .mag p.regMap.magCrb p.regMap.magGnMask
  match magFsOfField b with
  | some g => return g
  | none => raise (.unreachableDecode p.regMap.magCrb b)

/-- `MAG_GET_TEMP_EN` as a sub-operation (42_mag_codec.md R158). -/
def magGetTempEn (p : Params) : Op Bool := do
  let b ← readRegMasked .mag p.regMap.magCra p.regMap.magTempEnMask
  return b != 0#8

/-! ### Setters -/

/-- `MAG_SET_MODE` as a sub-operation: it always writes, 0 to enable (42_mag_codec.md R151, R159). -/
def magSetMode (p : Params) (e : Bool) : Op Unit :=
  if e then updateRegMasked .mag p.regMap.magMr 0x00#8 p.regMap.magMdMask
  else updateRegMasked .mag p.regMap.magMr p.magSleepPattern p.regMap.magMdMask

/-- `MAG_SET_ODR` as a sub-operation (42_mag_codec.md R153). -/
def magSetOdr (p : Params) (d : MagOdr) : Op Unit :=
  updateRegMasked .mag p.regMap.magCra (magOdrCode d <<< 2) p.regMap.magDoMask

/-- Both magnetometer caches become UNSET, after a bus error at the write of the full-scale setter (10_state.md R25,
42_mag_codec.md R155). -/
def unsetSensMag (s : State) : State := { s with sensMagXY := none, sensMagZ := none }

/-- `MAG_SET_FULL_SCALE` as a sub-operation (42_mag_codec.md R155): write the field, then both caches. -/
def magSetFullScale (p : Params) (g : MagFs) : Op Unit := do
  updateRegMaskedElse .mag p.regMap.magCrb (magFsCode g <<< 5) p.regMap.magGnMask unsetSensMag
  modify fun s => { s with sensMagXY := some (magSens p.floatFmt p.magGains g).1, sensMagZ := some (magSens p.floatFmt p.magGains g).2 }

/-- `MAG_SET_TEMP_EN` as a sub-operation (42_mag_codec.md R157). -/
def magSetTempEn (p : Params) (e : Bool) : Op Unit :=
  updateRegMasked .mag p.regMap.magCra (boolCode e <<< 7) p.regMap.magTempEnMask

/-! ### Init -/

/-- Read the listed registers one at a time and stop at the first that differs from the byte wanted (42_mag_codec.md R150,
92_eei_decisions.md D28). -/
def magCheckIds : List (RegIdx × Byte) → Op Unit
  | [] => return ()
  | (r, want) :: rest => do
    let b ← readReg .mag r
    if b ≠ want then raise (.initFailed .idMismatch r b) else magCheckIds rest

/-- The identification registers and their fixed bytes, in the order of reading (42_mag_codec.md R150, 30_encoding.md R77). -/
def magIds (m : RegMap) : List (RegIdx × Byte) := [(m.magIra, 0x48#8), (m.magIrb, 0x34#8), (m.magIrc, 0x33#8)]

/-- `MAG_INIT` as a sub-operation (42_mag_codec.md R150). -/
def magInit (p : Params) (start : Bool) : Op Unit := do
  magCheckIds (magIds p.regMap)
  magSetTempEn p true
  magSetOdr p (magOdr15Hz p.floatFmt p.magOdrHz)
  magSetFullScale p .g13
  magSetMode p start

/-! ### Meanings -/

/-- `MAG_INIT` (42_mag_codec.md R150). -/
def execMagInit (start : Bool) (s : State) : Host.Outcome State Fault Refusal :=
  runCommand .mag (do magInit s.params start; return none) s

/-- `MAG_SET_MODE` (42_mag_codec.md R151). -/
def execMagSetMode (e : Bool) (s : State) : Host.Outcome State Fault Refusal :=
  runCommand .mag (do magSetMode s.params e; return none) s

/-- `MAG_GET_MODE` (42_mag_codec.md R152): the mode code, 1 for enabled. -/
def execMagGetMode (s : State) : Host.Outcome State Fault Refusal :=
  runCommand .mag (do let e ← magGetMode s.params; return some (.code (boolCode e))) s

/-- `MAG_SET_ODR` (42_mag_codec.md R153). -/
def execMagSetOdr (d : MagOdr) (s : State) : Host.Outcome State Fault Refusal :=
  runCommand .mag (do magSetOdr s.params d; return none) s

/-- `MAG_GET_ODR` (42_mag_codec.md R154). -/
def execMagGetOdr (s : State) : Host.Outcome State Fault Refusal :=
  runCommand .mag (do let d ← magGetOdr s.params; return some (.code (magOdrCode d))) s

/-- `MAG_SET_FULL_SCALE` (42_mag_codec.md R155). -/
def execMagSetFullScale (g : MagFs) (s : State) : Host.Outcome State Fault Refusal :=
  runCommand .mag (do magSetFullScale s.params g; return none) s

/-- `MAG_GET_FULL_SCALE` (42_mag_codec.md R156). -/
def execMagGetFullScale (s : State) : Host.Outcome State Fault Refusal :=
  runCommand .mag (do let g ← magGetFullScale s.params; return some (.code (magFsCode g))) s

/-- `MAG_SET_TEMP_EN` (42_mag_codec.md R157). -/
def execMagSetTempEn (e : Bool) (s : State) : Host.Outcome State Fault Refusal :=
  runCommand .mag (do magSetTempEn s.params e; return none) s

/-- `MAG_GET_TEMP_EN` (42_mag_codec.md R158). -/
def execMagGetTempEn (s : State) : Host.Outcome State Fault Refusal :=
  runCommand .mag (do let e ← magGetTempEn s.params; return some (.bool e)) s

end Sys2Proof.Machine
end

