-- ==== Sys2Proof/Machine/Convert.lean ====
section
/-! DEFINITION. The unit conversion commands (43_unit_lut.md R177 to R181). -/

namespace Sys2Proof.Machine

/-- Read `x[SENS_ACC]`; UNSET ends in `CACHE_UNSET(SENS_ACC)` (10_state.md R25, 60_exceptions.md R205). -/
def readSensAcc : Op FloatVal := do
  match (← get).sensAcc with
  | some v => return v
  | none => raise (.cacheUnset .sensAcc)

/-- Read `x[SENS_MAG_XY]` and `x[SENS_MAG_Z]`; either UNSET ends in `CACHE_UNSET(SENS_MAG)` (10_state.md R25, 60_exceptions.md R205). -/
def readSensMag : Op (FloatVal × FloatVal) := do
  let s ← get
  match s.sensMagXY, s.sensMagZ with
  | some xy, some z => return (xy, z)
  | _, _ => raise (.cacheUnset .sensMag)

/-- `ACC_GET_HPF_CUTOFF` as a sub-operation: both reads, the filter first, even when the filter is off (43_unit_lut.md R179). -/
def accGetHpfCutoff (p : Params) : Op FloatVal := do
  let h ← accGetHpfMode p
  let c ← accGetOdr p
  match h with
  | .off => return fconst p.floatFmt 0 1
  | .cutoff k => return hpfCutoffHz p.floatFmt p.piValue k (accOdrHz p.accOdrHz c)

/-- `ACC_GET_ODR_HZ` (43_unit_lut.md R177). -/
def execAccGetOdrHz (s : State) : Host.Outcome State Fault Refusal :=
  runCommand .acc (do let c ← accGetOdr s.params; return some (.float (accOdrHz s.params.accOdrHz c))) s

/-- `ACC_GET_HPF_CUTOFF` (43_unit_lut.md R179). -/
def execAccGetHpfCutoff (s : State) : Host.Outcome State Fault Refusal :=
  runCommand .acc (do let hz ← accGetHpfCutoff s.params; return some (.float hz)) s

/-- `ACC_GET_SENS` (43_unit_lut.md R180). -/
def execAccGetSens (s : State) : Host.Outcome State Fault Refusal :=
  runCommand .acc (do let v ← readSensAcc; return some (.float v)) s

/-- `MAG_GET_ODR_HZ` (43_unit_lut.md R178). -/
def execMagGetOdrHz (s : State) : Host.Outcome State Fault Refusal :=
  runCommand .mag (do let d ← magGetOdr s.params; return some (.float (magOdrHz s.params.magOdrHz d))) s

/-- `MAG_GET_SENS` (43_unit_lut.md R181): the triple (X, Y, Z). -/
def execMagGetSens (s : State) : Host.Outcome State Fault Refusal :=
  runCommand .mag (do let v ← readSensMag; return some (.floats v.1 v.1 v.2)) s

end Sys2Proof.Machine
end

