-- ==== Sys2Proof/Machine/Sample.lean ====
section
/-! DEFINITION. The sample decoder (44_sample_decode.md R191 to R196). -/

namespace Sys2Proof.Machine

/-- Three signed integers, in X, Y, Z order. -/
structure Triple where
  x : Int
  y : Int
  z : Int
deriving DecidableEq, Repr

/-- The accelerometer sample in six bytes: X, Y, Z, each low byte first, 12 bits left-justified (44_sample_decode.md R191,
20_memory.md R48). -/
def accSample (b : List Byte) : Triple where
  x := just12 (le16 (byteAt b 0) (byteAt b 1))
  y := just12 (le16 (byteAt b 2) (byteAt b 3))
  z := just12 (le16 (byteAt b 4) (byteAt b 5))

/-- The magnetometer sample in six bytes: X, then Z, then Y, each high byte first, with no shift (44_sample_decode.md R193,
20_memory.md R49). -/
def magSample (b : List Byte) : Triple where
  x := be16 (byteAt b 0) (byteAt b 1)
  z := be16 (byteAt b 2) (byteAt b 3)
  y := be16 (byteAt b 4) (byteAt b 5)

/-- The temperature word in two bytes, high byte first, 12 bits left-justified (44_sample_decode.md R195). -/
def tempSample (b : List Byte) : Int := just12 (be16 (byteAt b 0) (byteAt b 1))

/-- The temperature in °C: the scale first, then the offset (44_sample_decode.md R196). -/
def tempCelsius (f : FloatFmt) (t : Int) : FloatVal := fadd f (fmul f (fofInt f t) (tempSens f)) (tempOffset f)

/-- `ACC_READ_DATA_16` as a sub-operation (44_sample_decode.md R191). -/
def accReadData16 (p : Params) : Op Triple := do
  let b ← readBurst .acc p.regMap.accOutXL 6
  return accSample b

/-- `MAG_READ_DATA_16` as a sub-operation (44_sample_decode.md R193). -/
def magReadData16 (p : Params) : Op Triple := do
  let b ← readBurst .mag p.regMap.magOutXH 6
  return magSample b

/-- `MAG_READ_TEMP_16` as a sub-operation (44_sample_decode.md R195). -/
def magReadTemp16 (p : Params) : Op Int := do
  let b ← readBurst .mag p.regMap.magTempH 2
  return tempSample b

/-- `ACC_READ_DATA` as a sub-operation: the cache is checked before any transaction (44_sample_decode.md R192). -/
def accReadData (p : Params) : Op ResultData := do
  let sens ← readSensAcc
  let t ← accReadData16 p
  let scaled := fun v => fmul p.floatFmt (fofInt p.floatFmt v) sens
  return .floats (scaled t.x) (scaled t.y) (scaled t.z)

/-- `MAG_READ_DATA` as a sub-operation: the caches are checked before any transaction; X and Y are scaled by one cache and Z by the
other (44_sample_decode.md R194). -/
def magReadData (p : Params) : Op ResultData := do
  let sens ← readSensMag
  let t ← magReadData16 p
  let scaled := fun v k => fmul p.floatFmt (fofInt p.floatFmt v) k
  return .floats (scaled t.x sens.1) (scaled t.y sens.1) (scaled t.z sens.2)

/-- `ACC_READ_DATA_16` (44_sample_decode.md R191). -/
def execAccReadData16 (s : State) : Host.Outcome State Fault Refusal :=
  runCommand .acc (do let t ← accReadData16 s.params; return some (.ints t.x t.y t.z)) s

/-- `ACC_READ_DATA` (44_sample_decode.md R192). -/
def execAccReadData (s : State) : Host.Outcome State Fault Refusal :=
  runCommand .acc (do let d ← accReadData s.params; return some d) s

/-- `MAG_READ_DATA_16` (44_sample_decode.md R193). -/
def execMagReadData16 (s : State) : Host.Outcome State Fault Refusal :=
  runCommand .mag (do let t ← magReadData16 s.params; return some (.ints t.x t.y t.z)) s

/-- `MAG_READ_DATA` (44_sample_decode.md R194). -/
def execMagReadData (s : State) : Host.Outcome State Fault Refusal :=
  runCommand .mag (do let d ← magReadData s.params; return some d) s

/-- `MAG_READ_TEMP_16` (44_sample_decode.md R195). -/
def execMagReadTemp16 (s : State) : Host.Outcome State Fault Refusal :=
  runCommand .mag (do let t ← magReadTemp16 s.params; return some (.int t)) s

/-- `MAG_READ_TEMP` (44_sample_decode.md R196). -/
def execMagReadTemp (s : State) : Host.Outcome State Fault Refusal :=
  runCommand .mag (do let t ← magReadTemp16 s.params; return some (.float (tempCelsius s.params.floatFmt t))) s

end Sys2Proof.Machine
end

