-- ==== Sys2Proof/Machine/Dispatch.lean ====
section
/-! DEFINITION. The dispatch of a command to its meaning: one arm per constructor of `Instr`. -/

namespace Sys2Proof.Machine

open Sys2Proof

def exec (i : Instr) (s : State) : Host.Outcome State Fault Refusal :=
  match i with
  | .readReg inst r => Sys2Proof.Machine.execReadReg inst r s
  | .writeReg inst r v => Sys2Proof.Machine.execWriteReg inst r v s
  | .readRegMasked inst r m => Sys2Proof.Machine.execReadRegMasked inst r m s
  | .updateRegMasked inst r v m => Sys2Proof.Machine.execUpdateRegMasked inst r v m s
  | .readBurst inst r n => Sys2Proof.Machine.execReadBurst inst r n s
  | .accInit start => Sys2Proof.Machine.execAccInit start s
  | .accSetOdr c => Sys2Proof.Machine.execAccSetOdr c s
  | .accGetOdr => Sys2Proof.Machine.execAccGetOdr s
  | .accSetPowerMode pm => Sys2Proof.Machine.execAccSetPowerMode pm s
  | .accGetPowerMode => Sys2Proof.Machine.execAccGetPowerMode s
  | .accSetFullScale fs => Sys2Proof.Machine.execAccSetFullScale fs s
  | .accGetFullScale => Sys2Proof.Machine.execAccGetFullScale s
  | .accSetHighRes e => Sys2Proof.Machine.execAccSetHighRes e s
  | .accGetHighRes => Sys2Proof.Machine.execAccGetHighRes s
  | .accSetHpfMode h => Sys2Proof.Machine.execAccSetHpfMode h s
  | .accGetHpfMode => Sys2Proof.Machine.execAccGetHpfMode s
  | .accSetFifoMode f => Sys2Proof.Machine.execAccSetFifoMode f s
  | .accGetFifoMode => Sys2Proof.Machine.execAccGetFifoMode s
  | .accSetFifoWatermark w => Sys2Proof.Machine.execAccSetFifoWatermark w s
  | .accGetFifoWatermark => Sys2Proof.Machine.execAccGetFifoWatermark s
  | .accClearFifo => Sys2Proof.Machine.execAccClearFifo s
  | .accSetDrdyInt e => Sys2Proof.Machine.execAccSetDrdyInt e s
  | .accGetDrdyInt => Sys2Proof.Machine.execAccGetDrdyInt s
  | .accGetOdrHz => Sys2Proof.Machine.execAccGetOdrHz s
  | .accGetHpfCutoff => Sys2Proof.Machine.execAccGetHpfCutoff s
  | .accGetSens => Sys2Proof.Machine.execAccGetSens s
  | .accReadData16 => Sys2Proof.Machine.execAccReadData16 s
  | .accReadData => Sys2Proof.Machine.execAccReadData s
  | .magInit start => Sys2Proof.Machine.execMagInit start s
  | .magSetMode e => Sys2Proof.Machine.execMagSetMode e s
  | .magGetMode => Sys2Proof.Machine.execMagGetMode s
  | .magSetOdr d => Sys2Proof.Machine.execMagSetOdr d s
  | .magGetOdr => Sys2Proof.Machine.execMagGetOdr s
  | .magSetFullScale g => Sys2Proof.Machine.execMagSetFullScale g s
  | .magGetFullScale => Sys2Proof.Machine.execMagGetFullScale s
  | .magSetTempEn e => Sys2Proof.Machine.execMagSetTempEn e s
  | .magGetTempEn => Sys2Proof.Machine.execMagGetTempEn s
  | .magGetOdrHz => Sys2Proof.Machine.execMagGetOdrHz s
  | .magGetSens => Sys2Proof.Machine.execMagGetSens s
  | .magReadData16 => Sys2Proof.Machine.execMagReadData16 s
  | .magReadData => Sys2Proof.Machine.execMagReadData s
  | .magReadTemp16 => Sys2Proof.Machine.execMagReadTemp16 s
  | .magReadTemp => Sys2Proof.Machine.execMagReadTemp s

end Sys2Proof.Machine
end

