-- ==== Sys2Proof/WellFormed.lean ====
section
/-! DEFINITION. Which commands are well formed: the one operand rule of 30_encoding.md R61 that the types of `Instr` do not
already enforce. -/

namespace Sys2Proof

/-- A burst length is 1..255 (30_encoding.md R61). Every other operand of `Instr` has exactly the values the spec admits. -/
def Instr.wf : Instr → Bool
  | .readBurst _ _ n => n != 0#8
  | _ => true

end Sys2Proof
end

