-- ==== Sys2Proof/Decode.lean ====
section
/-! DEFINITION. The decoder of command words, which refuses by name (30_encoding.md R60 to R65), and the encoder. -/

namespace Sys2Proof

open Sys2Proof.Machine

/-! ### The fields of a command word (30_encoding.md R60) -/

/-- `OP`, bits 31:24. -/
def opField (w : Word) : Byte := w.extractLsb' 24 8

/-- `A`, bits 23:16. -/
def aField (w : Word) : Byte := w.extractLsb' 16 8

/-- `V`, bits 15:8. -/
def vField (w : Word) : Byte := w.extractLsb' 8 8

/-- `M`, bits 7:0. -/
def mField (w : Word) : Byte := w.extractLsb' 0 8

/-- The word with the given fields. -/
def commandWord (op a v m : Byte) : Word := op ++ a ++ v ++ m

/-! ### The table of operation codes (30_encoding.md R63) -/

/-- What a command uses its field `A` for. -/
inductive AUse where
  /-- `A` must be zero. -/
  | unused
  /-- A register index: `A[7]` must be zero. -/
  | index
  /-- A boolean, an enumeration code or a watermark: no bit is reserved. -/
  | argument
deriving DecidableEq, Repr

/-- One row of the table: the instance it is valid on (none: both) and the fields it uses. -/
structure Form where
  only : Option InstanceId
  a : AUse
  usesV : Bool
  usesM : Bool
deriving DecidableEq, Repr

/-- An accelerometer command without operands. -/
def accPlain : Form := ⟨some .acc, .unused, false, false⟩

/-- An accelerometer command with one argument. -/
def accArg : Form := ⟨some .acc, .argument, false, false⟩

/-- A magnetometer command without operands. -/
def magPlain : Form := ⟨some .mag, .unused, false, false⟩

/-- A magnetometer command with one argument. -/
def magArg : Form := ⟨some .mag, .argument, false, false⟩

/-- The form of an operation code; every other code is unassigned (30_encoding.md R63, R64). -/
def formOf (op : Byte) : Option Form :=
  match op.toNat with
  | 0x01 => some ⟨none, .index, false, false⟩
  | 0x02 => some ⟨none, .index, true, false⟩
  | 0x03 => some ⟨none, .index, false, true⟩
  | 0x04 => some ⟨none, .index, true, true⟩
  | 0x05 => some ⟨none, .index, true, false⟩
  | 0x10 => some accArg
  | 0x11 => some accArg
  | 0x12 => some accPlain
  | 0x13 => some accArg
  | 0x14 => some accPlain
  | 0x15 => some accArg
  | 0x16 => some accPlain
  | 0x17 => some accArg
  | 0x18 => some accPlain
  | 0x19 => some accArg
  | 0x1A => some accPlain
  | 0x1B => some accArg
  | 0x1C => some accPlain
  | 0x1D => some accArg
  | 0x1E => some accPlain
  | 0x1F => some accPlain
  | 0x20 => some accArg
  | 0x21 => some accPlain
  | 0x22 => some accPlain
  | 0x23 => some accPlain
  | 0x24 => some accPlain
  | 0x25 => some accPlain
  | 0x26 => some accPlain
  | 0x30 => some magArg
  | 0x31 => some magArg
  | 0x32 => some magPlain
  | 0x33 => some magArg
  | 0x34 => some magPlain
  | 0x35 => some magArg
  | 0x36 => some magPlain
  | 0x37 => some magArg
  | 0x38 => some magPlain
  | 0x39 => some magPlain
  | 0x3A => some magPlain
  | 0x3B => some magPlain
  | 0x3C => some magPlain
  | 0x3D => some magPlain
  | 0x3E => some magPlain
  | _ => none

/-- The command is valid on an instance (30_encoding.md R65). -/
def Form.validOn (f : Form) (i : InstanceId) : Bool := f.only.all (· == i)

/-- A field the command does not use, or `A[7]` of a register index, is not zero (30_encoding.md R62). -/
def Form.reservedNonzero (f : Form) (a v m : Byte) : Bool :=
  (!f.usesV && v != 0#8) || (!f.usesM && m != 0#8) ||
    match f.a with
    | .unused => a != 0#8
    | .index => a.getLsbD 7
    | .argument => false

/-- The register index of a field `A`: `A[6:0]` (30_encoding.md R61). -/
def indexOf (a : Byte) : RegIdx := a.extractLsb' 0 7

/-- The command with the given operands, or none where an argument is not a code or a burst length is 0 (30_encoding.md R61, R62). -/
def buildInstr (i : InstanceId) (op a v m : Byte) : Option Instr :=
  match op.toNat with
  | 0x01 => some (.readReg i (indexOf a))
  | 0x02 => some (.writeReg i (indexOf a) v)
  | 0x03 => some (.readRegMasked i (indexOf a) m)
  | 0x04 => some (.updateRegMasked i (indexOf a) v m)
  | 0x05 => if v = 0#8 then none else some (.readBurst i (indexOf a) v)
  | 0x10 => (boolOfCode a).map .accInit
  | 0x11 => (accOdrOfCode a).map .accSetOdr
  | 0x12 => some .accGetOdr
  | 0x13 => (powerModeOfCode a).map .accSetPowerMode
  | 0x14 => some .accGetPowerMode
  | 0x15 => (accFsOfCode a).map .accSetFullScale
  | 0x16 => some .accGetFullScale
  | 0x17 => (boolOfCode a).map .accSetHighRes
  | 0x18 => some .accGetHighRes
  | 0x19 => (hpfOfCode a).map .accSetHpfMode
  | 0x1A => some .accGetHpfMode
  | 0x1B => (fifoModeOfCode a).map .accSetFifoMode
  | 0x1C => some .accGetFifoMode
  | 0x1D => some (.accSetFifoWatermark a)
  | 0x1E => some .accGetFifoWatermark
  | 0x1F => some .accClearFifo
  | 0x20 => (boolOfCode a).map .accSetDrdyInt
  | 0x21 => some .accGetDrdyInt
  | 0x22 => some .accGetOdrHz
  | 0x23 => some .accGetHpfCutoff
  | 0x24 => some .accGetSens
  | 0x25 => some .accReadData16
  | 0x26 => some .accReadData
  | 0x30 => (boolOfCode a).map .magInit
  | 0x31 => (boolOfCode a).map .magSetMode
  | 0x32 => some .magGetMode
  | 0x33 => (magOdrOfCode a).map .magSetOdr
  | 0x34 => some .magGetOdr
  | 0x35 => (magFsOfCode a).map .magSetFullScale
  | 0x36 => some .magGetFullScale
  | 0x37 => (boolOfCode a).map .magSetTempEn
  | 0x38 => some .magGetTempEn
  | 0x39 => some .magGetOdrHz
  | 0x3A => some .magGetSens
  | 0x3B => some .magReadData16
  | 0x3C => some .magReadData
  | 0x3D => some .magReadTemp16
  | 0x3E => some .magReadTemp
  | _ => none

/-- Decode a word presented to an instance. The checks are made in the order of 30_encoding.md R62 (60_exceptions.md R208): the
operation code, the instance, the reserved fields, the arguments. -/
def decode (i : InstanceId) (w : Word) : Except RefuseReason Instr :=
  match formOf (opField w) with
  | none => .error .unknownOp
  | some f =>
    if !f.validOn i then .error .wrongInstance
    else if f.reservedNonzero (aField w) (vField w) (mField w) then .error .reservedNonzero
    else match buildInstr i (opField w) (aField w) (vField w) (mField w) with
      | none => .error .badArgument
      | some c => .ok c

/-! ### The encoder -/

/-- The field `A` of a register index. -/
def indexField (r : RegIdx) : Byte := 0#1 ++ r

/-- The command word of a command (30_encoding.md R60, R63). -/
def encode : Instr → Word
  | .readReg _ r => commandWord 0x01#8 (indexField r) 0#8 0#8
  | .writeReg _ r v => commandWord 0x02#8 (indexField r) v 0#8
  | .readRegMasked _ r m => commandWord 0x03#8 (indexField r) 0#8 m
  | .updateRegMasked _ r v m => commandWord 0x04#8 (indexField r) v m
  | .readBurst _ r n => commandWord 0x05#8 (indexField r) n 0#8
  | .accInit start => commandWord 0x10#8 (boolCode start) 0#8 0#8
  | .accSetOdr c => commandWord 0x11#8 (accOdrCode c) 0#8 0#8
  | .accGetOdr => commandWord 0x12#8 0#8 0#8 0#8
  | .accSetPowerMode pm => commandWord 0x13#8 (powerModeCode pm) 0#8 0#8
  | .accGetPowerMode => commandWord 0x14#8 0#8 0#8 0#8
  | .accSetFullScale fs => commandWord 0x15#8 (accFsCode fs) 0#8 0#8
  | .accGetFullScale => commandWord 0x16#8 0#8 0#8 0#8
  | .accSetHighRes e => commandWord 0x17#8 (boolCode e) 0#8 0#8
  | .accGetHighRes => commandWord 0x18#8 0#8 0#8 0#8
  | .accSetHpfMode h => commandWord 0x19#8 (hpfCode h) 0#8 0#8
  | .accGetHpfMode => commandWord 0x1A#8 0#8 0#8 0#8
  | .accSetFifoMode f => commandWord 0x1B#8 (fifoModeCode f) 0#8 0#8
  | .accGetFifoMode => commandWord 0x1C#8 0#8 0#8 0#8
  | .accSetFifoWatermark w => commandWord 0x1D#8 w 0#8 0#8
  | .accGetFifoWatermark => commandWord 0x1E#8 0#8 0#8 0#8
  | .accClearFifo => commandWord 0x1F#8 0#8 0#8 0#8
  | .accSetDrdyInt e => commandWord 0x20#8 (boolCode e) 0#8 0#8
  | .accGetDrdyInt => commandWord 0x21#8 0#8 0#8 0#8
  | .accGetOdrHz => commandWord 0x22#8 0#8 0#8 0#8
  | .accGetHpfCutoff => commandWord 0x23#8 0#8 0#8 0#8
  | .accGetSens => commandWord 0x24#8 0#8 0#8 0#8
  | .accReadData16 => commandWord 0x25#8 0#8 0#8 0#8
  | .accReadData => commandWord 0x26#8 0#8 0#8 0#8
  | .magInit start => commandWord 0x30#8 (boolCode start) 0#8 0#8
  | .magSetMode e => commandWord 0x31#8 (boolCode e) 0#8 0#8
  | .magGetMode => commandWord 0x32#8 0#8 0#8 0#8
  | .magSetOdr d => commandWord 0x33#8 (magOdrCode d) 0#8 0#8
  | .magGetOdr => commandWord 0x34#8 0#8 0#8 0#8
  | .magSetFullScale g => commandWord 0x35#8 (magFsCode g) 0#8 0#8
  | .magGetFullScale => commandWord 0x36#8 0#8 0#8 0#8
  | .magSetTempEn e => commandWord 0x37#8 (boolCode e) 0#8 0#8
  | .magGetTempEn => commandWord 0x38#8 0#8 0#8 0#8
  | .magGetOdrHz => commandWord 0x39#8 0#8 0#8 0#8
  | .magGetSens => commandWord 0x3A#8 0#8 0#8 0#8
  | .magReadData16 => commandWord 0x3B#8 0#8 0#8 0#8
  | .magReadData => commandWord 0x3C#8 0#8 0#8 0#8
  | .magReadTemp16 => commandWord 0x3D#8 0#8 0#8 0#8
  | .magReadTemp => commandWord 0x3E#8 0#8 0#8 0#8

/-! ### Words of the opcode table -/

/-- The instance that a word of the opcode table is read on: MAG where only MAG accepts its operation code, ACC otherwise (log 3). -/
def tableTarget (w : Word) : InstanceId :=
  match formOf (opField w) with
  | some f => if f.validOn .acc then .acc else .mag
  | none => .acc

/-- The command the decoder reads from the bits `w`, of which the lowest `nbits` are given (spec/opcode_table.json). -/
def decodeTableWord (nbits w : Nat) : Option Instr :=
  let word := BitVec.ofNat 32 (w % 2 ^ nbits)
  (decode (tableTarget word) word).toOption

/-! ### Pseudo-commands (30_encoding.md R83) -/

/-- `<INST>.SET_BITS a, m`. -/
def setBits (i : InstanceId) (a : RegIdx) (m : Byte) : Instr := .updateRegMasked i a m m

/-- `<INST>.CLEAR_BITS a, m`. -/
def clearBits (i : InstanceId) (a : RegIdx) (m : Byte) : Instr := .updateRegMasked i a 0#8 m

end Sys2Proof
end

