-- ==== Sys2Proof/Machine/Fetch.lean ====
section
/-! DEFINITION. Which command the machine takes next from the host (30_encoding.md R60, 10_state.md R22, log 2), and how a word is
presented (log 3). -/

namespace Sys2Proof.Machine

/-- The first command, in the order of presentation, whose instance accepts one, and the commands left. A command at an instance with
no further step is not accepted (60_exceptions.md R210); it does not hold up the other instance (60_exceptions.md R216). -/
def takeCommand (accepting : InstanceId → Bool) : List Command → Option (Command × List Command)
  | [] => none
  | c :: rest =>
    if accepting c.target then some (c, rest)
    else match takeCommand accepting rest with
      | some (d, left) => some (d, c :: left)
      | none => none

/-- What the machine finds at its command inputs. -/
inductive Fetched where
  /-- No command is pending: the block waits (70_reset_and_hazards.md R230). -/
  | idle
  /-- Only commands at instances with no further step are pending. -/
  | stuck (f : Fault)
  /-- A command is accepted, with the state in which it is no longer pending. -/
  | command (c : Command) (s : State)

/-- Why the first pending command is not accepted. -/
def stuckFault (s : State) (c : Command) : Fault :=
  .stuck c.target ((stuckReason (s.block c.target)).getD .faulted)

/-- Look at the command inputs. -/
def fetch (s : State) : Fetched :=
  match s.pending with
  | [] => .idle
  | first :: rest =>
    match takeCommand (accepts s) (first :: rest) with
    | some (c, left) => .command c { s with pending := left }
    | none => .stuck (stuckFault s first)

/-- Present a command before every other pending one. -/
def present (c : Command) (s : State) : State := { s with pending := c :: s.pending }

/-- The command that the bits `w` of an opcode-table row stand for: the word, at the instance it is read on (log 3). -/
def tableCommand (nbits w : Nat) : Command :=
  let word := BitVec.ofNat 32 (w % 2 ^ nbits)
  ⟨tableTarget word, word⟩

end Sys2Proof.Machine
end

