-- ==== Sys2Proof/Machine/Step.lean ====
section
/-! DEFINITION. One step of the machine: it takes the next command and runs it to its end, or waits when none is presented. -/

namespace Sys2Proof.Machine

/-- One step. A word that fails a decode check ends in `REFUSED` (60_exceptions.md R206); a decoded command runs (R208). -/
def step (s : State) : Host.Outcome State Fault Refusal :=
  match fetch s with
  | .idle => .next s
  | .stuck f => .fault f
  | .command c s' =>
    match decode c.target c.word with
    | .error reason => refuseCommand c.target reason s'
    | .ok i => exec i s'

/-- `s` with the word `w` presented, so that the next step runs it (log 3). -/
def State.withFetchWord (s : State) (nbits w : Nat) : State := present (tableCommand nbits w) s

end Sys2Proof.Machine
end

