-- ==== Sys2Proof/Machine/Assembler.lean ====
section
/-! DEFINITION. The assembler syntax: one line to one command (30_encoding.md R82) and the two pseudo-commands (R83). What R82 does not
say (spaces, capitals, the range of a number) is log 19. -/

namespace Sys2Proof.Machine

/-! ### Words and numbers -/

/-- Cut a text at every occurrence of a character. -/
def splitAtChar (c : Char) : List Char → List (List Char)
  | [] => [[]]
  | x :: rest =>
    match splitAtChar c rest with
    | [] => [[x]]
    | part :: parts => if x = c then [] :: part :: parts else (x :: part) :: parts

/-- Spaces and tabs. -/
def isBlank (c : Char) : Bool := c == ' ' || c == '\t'

/-- Without the blanks at both ends. -/
def trimBlanks (t : List Char) : List Char := ((t.dropWhile isBlank).reverse.dropWhile isBlank).reverse

/-- The value of a digit in a base up to 16. -/
def digitValue (base : Nat) (c : Char) : Option Nat :=
  let n := c.toNat
  let d := if 48 ≤ n ∧ n ≤ 57 then n - 48
    else if 65 ≤ n ∧ n ≤ 70 then n - 55
    else if 97 ≤ n ∧ n ≤ 102 then n - 87
    else 99
  if d < base then some d else none

/-- The digits of a number, most significant first, after the value `acc` of those before them. -/
def digitsFrom (base : Nat) (acc : Nat) : List Char → Option Nat
  | [] => some acc
  | c :: rest =>
    match digitValue base c with
    | some d => digitsFrom base (acc * base + d) rest
    | none => none

/-- A number: decimal, or hexadecimal after `0x`, or binary after `0b` (30_encoding.md R82). -/
def parseNumber : List Char → Option Nat
  | [] => none
  | '0' :: 'x' :: c :: rest => digitsFrom 16 0 (c :: rest)
  | '0' :: 'b' :: c :: rest => digitsFrom 2 0 (c :: rest)
  | c :: rest => digitsFrom 10 0 (c :: rest)

/-- A number that fits the byte of its field. -/
def parseByte (t : List Char) : Option Byte :=
  match parseNumber t with
  | some n => if n < 256 then some (BitVec.ofNat 8 n) else none
  | none => none

/-! ### Names -/

/-- The names of the accelerometer rates (30_encoding.md R66). -/
def odrNames : List (String × Byte) :=
  [("ODR_POWER_DOWN", 0x00#8), ("ODR_1HZ", 0x13#8), ("ODR_10HZ", 0x23#8), ("ODR_25HZ", 0x33#8), ("ODR_50HZ", 0x43#8),
   ("ODR_100HZ", 0x53#8), ("ODR_200HZ", 0x63#8), ("ODR_400HZ", 0x73#8), ("ODR_1620HZ_LP", 0x82#8), ("ODR_1344HZ_N", 0x91#8),
   ("ODR_5376HZ_LP", 0x92#8)]

/-- The names of the codes an operand `A` may have, by operation code (30_encoding.md R66, R68, R69). -/
def operandNames (op : Byte) : List (String × Byte) :=
  match op.toNat with
  | 0x11 => odrNames
  | 0x13 => [("NORMAL", 0#8), ("LOW_POWER", 1#8)]
  | 0x15 => [("FS_2G", 0#8), ("FS_4G", 1#8), ("FS_8G", 2#8), ("FS_16G", 3#8)]
  | 0x19 => [("HPF_OFF", 0#8), ("HPF_CUTOFF_0", 1#8), ("HPF_CUTOFF_1", 2#8), ("HPF_CUTOFF_2", 3#8), ("HPF_CUTOFF_3", 4#8)]
  | 0x1B => [("FIFO_DISABLED", 0#8), ("FIFO_STREAM", 1#8)]
  | _ => []

/-- The helper mnemonics, which keep their names on both instances (30_encoding.md R82). -/
def helperMnemonics : List (String × Byte) :=
  [("READ_REG", 0x01#8), ("WRITE_REG", 0x02#8), ("READ_REG_MASKED", 0x03#8), ("UPDATE_REG_MASKED", 0x04#8), ("READ_BURST", 0x05#8)]

/-- The mnemonics after `ACC.`: the `ACC_` of the table is dropped (30_encoding.md R63, R82). -/
def accMnemonics : List (String × Byte) :=
  [("INIT", 0x10#8), ("SET_ODR", 0x11#8), ("GET_ODR", 0x12#8), ("SET_POWER_MODE", 0x13#8), ("GET_POWER_MODE", 0x14#8),
   ("SET_FULL_SCALE", 0x15#8), ("GET_FULL_SCALE", 0x16#8), ("SET_HIGH_RES", 0x17#8), ("GET_HIGH_RES", 0x18#8),
   ("SET_HPF_MODE", 0x19#8), ("GET_HPF_MODE", 0x1A#8), ("SET_FIFO_MODE", 0x1B#8), ("GET_FIFO_MODE", 0x1C#8),
   ("SET_FIFO_WATERMARK", 0x1D#8), ("GET_FIFO_WATERMARK", 0x1E#8), ("CLEAR_FIFO", 0x1F#8), ("SET_DRDY_INT", 0x20#8),
   ("GET_DRDY_INT", 0x21#8), ("GET_ODR_HZ", 0x22#8), ("GET_HPF_CUTOFF", 0x23#8), ("GET_SENS", 0x24#8), ("READ_DATA_16", 0x25#8),
   ("READ_DATA", 0x26#8)]

/-- The mnemonics after `MAG.`: the `MAG_` of the table is dropped (30_encoding.md R63, R82). -/
def magMnemonics : List (String × Byte) :=
  [("INIT", 0x30#8), ("SET_MODE", 0x31#8), ("GET_MODE", 0x32#8), ("SET_ODR", 0x33#8), ("GET_ODR", 0x34#8),
   ("SET_FULL_SCALE", 0x35#8), ("GET_FULL_SCALE", 0x36#8), ("SET_TEMP_EN", 0x37#8), ("GET_TEMP_EN", 0x38#8), ("GET_ODR_HZ", 0x39#8),
   ("GET_SENS", 0x3A#8), ("READ_DATA_16", 0x3B#8), ("READ_DATA", 0x3C#8), ("READ_TEMP_16", 0x3D#8), ("READ_TEMP", 0x3E#8)]

/-- Look a name up. -/
def lookupName (t : List Char) (names : List (String × Byte)) : Option Byte :=
  (names.find? fun n => n.1.toList == t).map (·.2)

/-- The mnemonics of an instance. -/
def mnemonicsOf : InstanceId → List (String × Byte)
  | .acc => helperMnemonics ++ accMnemonics
  | .mag => helperMnemonics ++ magMnemonics

/-- `<INST>`: `ACC` or `MAG` (30_encoding.md R82). -/
def parseInstance (t : List Char) : Option InstanceId :=
  if t = "ACC".toList then some .acc else if t = "MAG".toList then some .mag else none

/-! ### A line -/

/-- An operand: a number, or in the field `A` the name of a code (30_encoding.md R82). -/
def parseOperand (names : List (String × Byte)) (t : List Char) : Option Byte :=
  match lookupName t names with
  | some b => some b
  | none => parseByte t

/-- The operands of a text, separated by commas. -/
def splitOperands (t : List Char) : List (List Char) :=
  if trimBlanks t = [] then [] else (splitAtChar ',' t).map trimBlanks

/-- Put the operands into the used fields, in the order `A, V, M` (30_encoding.md R82); none when there are too few or too many. -/
def assembleFields (op : Byte) (f : Form) (operands : List (List Char)) : Option Word :=
  let usesA := f.a != .unused
  match usesA, f.usesV, f.usesM, operands with
  | false, false, false, [] => some (commandWord op 0#8 0#8 0#8)
  | true, false, false, [a] => (parseOperand (operandNames op) a).map fun a => commandWord op a 0#8 0#8
  | true, true, false, [a, v] =>
    match parseOperand (operandNames op) a, parseByte v with
    | some a, some v => some (commandWord op a v 0#8)
    | _, _ => none
  | true, false, true, [a, m] =>
    match parseOperand (operandNames op) a, parseByte m with
    | some a, some m => some (commandWord op a 0#8 m)
    | _, _ => none
  | true, true, true, [a, v, m] =>
    match parseOperand (operandNames op) a, parseByte v, parseByte m with
    | some a, some v, some m => some (commandWord op a v m)
    | _, _, _ => none
  | _, _, _, _ => none

/-- A pseudo-command, which expands to one UPDATE_REG_MASKED (30_encoding.md R83). -/
def assemblePseudo (mnemonic : List Char) (operands : List (List Char)) : Option Word :=
  match operands with
  | [a, m] =>
    match parseByte a, parseByte m with
    | some a, some m =>
      if mnemonic = "SET_BITS".toList then some (commandWord 0x04#8 a m m)
      else if mnemonic = "CLEAR_BITS".toList then some (commandWord 0x04#8 a 0#8 m)
      else none
    | _, _ => none
  | _ => none

/-- The word of a mnemonic with its operands on an instance. -/
def assembleWord (i : InstanceId) (mnemonic : List Char) (operands : List (List Char)) : Option Word :=
  match lookupName mnemonic (mnemonicsOf i) with
  | some op =>
    match formOf op with
    | some f => assembleFields op f operands
    | none => none
  | none => assemblePseudo mnemonic operands

/-- What a line is. -/
inductive AsmLine where
  | blank
  | command (c : Command)
  | malformed
deriving DecidableEq, Repr

/-- A line without its comment. -/
def assembleCode (code : List Char) : AsmLine :=
  let opcode := code.takeWhile fun c => !isBlank c
  let operands := splitOperands (code.dropWhile fun c => !isBlank c)
  match splitAtChar '.' opcode with
  | [inst, mnemonic] =>
    match parseInstance inst with
    | some i =>
      match assembleWord i mnemonic operands with
      | some w => .command ⟨i, w⟩
      | none => .malformed
    | none => .malformed
  | _ => .malformed

/-- Assemble one line: "a line is one command", and `;` starts a comment (30_encoding.md R82). -/
def assembleLine (line : String) : AsmLine :=
  let code := trimBlanks (line.toList.takeWhile (· != ';'))
  if code = [] then .blank else assembleCode code

end Sys2Proof.Machine
end

