-- ==== Sys2Proof/Safety.lean ====
section
/-! DEFINITION. The terms that claims use: the constraints on the parameters, the invariant of the machine, what the states after a
command on the register-file device look like, and which fields the codec commands may write. -/

namespace Sys2Proof.Machine

/-! ### Parameters -/

/-- A format with a NaN, and in which the cutoff formula is what 90_conflicts.md C8 takes it to be: the arguments of its logarithm lie
between 0 and 1, and its divisor is positive (log 10). -/
def floatFmtOk (f : FloatFmt) (piValue : FloatVal) : Bool :=
  f.expBits ≥ 2 && f.fracBits ≥ 1 && ([0#2, 1#2, 2#2, 3#2].all fun c => inUnitInterval f (hpfLnArgument f c)) &&
    !fsign f (twoPi f piValue) && !isNaN f (twoPi f piValue) && !isZero f (twoPi f piValue)

/-- The constraints on the parameters: those of the format and of pi; the default rate is no power-down code and is valid in normal mode
(92_eei_decisions.md D12), the sleep pattern has bit 1 set (D20), the gains of an entry differ (D22), and the rate table holds 15 Hz
(42_mag_codec.md R150). DESIGN CHOICE (log 27): no entry of `ACC_ODR_HZ_TABLE` is constrained, so that
of power-down need not be 0 Hz. -/
def paramsOk (p : Params) : Bool :=
  floatFmtOk p.floatFmt p.piValue &&
    p.accDefaultOdr != .powerDown && odrValid p.accDefaultOdr .normal && p.magSleepPattern.getLsbD 1 &&
    ([MagFs.g13, .g19, .g25, .g40, .g47, .g56, .g81].all fun g =>
      (gainRow p.magGains g).xy != (gainRow p.magGains g).z) &&
    magOdrHz p.magOdrHz (magOdr15Hz p.floatFmt p.magOdrHz) == fconst p.floatFmt 15 1

/-- The address an instance is bound to (10_state.md R30). -/
def boundAddress : InstanceId → Dev7
  | .acc => 0x19#7
  | .mag => 0x1E#7

/-- The device address of a request (20_memory.md R44). -/
def requestDev8 : BusRequest → Byte
  | .write d _ _ => d
  | .read d _ => d

/-! ### The invariant -/

/-- What holds of one instance in every state the machine reaches. -/
structure BlockInv (i : InstanceId) (b : Block) : Prop where
  /-- The binding is never reassigned (00_scope.md R2). -/
  binding : b.dev7 = boundAddress i
  /-- RESULT holds a value only after `OK` (10_state.md R27). -/
  result_only_after_ok : b.result ≠ none → b.status = some .ok
  /-- FAULTED is set exactly when the last outcome is fatal (10_state.md R28, 60_exceptions.md R210). -/
  faulted_iff_fatal : b.faulted = true ↔ ∃ o, b.status = some o ∧ isFatal o = true
  /-- REFUSED is set exactly when the last outcome is a refusal (10_state.md R29, 60_exceptions.md R210). -/
  refused_iff_refusal : b.refused = true ↔ ∃ o, b.status = some o ∧ isRefusal o = true
  /-- The instance is hung exactly when a transaction of its history never completed (60_exceptions.md R219). -/
  hung_iff_hang : b.hung = true ↔ ∃ t ∈ b.history, t.status = .hang
  /-- Every transaction went to the bound device (20_memory.md R44). -/
  addressed : ∀ t ∈ b.history, requestDev8 t.req = b.dev8
  /-- A register-file device is in canonical form (log 6). -/
  canonical : ∀ rf, b.device = .regFile rf → rf.reg.wf = true

/-- What holds of every state the machine reaches. -/
structure MachineInv (s : State) : Prop where
  params_ok : paramsOk s.params = true
  acc_block : BlockInv .acc s.acc
  mag_block : BlockInv .mag s.mag
  /-- SENS_ACC is UNSET or one of the four values (10_state.md R21). -/
  sens_acc : ∀ v, s.sensAcc = some v → ∃ fs, v = accSens s.params.floatFmt fs
  /-- The magnetometer caches are both UNSET or both those of one range (10_state.md R23). -/
  sens_mag : (s.sensMagXY = none ∧ s.sensMagZ = none) ∨
    ∃ g, s.sensMagXY = some (magSens s.params.floatFmt s.params.magGains g).1 ∧ s.sensMagZ = some (magSens s.params.floatFmt s.params.magGains g).2

/-! ### The register-file device and the logs -/

/-- Instance `i` accepts a command and its device is the register-file device `rf`, in canonical form. -/
structure OnRegFile (s : State) (i : InstanceId) (rf : RegFile) : Prop where
  accepting : accepts s i = true
  device : (s.block i).device = .regFile rf
  canonical : rf.reg.wf = true

/-- The register `r` of a register-file device. -/
def regOf (rf : RegFile) (r : RegIdx) : Byte := rf.reg.read r.toNat

/-- `rf'` holds `v` in register `r` and every other register as `rf` does. -/
def OnlyReg (rf rf' : RegFile) (r : RegIdx) (v : Byte) : Prop :=
  ∀ k : RegIdx, regOf rf' k = if k = r then v else regOf rf k

/-- Every register of `rf'` is as in `rf`. -/
def SameRegs (rf rf' : RegFile) : Prop := ∀ k : RegIdx, regOf rf' k = regOf rf k

/-- The history entries of a completed register read: `W(dev8, [a], true) R(dev8, n) = ok(bs)` (20_memory.md R45). -/
def readLog (dev8 a : Byte) (bs : List Byte) : List Transaction :=
  [⟨.write dev8 [a] true, .ok, []⟩, ⟨.read dev8 bs.length, .ok, bs⟩]

/-- The history entry of a completed register write: `W(dev8, [a, v], false) = ok` (20_memory.md R46). -/
def writeLog (dev8 a v : Byte) : List Transaction := [⟨.write dev8 [a, v] false, .ok, []⟩]

/-- The history entries of a completed masked update (40_register_access.md R103). -/
def updateLog (dev8 : Byte) (r : RegIdx) (old new : Byte) : List Transaction :=
  readLog dev8 (0#1 ++ r) [old] ++ writeLog dev8 (0#1 ++ r) new

/-! ### What a device answers -/

/-- The device, asked the requests of `log` one after another, gives the responses of `log`; the answer is the device and the draw
counter afterwards, or none where one response is another (20_memory.md R40, R43). -/
def answersFrom (dev : Device) (draws : Nat) (history : List Transaction) : List Transaction → Option (Device × Nat)
  | [] => some (dev, draws)
  | e :: rest =>
    let r := respond dev draws history e.req
    if r.status = e.status ∧ r.data = e.data then answersFrom r.device r.draws (history ++ [e]) rest else none

/-- The device of instance `i`, in state `s`, answers the transactions of `log` as recorded there, and leaves `dev` and `draws`. -/
def Answers (s : State) (i : InstanceId) (log : List Transaction) (dev : Device) (draws : Nat) : Prop :=
  answersFrom (s.block i).device s.draws (s.block i).history log = some (dev, draws)

/-- The state after a command of instance `i` ended with `OK`: STATUS, RESULT, the history and the device of that instance and the draw
counter, and nothing else, differ from `s`. -/
def afterOk (s : State) (i : InstanceId) (log : List Transaction) (dev : Device) (draws : Nat) (d : Option ResultData) : State :=
  { s.setBlock i { s.block i with
      status := some .ok, result := d, history := (s.block i).history ++ log, device := dev } with draws := draws }

/-- The state after a command of instance `i` ended with an outcome other than `OK` (60_exceptions.md R209): STATUS, RESULT, the marks,
the history and the device of that instance and the draw counter, and nothing else, differ from `s`. -/
def afterOutcome (s : State) (i : InstanceId) (o : Status) (log : List Transaction) (dev : Device) (draws : Nat) : State :=
  { s.setBlock i { s.block i with
      status := some o, result := none,
      faulted := (s.block i).faulted || isFatal o, refused := (s.block i).refused || isRefusal o,
      history := (s.block i).history ++ log, device := dev } with draws := draws }

/-- The state after a transaction of a command of instance `i` never completed (60_exceptions.md R219): the history, the device and the
mark of that instance and the draw counter, and nothing else, differ from `s`. -/
def afterHang (s : State) (i : InstanceId) (log : List Transaction) (dev : Device) (draws : Nat) : State :=
  { s.setBlock i { s.block i with hung := true, history := (s.block i).history ++ log, device := dev } with draws := draws }

/-! ### How a command of one read, or of one masked update, ends -/

/-- The address write of a read, answered `st`. -/
def addressLog (dev8 a : Byte) (st : BusStatus) : List Transaction := [⟨.write dev8 [a] true, st, []⟩]

/-- The address write of a read, answered `ok`, and the read of `n` bytes, answered `st` with no bytes. -/
def failedReadLog (dev8 a : Byte) (n : Nat) (st : BusStatus) : List Transaction :=
  [⟨.write dev8 [a] true, .ok, []⟩, ⟨.read dev8 n, st, []⟩]

/-- A masked update whose write is answered `st`. -/
def failedUpdateLog (dev8 : Byte) (r : RegIdx) (old new : Byte) (st : BusStatus) : List Transaction :=
  readLog dev8 (0#1 ++ r) [old] ++ [⟨.write dev8 [0#1 ++ r, new] false, st, []⟩]

/-- The state after a command ended with `OK` and a result, or with an outcome. -/
def ended (s : State) (i : InstanceId) (e : Except Status (Option ResultData)) (log : List Transaction) (dev : Device) (n : Nat) :
    State :=
  match e with
  | .ok d => afterOk s i log dev n d
  | .error o => afterOutcome s i o log dev n

/-- The command `c`, in state `s`, begins with a read of `n` bytes at the address byte `a`, and ends in `BUS_ERROR` where one of its two
transactions fails, with no later transaction (20_memory.md R45, R47, 60_exceptions.md R201). -/
def ReadFails (c : Instr) (s : State) (a : Byte) (n : Nat) : Prop :=
  (∀ dev k, Answers s c.target (addressLog (s.block c.target).dev8 a .err) dev k →
    exec c s = .next (afterOutcome s c.target (.busError .write a) (addressLog (s.block c.target).dev8 a .err) dev k)) ∧
  (∀ dev k, Answers s c.target (failedReadLog (s.block c.target).dev8 a n .err) dev k →
    exec c s = .next (afterOutcome s c.target (.busError .read a) (failedReadLog (s.block c.target).dev8 a n .err) dev k))

/-- The command `c`, in state `s`, makes one read of `n` bytes at the address byte `a` and ends as `f` says of the bytes, or in
`BUS_ERROR`. -/
def EndsAfterRead (c : Instr) (s : State) (a : Byte) (n : Nat) (f : List Byte → Except Status (Option ResultData)) : Prop :=
  (∀ bs dev k, bs.length = n → Answers s c.target (readLog (s.block c.target).dev8 a bs) dev k →
    exec c s = .next (ended s c.target (f bs) (readLog (s.block c.target).dev8 a bs) dev k)) ∧
  ReadFails c s a n

/-- The same for a read of one byte. -/
def EndsAfterByte (c : Instr) (s : State) (r : RegIdx) (f : Byte → Except Status (Option ResultData)) : Prop :=
  EndsAfterRead c s (0#1 ++ r) 1 fun bs => f (bs.getD 0 0#8)

/-- The new value of a masked update (40_register_access.md R103). -/
def merged (old v m : Byte) : Byte := (old &&& ~~~m) ||| (v &&& m)

/-- The command `c`, in state `s`, makes one masked update of register `r` with value `v` under mask `m` and ends with `OK`, after which
`done` is applied, or in `BUS_ERROR`; after a failed write, and only then, `failed` is applied. -/
def EndsAfterUpdate (c : Instr) (s : State) (r : RegIdx) (v m : Byte) (done failed : State → State) : Prop :=
  (∀ old dev k, Answers s c.target (updateLog (s.block c.target).dev8 r old (merged old v m)) dev k →
    exec c s = .next (done (afterOk s c.target (updateLog (s.block c.target).dev8 r old (merged old v m)) dev k none))) ∧
  ReadFails c s (0#1 ++ r) 1 ∧
  (∀ old dev k, Answers s c.target (failedUpdateLog (s.block c.target).dev8 r old (merged old v m) .err) dev k →
    exec c s = .next (failed (afterOutcome s c.target (.busError .write (0#1 ++ r))
      (failedUpdateLog (s.block c.target).dev8 r old (merged old v m) .err) dev k)))

/-! ### The logs of the internal sub-operations -/

/-- A log of `ACC_DRAIN()` (41_accel_codec.md R111): the status read and, where data is pending, one burst of six bytes. -/
def DrainLog (m : RegMap) (dev8 : Byte) (log : List Transaction) : Prop :=
  ∃ st : Byte,
    (st &&& m.accDrdyMask = 0#8 ∧ log = readLog dev8 (0#1 ++ m.accStatus) [st]) ∨
    (st &&& m.accDrdyMask ≠ 0#8 ∧ ∃ bs : List Byte, bs.length = 6 ∧
      log = readLog dev8 (0#1 ++ m.accStatus) [st] ++ readLog dev8 (1#1 ++ m.accOutXL) bs)

/-- The FIFO mode of the two fields read, or none where the pair is not in the enumeration (41_accel_codec.md R127). -/
def fifoPair (m : RegMap) (ctrl5 fifoCtrl : Byte) : Option FifoMode :=
  if ctrl5 &&& m.accFifoEnMask = 0#8 ∧ fifoCtrl &&& m.accFmMask = m.accFmBypass then some .disabled
  else if ctrl5 &&& m.accFifoEnMask = m.accFifoEnMask ∧ fifoCtrl &&& m.accFmMask = m.accFmStream then some .stream
  else none

/-- A log of `IRQ(enable)` that ends well (41_accel_codec.md R123): the drain, the FIFO mode, and one update of both routing bits. -/
def EnableLog (m : RegMap) (dev8 : Byte) (log : List Transaction) : Prop :=
  ∃ drain ctrl5 fifoCtrl old, DrainLog m dev8 drain ∧
    ((fifoPair m ctrl5 fifoCtrl = some .stream ∧
        log = drain ++ readLog dev8 (0#1 ++ m.accCtrl5) [ctrl5] ++ readLog dev8 (0#1 ++ m.accFifoCtrl) [fifoCtrl] ++
          updateLog dev8 m.accCtrl3 old (merged old m.accIntWtmMask (m.accIntDrdyMask ||| m.accIntWtmMask))) ∨
      (fifoPair m ctrl5 fifoCtrl = some .disabled ∧
        log = drain ++ readLog dev8 (0#1 ++ m.accCtrl5) [ctrl5] ++ readLog dev8 (0#1 ++ m.accFifoCtrl) [fifoCtrl] ++
          updateLog dev8 m.accCtrl3 old (merged old m.accIntDrdyMask (m.accIntDrdyMask ||| m.accIntWtmMask))))

/-- A log of `ACC_SET_FIFO_MODE(f)` that ends well (41_accel_codec.md R126): the enable bit, the mode field, the routing query, and the
enabling again where a routing bit is set. -/
def FifoModeLog (m : RegMap) (dev8 : Byte) (f : FifoMode) (log : List Transaction) : Prop :=
  ∃ e fc q refresh,
    (q &&& (m.accIntDrdyMask ||| m.accIntWtmMask) = 0#8 ∧ refresh = [] ∨
      q &&& (m.accIntDrdyMask ||| m.accIntWtmMask) ≠ 0#8 ∧ EnableLog m dev8 refresh) ∧
    log = updateLog dev8 m.accCtrl5 e (merged e (if f = .stream then m.accFifoEnMask else 0x00#8) m.accFifoEnMask) ++
      updateLog dev8 m.accFifoCtrl fc (merged fc (if f = .stream then m.accFmStream else m.accFmBypass) m.accFmMask) ++
      readLog dev8 (0#1 ++ m.accCtrl3) [q] ++ refresh

/-- A log of `ACC_SET_ODR(c)` that ends well (41_accel_codec.md R113): the rate read; nothing more where it is `c`; for power-down the
field cleared; otherwise the power mode read, in which `c` is valid, the drain where the rate was power-down, and the rate written. -/
def SetOdrLog (m : RegMap) (dev8 : Byte) (c : AccOdr) (log : List Transaction) : Prop :=
  ∃ r1 cur, accOdrOfCtrl1 r1 = some cur ∧
    let read1 := readLog dev8 (0#1 ++ m.accCtrl1) [r1]
    (cur = c ∧ log = read1 ∨
      cur ≠ c ∧ c = .powerDown ∧ (∃ r, log = read1 ++ updateLog dev8 m.accCtrl1 r (merged r 0x00#8 m.accOdrMask)) ∨
      cur ≠ c ∧ c ≠ .powerDown ∧ ∃ r2 r3 drain,
        odrValid c (if r2 &&& m.accLpenMask ≠ 0#8 then .lowPower else .normal) = true ∧
        (cur ≠ .powerDown ∧ drain = [] ∨ cur = .powerDown ∧ DrainLog m dev8 drain) ∧
        log = read1 ++ readLog dev8 (0#1 ++ m.accCtrl1) [r2] ++ drain ++ updateLog dev8 m.accCtrl1 r3
          (merged r3 ((accOdrCode c &&& 0xF0#8) ||| m.accAxesMask) (m.accOdrMask ||| m.accAxesMask)))

/-- The rate that `ACC_INIT(start)` sets (41_accel_codec.md R112). -/
def initTarget (p : Params) (start : Bool) : AccOdr := if start then p.accDefaultOdr else .powerDown

/-- The transactions of `ACC_INIT` up to the full scale (41_accel_codec.md R112): the identity, the reboot pulse (R131), the interrupts
disabled (R123), the FIFO disabled (R126) and its watermark zeroed (R128). -/
def AccInitFirstLog (m : RegMap) (dev8 : Byte) (log : List Transaction) : Prop :=
  ∃ o1 o2 o3 o4 fifo, FifoModeLog m dev8 .disabled fifo ∧
    log = readLog dev8 (0#1 ++ m.accIdAddr) [m.accIdValue] ++
      updateLog dev8 m.accCtrl5 o1 (merged o1 m.accBootMask m.accBootMask) ++
      updateLog dev8 m.accCtrl5 o2 (merged o2 0x00#8 m.accBootMask) ++
      updateLog dev8 m.accCtrl3 o3 (merged o3 0x00#8 (m.accIntDrdyMask ||| m.accIntWtmMask)) ++
      fifo ++ updateLog dev8 m.accFifoCtrl o4 (merged o4 0x00#8 m.accFthMask)

/-- The transactions of `ACC_INIT` up to the rate (41_accel_codec.md R112): further the full scale ±2 g (R117), the filter off (R121), high
resolution (R119), normal mode (R115) and the drain (R111). -/
def AccInitMiddleLog (m : RegMap) (dev8 : Byte) (log : List Transaction) : Prop :=
  ∃ first o5 o6 o7 o8 drain, AccInitFirstLog m dev8 first ∧ DrainLog m dev8 drain ∧
    log = first ++
      updateLog dev8 m.accCtrl4 o5 (merged o5 0x00#8 m.accFsMask) ++
      updateLog dev8 m.accCtrl2 o6 (merged o6 0x00#8 m.accHpfEnMask) ++
      updateLog dev8 m.accCtrl4 o7 (merged o7 0x08#8 m.accHrMask) ++
      updateLog dev8 m.accCtrl1 o8 (merged o8 0x00#8 m.accLpenMask) ++ drain

/-- All the transactions of `ACC_INIT(start)` (41_accel_codec.md R112): further the rate (R113) and the readback, which gives `f`. -/
def AccInitLog (p : Params) (dev8 : Byte) (start : Bool) (f : Byte) (log : List Transaction) : Prop :=
  ∃ middle odr, AccInitMiddleLog p.regMap dev8 middle ∧ SetOdrLog p.regMap dev8 (initTarget p start) odr ∧
    log = middle ++ odr ++ readLog dev8 (0#1 ++ p.regMap.accCtrl1) [f]

/-! ### The opcode table, as 30_encoding.md R61 to R65 say it -/

/-- An assigned operation code (30_encoding.md R64). -/
def opAssigned (op : Nat) : Bool := (1 ≤ op && op ≤ 5) || (0x10 ≤ op && op ≤ 0x26) || (0x30 ≤ op && op ≤ 0x3E)

/-- An operation code valid on an instance (30_encoding.md R65). -/
def opOn (i : InstanceId) (op : Nat) : Bool :=
  (1 ≤ op && op ≤ 5) ||
    match i with
    | .acc => 0x10 ≤ op && op ≤ 0x26
    | .mag => 0x30 ≤ op && op ≤ 0x3E

/-- The accelerometer and magnetometer codes with one argument in `A` (30_encoding.md R63). -/
def opWithArgument (op : Nat) : Bool :=
  [0x10, 0x11, 0x13, 0x15, 0x17, 0x19, 0x1B, 0x1D, 0x20, 0x30, 0x31, 0x33, 0x35, 0x37].contains op

/-- The bits of a word that must be zero: the fields the code does not use and `A[7]` of a register index (30_encoding.md R62, R63). -/
def zeroBits (op : Nat) : Word :=
  if op = 1 then 0x0080FFFF#32
  else if op = 2 then 0x008000FF#32
  else if op = 3 then 0x0080FF00#32
  else if op = 4 then 0x00800000#32
  else if op = 5 then 0x008000FF#32
  else if opWithArgument op then 0x0000FFFF#32
  else 0x00FFFFFF#32

/-- The values of `A` and `V` that a code admits (30_encoding.md R61, R66 to R69, R80). -/
def argumentOk (op a v : Nat) : Bool :=
  if op = 5 then v != 0
  else if [0x10, 0x13, 0x17, 0x1B, 0x20, 0x30, 0x31, 0x37].contains op then a ≤ 1
  else if op = 0x11 then [0x00, 0x13, 0x23, 0x33, 0x43, 0x53, 0x63, 0x73, 0x82, 0x91, 0x92].contains a
  else if op = 0x15 then a ≤ 3
  else if op = 0x19 then a ≤ 4
  else if op = 0x33 then a ≤ 7
  else if op = 0x35 then 1 ≤ a && a ≤ 7
  else true

/-! ### The first read of a command -/

/-- The address byte and the length of the read that a command begins with, with the caches set where it checks them; none for a command
that begins otherwise (60_exceptions.md R201). -/
def firstRead (m : RegMap) : Instr → Option (Byte × Nat)
  | .readReg _ r | .readRegMasked _ r _ | .updateRegMasked _ r _ _ => some (0#1 ++ r, 1)
  | .readBurst _ r n => if n = 0#8 then none else some (1#1 ++ r, n.toNat)
  | .accInit _ => some (0#1 ++ m.accIdAddr, 1)
  | .accSetOdr _ | .accGetOdr | .accSetPowerMode _ | .accGetPowerMode | .accGetOdrHz => some (0#1 ++ m.accCtrl1, 1)
  | .accSetHpfMode _ | .accGetHpfMode | .accGetHpfCutoff => some (0#1 ++ m.accCtrl2, 1)
  | .accSetFullScale _ | .accGetFullScale | .accSetHighRes _ | .accGetHighRes => some (0#1 ++ m.accCtrl4, 1)
  | .accSetFifoMode _ | .accGetFifoMode => some (0#1 ++ m.accCtrl5, 1)
  | .accSetFifoWatermark w => if w.toNat ≤ 31 then some (0#1 ++ m.accFifoCtrl, 1) else none
  | .accGetFifoWatermark | .accClearFifo => some (0#1 ++ m.accFifoCtrl, 1)
  | .accSetDrdyInt e => if e then some (0#1 ++ m.accStatus, 1) else some (0#1 ++ m.accCtrl3, 1)
  | .accGetDrdyInt => some (0#1 ++ m.accCtrl3, 1)
  | .accReadData16 | .accReadData => some (1#1 ++ m.accOutXL, 6)
  | .magInit _ => some (0#1 ++ m.magIra, 1)
  | .magSetMode _ | .magGetMode => some (0#1 ++ m.magMr, 1)
  | .magSetOdr _ | .magGetOdr | .magSetTempEn _ | .magGetTempEn | .magGetOdrHz => some (0#1 ++ m.magCra, 1)
  | .magSetFullScale _ | .magGetFullScale => some (0#1 ++ m.magCrb, 1)
  | .magReadData16 | .magReadData => some (1#1 ++ m.magOutXH, 6)
  | .magReadTemp16 | .magReadTemp => some (1#1 ++ m.magTempH, 2)
  | .writeReg _ _ _ | .accGetSens | .magGetSens => none

/-- The caches that a command checks before its first transaction hold values (60_exceptions.md R205). -/
def cachesSetFor (s : State) : Instr → Prop
  | .accReadData => s.sensAcc ≠ none
  | .magReadData => s.sensMagXY ≠ none ∧ s.sensMagZ ≠ none
  | _ => True

/-! ### Setters and their getters (41_accel_codec.md R132) -/

/-- The getter of a setter, with the result it returns for the setter's argument. -/
def getterOf : Instr → Option (Instr × ResultData)
  | .accSetOdr c => some (.accGetOdr, .code (accOdrCode c))
  | .accSetPowerMode pm => some (.accGetPowerMode, .code (powerModeCode pm))
  | .accSetFullScale fs => some (.accGetFullScale, .code (accFsCode fs))
  | .accSetHighRes e => some (.accGetHighRes, .bool e)
  | .accSetHpfMode h => some (.accGetHpfMode, .code (hpfCode h))
  | .accSetFifoMode f => some (.accGetFifoMode, .code (fifoModeCode f))
  | .accSetFifoWatermark w => some (.accGetFifoWatermark, .byte w)
  | .accSetDrdyInt e => some (.accGetDrdyInt, .bool e)
  | .magSetMode e => some (.magGetMode, .code (boolCode e))
  | .magSetOdr d => some (.magGetOdr, .code (magOdrCode d))
  | .magSetFullScale g => some (.magGetFullScale, .code (magFsCode g))
  | .magSetTempEn e => some (.magGetTempEn, .bool e)
  | _ => none

/-! ### What the codec commands may write -/

/-- The bits of a control register that the codec commands write, by its address byte, for the default register map (30_encoding.md
R71 to R78); none where they write nothing. -/
def codecFields (i : InstanceId) (a : Byte) : Option Byte :=
  match i, a.toNat with
  | .acc, 0x20 => some 0xFF#8
  | .acc, 0x21 => some 0x38#8
  | .acc, 0x22 => some 0x14#8
  | .acc, 0x23 => some 0x38#8
  | .acc, 0x24 => some 0xC0#8
  | .acc, 0x2E => some 0xDF#8
  | .mag, 0x00 => some 0x9C#8
  | .mag, 0x01 => some 0xE0#8
  | .mag, 0x02 => some 0x03#8
  | _, _ => none

/-- Every two-byte write of a log follows at once a completed one-byte read of the same register, names a control register of
30_encoding.md R71 to R78, and keeps every bit of the byte read but those of the register's fields. -/
def CodecLog (i : InstanceId) (log : List Transaction) : Prop :=
  ∀ before e after d a v noStop, log = before ++ e :: after → e.req = .write d [a, v] noStop →
    ∃ earlier b m, before = earlier ++ readLog d a [b] ∧ codecFields i a = some m ∧ v &&& ~~~m = b &&& ~~~m

/-- Every read of a log stands at once after the completed address write of the same device; every write carries one address byte and
one value with a stop, or one address byte with no stop, and the latter, where it completes, is followed at once by a read of the same
device (20_memory.md R45, R46). -/
def FramedLog (log : List Transaction) : Prop :=
  ∀ before e after, log = before ++ e :: after →
    match e.req with
    | .read d _ => ∃ earlier a, before = earlier ++ [⟨.write d [a] true, .ok, []⟩]
    | .write d bytes noStop =>
      (∃ a, bytes = [a] ∧ noStop = true ∧ (e.status = .ok → ∃ x n rest, after = x :: rest ∧ x.req = .read d n)) ∨
      (∃ a v, bytes = [a, v] ∧ noStop = false)

/-- Every transaction of a log but the last was answered `ok` (20_memory.md R47). -/
def OnlyLastFails (log : List Transaction) : Prop :=
  ∀ before e after, log = before ++ e :: after → after ≠ [] → e.status = .ok

/-- The transaction that a `BUS_ERROR(dir, a)` reports is the last one of the log, answered `err` (60_exceptions.md R200, R201): a write
whose first byte is `a`, or a read after the completed address write of `a`. -/
def ReportsLast (log : List Transaction) (dir : Dir) (a : Byte) : Prop :=
  match dir with
  | .write => ∃ before d rest noStop, log = before ++ [⟨.write d (a :: rest) noStop, .err, []⟩]
  | .read => ∃ before d n, log = before ++ [⟨.write d [a] true, .ok, []⟩, ⟨.read d n, .err, []⟩]

end Sys2Proof.Machine
end

