-- ==== Sys2Proof/Certificates/Slice0/Obligations.lean ====
section
/-! DEFINITION. The statements for the provers. `Answers s i log dev n` (Safety.lean) says that the device of instance `i` gives the
responses of `log`; `afterOk` and `afterOutcome` say all that a command changes, so a statement that ends in one of them is the frame of
its command too. -/

section Slice0Statements

open Sys2Proof Sys2Proof.Machine

/-! ### Reset -/

/-- 10_state.md R35: the block state at construction, for both instances, with an empty history. -/
def Obligations.ResetIsConstruction : Prop :=
  (State.reset.acc.dev7 = 0x19#7 ∧ State.reset.acc.dev8 = 0x32#8 ∧ State.reset.mag.dev7 = 0x1E#7 ∧
    State.reset.mag.dev8 = 0x3C#8) ∧
  State.reset.sensAcc = none ∧ State.reset.sensMagXY = none ∧ State.reset.sensMagZ = none ∧
  ∀ i, (State.reset.block i).status = none ∧ (State.reset.block i).result = none ∧ (State.reset.block i).faulted = false ∧
    (State.reset.block i).refused = false ∧ (State.reset.block i).history = []

/-- The invariant holds right after construction. It rests on the parameters being the defaults of the spec (log 9, log 10). -/
def Obligations.ResetMeetsInvariant : Prop := MachineInv State.reset

/-- Every step keeps the invariant: the binding, RESULT only after `OK`, the sticky marks in step with STATUS, the hang mark in step with
the history, every transaction at the bound address, the caches UNSET or of their tables. The hang mark and the canonical form of a register-file device
are the model's (log 7, log 6). -/
def Obligations.StepKeepsInvariant : Prop := ∀ s t, MachineInv s → step s = .next t → MachineInv t

/-! ### Encoding -/

/-- A well-formed command decodes from its word, on its instance, to itself, with every operand. -/
def Obligations.DecodeOfEncode : Prop := ∀ c : Instr, c.wf = true → decode c.target (encode c) = .ok c

/-- A word that decodes is the word of the command it decodes to: no bit is dropped. -/
def Obligations.EncodeOfDecode : Prop :=
  ∀ i w c, decode i w = .ok c → encode c = w ∧ c.target = i ∧ c.wf = true

/-- Words written out from 30_encoding.md R60 and R63, one or more for each family, decode to their commands. -/
def Obligations.DecodeExamples : Prop :=
  decode .acc 0x01200000#32 = .ok (.readReg .acc 0x20#7) ∧
  decode .mag 0x02020300#32 = .ok (.writeReg .mag 0x02#7 0x03#8) ∧
  decode .acc 0x03230030#32 = .ok (.readRegMasked .acc 0x23#7 0x30#8) ∧
  decode .acc 0x042057F7#32 = .ok (.updateRegMasked .acc 0x20#7 0x57#8 0xF7#8) ∧
  decode .mag 0x05030600#32 = .ok (.readBurst .mag 0x03#7 6#8) ∧
  decode .acc 0x10010000#32 = .ok (.accInit true) ∧
  decode .acc 0x11530000#32 = .ok (.accSetOdr .hz100) ∧
  decode .acc 0x19020000#32 = .ok (.accSetHpfMode (.cutoff 1#2)) ∧
  decode .acc 0x1DFF0000#32 = .ok (.accSetFifoWatermark 0xFF#8) ∧
  decode .acc 0x26000000#32 = .ok .accReadData ∧
  decode .mag 0x35070000#32 = .ok (.magSetFullScale .g81) ∧
  decode .mag 0x3E000000#32 = .ok .magReadTemp

/-- 30_encoding.md R62, R64, R65: which words are refused, and with which reason, in the order of the checks; `op`, `a` and `v` are the
bytes of the word. -/
def Obligations.RefusalReasons : Prop :=
  ∀ (i : InstanceId) (w : Word),
    let op := w.toNat / 2 ^ 24
    let a := w.toNat / 2 ^ 16 % 256
    let v := w.toNat / 2 ^ 8 % 256
    (decode i w = .error .unknownOp ↔ opAssigned op = false) ∧
    (decode i w = .error .wrongInstance ↔ opAssigned op = true ∧ opOn i op = false) ∧
    (decode i w = .error .reservedNonzero ↔ opOn i op = true ∧ w &&& zeroBits op ≠ 0#32) ∧
    (decode i w = .error .badArgument ↔ opOn i op = true ∧ w &&& zeroBits op = 0#32 ∧ argumentOk op a v = false)

/-- 30_encoding.md R67: the validity of a rate code in a power mode. -/
def Obligations.OdrValidity : Prop :=
  ∀ c : AccOdr,
    (odrValid c .normal = true ↔ accOdrCode c = 0x00#8 ∨ (accOdrCode c).getLsbD 0 = true) ∧
    (odrValid c .lowPower = true ↔ accOdrCode c = 0x00#8 ∨ (accOdrCode c).getLsbD 1 = true)

/-- 30_encoding.md R83 for every operand, and three of the lines R82 writes out. -/
def Obligations.AssemblerLines : Prop :=
  (∀ i r m s, exec (setBits i r m) s = exec (.updateRegMasked i r m m) s ∧
    exec (clearBits i r m) s = exec (.updateRegMasked i r 0#8 m) s) ∧
  assembleLine "ACC.SET_ODR ODR_100HZ" = .command ⟨.acc, encode (.accSetOdr .hz100)⟩ ∧
  assembleLine "MAG.READ_BURST 0x03, 6" = .command ⟨.mag, encode (.readBurst .mag 0x03#7 6#8)⟩ ∧
  assembleLine "ACC.SET_BITS 0x24, 0x80 ; set BOOT" = .command ⟨.acc, encode (setBits .acc 0x24#7 0x80#8)⟩ ∧
  assembleLine "ACC.CLEAR_BITS 0x24, 0x80" = .command ⟨.acc, encode (clearBits .acc 0x24#7 0x80#8)⟩

/-! ### The step -/

/-- A step runs the decoded command: the first pending command whose instance accepts is no longer pending and its meaning runs (the
list of pending commands is the model's own, log 2). -/
def Obligations.StepRunsDecodedCommand : Prop :=
  ∀ s before c after i, s.pending = before ++ c :: after → (∀ d ∈ before, accepts s d.target = false) →
    accepts s c.target = true → decode c.target c.word = .ok i → step s = exec i { s with pending := before ++ after }

/-- 60_exceptions.md R206: a word that fails a decode check ends in `REFUSED` with its reason and no transaction. That
STATUS and RESULT change too is the model's reading (log 14). -/
def Obligations.RefusedWordIsRefused : Prop :=
  ∀ s c after why, s.pending = c :: after → accepts s c.target = true → decode c.target c.word = .error why →
    step s = .next (afterOutcome { s with pending := after } c.target (.refused why) [] (s.block c.target).device s.draws)

/-- Without a pending command the machine waits; with none that an instance accepts it is stuck (log 2, log 8). -/
def Obligations.StepWaitsOrIsStuck : Prop :=
  (∀ s, s.pending = [] → step s = .next s) ∧
  (∀ s c rest, s.pending = c :: rest → (∀ d ∈ c :: rest, accepts s d.target = false) →
    ∃ why, stuckReason (s.block c.target) = some why ∧ step s = .fault (.stuck c.target why))

/-- A presented word of the opcode table runs in the very next step (log 3). -/
def Obligations.PresentedWordRuns : Prop :=
  ∀ s nbits w i, decodeTableWord nbits w = some i → accepts s i.target = true → step (s.withFetchWord nbits w) = exec i s

/-! ### Acceptance and the end of a command -/

/-- 60_exceptions.md R210, R219: an instance marked FAULTED or REFUSED, or with a transaction that never completed, accepts no command.
The fault that says so, and which of the marks it names, is the model's (log 8). -/
def Obligations.StuckInstanceAcceptsNothing : Prop :=
  ∀ c s, (s.block c.target).faulted = true ∨ (s.block c.target).refused = true ∨ (s.block c.target).hung = true →
    ∃ why, stuckReason (s.block c.target) = some why ∧ exec c s = .fault (.stuck c.target why)

/-- 10_state.md R26 to R29, 60_exceptions.md R209: a command on an instance with no mark ends with one outcome, which sets STATUS and the
marks and, unless it is `OK`, leaves RESULT without a value; or it hangs, and then it reports nothing. A hang is a next state
with a mark by the model's choice (log 7). -/
def Obligations.AcceptedCommandEnds : Prop :=
  ∀ c s, accepts s c.target = true →
    ∃ t, exec c s = .next t ∧
      ((∃ o, (t.block c.target).status = some o ∧ (t.block c.target).faulted = isFatal o ∧
          (t.block c.target).refused = isRefusal o ∧ (t.block c.target).hung = false ∧
          (o ≠ .ok → (t.block c.target).result = none)) ∨
        ((t.block c.target).status = (s.block c.target).status ∧ (t.block c.target).result = (s.block c.target).result ∧
          (t.block c.target).faulted = false ∧ (t.block c.target).refused = false ∧ (t.block c.target).hung = true))

/-- 60_exceptions.md R200: the numeric codes of the outcomes, and which are fatal and which is the refusal. -/
def Obligations.OutcomeCodes : Prop :=
  statusCode .ok = 0 ∧
  (∀ d a, statusCode (.busError d a) = 1) ∧ (∀ w r b, statusCode (.initFailed w r b) = 2) ∧
  (∀ x, statusCode (.invalidConfig x) = 3) ∧ (∀ r b, statusCode (.unreachableDecode r b) = 4) ∧
  (∀ w, statusCode (.cacheUnset w) = 5) ∧ (∀ w, statusCode (.refused w) = 6) ∧
  (∀ o, isFatal o = true ↔ statusCode o = 3 ∨ statusCode o = 4 ∨ statusCode o = 5) ∧
  ∀ o, isRefusal o = true ↔ statusCode o = 6

/-- 60_exceptions.md R216: a command changes nothing of the other instance, and what it does to its own does not depend on the other's
state. The parameters and the pending commands stay. -/
def Obligations.InstancesIndependent : Prop :=
  ∀ c s t, exec c s = .next t →
    t.params = s.params ∧ t.pending = s.pending ∧
    (∀ j, j ≠ c.target → t.block j = s.block j ∧ ∀ b, exec c (s.setBlock j b) = .next (t.setBlock j b)) ∧
    (c.target = .acc → t.sensMagXY = s.sensMagXY ∧ t.sensMagZ = s.sensMagZ ∧
      ∀ x z, exec c { s with sensMagXY := x, sensMagZ := z } = .next { t with sensMagXY := x, sensMagZ := z }) ∧
    (c.target = .mag → t.sensAcc = s.sensAcc ∧ ∀ x, exec c { s with sensAcc := x } = .next { t with sensAcc := x })

/-- 10_state.md R21: `SENS_ACC` is written only by the full-scale setter and by init, with one of the four values or UNSET, and read only
by `ACC_READ_DATA` and `ACC_GET_SENS`. -/
def Obligations.SensAccAccess : Prop :=
  ∀ c s t, exec c s = .next t →
    (t.sensAcc = s.sensAcc ∨ ((∃ fs, c = .accSetFullScale fs) ∨ ∃ b, c = .accInit b) ∧
      (t.sensAcc = none ∨ ∃ fs, t.sensAcc = some (accSens s.params.floatFmt fs))) ∧
    (c ≠ .accReadData → c ≠ .accGetSens →
      ∀ v, ∃ v', exec c { s with sensAcc := v } = .next { t with sensAcc := v' })

/-- 10_state.md R23: the magnetometer caches are written together, only by the full-scale setter and by init, and read only by
`MAG_READ_DATA` and `MAG_GET_SENS`. -/
def Obligations.SensMagAccess : Prop :=
  ∀ c s t, exec c s = .next t →
    ((t.sensMagXY = s.sensMagXY ∧ t.sensMagZ = s.sensMagZ) ∨
      ((∃ g, c = .magSetFullScale g) ∨ ∃ b, c = .magInit b) ∧
        ((t.sensMagXY = none ∧ t.sensMagZ = none) ∨
          ∃ g, t.sensMagXY = some (magSens s.params.floatFmt s.params.magGains g).1 ∧
            t.sensMagZ = some (magSens s.params.floatFmt s.params.magGains g).2)) ∧
    (c ≠ .magReadData → c ≠ .magGetSens →
      ∀ x z, ∃ x' z', exec c { s with sensMagXY := x, sensMagZ := z } = .next { t with sensMagXY := x', sensMagZ := z' })

/-! ### Transactions -/

/-- 20_memory.md R45, R46: a register read is an address write with no stop and then a read, each checked, with nothing between; a
register write is one two-byte write with a stop. -/
def Obligations.AccessFraming : Prop :=
  ∀ i a v n s dev k,
    let d8 := (s.block i).dev8
    let w : BusStatus → List Transaction := fun st => [⟨.write d8 [a, v] false, st, []⟩]
    (∀ bs, bs.length = n → Answers s i (readLog d8 a bs) dev k →
      ∃ t, memRead i a n s = .ok bs t ∧ (t.block i).history = (s.block i).history ++ readLog d8 a bs ∧ (t.block i).device = dev) ∧
    (Answers s i (addressLog d8 a .err) dev k →
      ∃ t, memRead i a n s = .error (.outcome (.busError .write a)) t ∧ (t.block i).history = (s.block i).history ++ addressLog d8 a .err) ∧
    (Answers s i (failedReadLog d8 a n .err) dev k →
      ∃ t, memRead i a n s = .error (.outcome (.busError .read a)) t ∧
        (t.block i).history = (s.block i).history ++ failedReadLog d8 a n .err) ∧
    (Answers s i (w .ok) dev k →
      ∃ t, memWrite i a v s = .ok () t ∧ (t.block i).history = (s.block i).history ++ w .ok ∧ (t.block i).device = dev) ∧
    (Answers s i (w .err) dev k →
      ∃ t, memWrite i a v s = .error (.outcome (.busError .write a)) t ∧ (t.block i).history = (s.block i).history ++ w .err)

/-- 20_memory.md R44 to R47, 60_exceptions.md R201, R219: whatever the device, every transaction of a command goes to the bound address
and is framed as a register read or write, a completed address write followed at once by its read; none follows one that failed; and the
outcome is `BUS_ERROR` exactly when the last one failed, with that transaction reported, and a hang, a mark of the model (log 7), exactly
when it never completed. -/
def Obligations.TransactionDiscipline : Prop :=
  ∀ c s t, exec c s = .next t →
    ∃ log, (t.block c.target).history = (s.block c.target).history ++ log ∧
      (∀ e ∈ log, requestDev8 e.req = (s.block c.target).dev8) ∧ FramedLog log ∧ OnlyLastFails log ∧
      (((∀ e ∈ log, e.status = .ok) ∧ (t.block c.target).hung = false ∧ ∀ d a, (t.block c.target).status ≠ some (.busError d a)) ∨
        (∃ d a, (t.block c.target).status = some (.busError d a) ∧ (t.block c.target).hung = false ∧ ReportsLast log d a) ∨
        ((t.block c.target).hung = true ∧ ∃ l x, log = l ++ [x] ∧ x.status = .hang))

/-- 20_memory.md R40, R54: each transaction is one draw of the oracle, none is merged, repeated or dropped, and the history records what
the oracle listed. The list and the counter of draws are the model's (log 4, log 5). -/
def Obligations.EachTransactionIsOneDraw : Prop :=
  ∀ c s t listed, exec c s = .next t → (s.block c.target).device = .oracle listed →
    ∃ log, (t.block c.target).history = (s.block c.target).history ++ log ∧
      (t.block c.target).device = .oracle (listed.drop log.length) ∧ t.draws = s.draws + log.length ∧
      ∀ k (h : k < log.length) (h' : k < listed.length), (log[k]).status = (listed[k]).status

/-- 60_exceptions.md R201: any command that begins with a read ends in `BUS_ERROR` where a transaction of that read fails, and, by
R219, hangs where one never completes (a mark of the model, log 7); nothing else changes. -/
def Obligations.FirstReadFails : Prop :=
  ∀ c s a n, accepts s c.target = true → cachesSetFor s c → firstRead s.params.regMap c = some (a, n) →
    ReadFails c s a n ∧
    (∀ dev k, Answers s c.target (addressLog (s.block c.target).dev8 a .hang) dev k →
      exec c s = .next (afterHang s c.target (addressLog (s.block c.target).dev8 a .hang) dev k)) ∧
    (∀ dev k, Answers s c.target (failedReadLog (s.block c.target).dev8 a n .hang) dev k →
      exec c s = .next (afterHang s c.target (failedReadLog (s.block c.target).dev8 a n .hang) dev k))

/-- 10_state.md R32: with the default register map, the codec, LUT and sample commands write only the fields of 30_encoding.md R71 to
R78, each after a read of the same register, and keep every other bit read. -/
def Obligations.CodecWritesKeepOtherBits : Prop :=
  ∀ c s t, s.params.regMap = defaultRegMap → c.isHelper = false → exec c s = .next t →
    ∃ log, (t.block c.target).history = (s.block c.target).history ++ log ∧ CodecLog c.target log

/-- 60_exceptions.md R202 to R206: with the default parameters, which commands may end in each outcome, and when.
`REFUSED` comes from `exec` for a burst of length 0 only, by the model's choice (log 18). -/
def Obligations.OutcomeSources : Prop :=
  ∀ c s t o, s.params = defaultParams → exec c s = .next t → (t.block c.target).hung = false → (t.block c.target).status = some o →
    match o with
    | .ok => True
    | .busError _ _ => c ≠ .accGetSens ∧ c ≠ .magGetSens ∧ ∀ w, c = .accSetFifoWatermark w → w.toNat ≤ 31
    | .initFailed .idMismatch r b =>
      ((∃ x, c = .accInit x) ∧ r = 0x0F#7 ∧ b ≠ 0x33#8) ∨
      ((∃ x, c = .magInit x) ∧ ((r = 0x0A#7 ∧ b ≠ 0x48#8) ∨ (r = 0x0B#7 ∧ b ≠ 0x34#8) ∨ (r = 0x0C#7 ∧ b ≠ 0x33#8)))
    | .initFailed .readbackMismatch r b => r = 0x20#7 ∧ (c = .accInit true ∧ b ≠ 0x50#8 ∨ c = .accInit false ∧ b ≠ 0x00#8)
    | .invalidConfig (.odr d pm) => c = .accSetOdr d ∧ odrValid d pm = false
    | .invalidConfig (.watermark w) => c = .accSetFifoWatermark w ∧ 31 < w.toNat
    | .unreachableDecode r b =>
      (r = 0x20#7 ∧ accOdrOfCtrl1 b = none ∧
        (c = .accGetOdr ∨ (∃ d, c = .accSetOdr d) ∨ c = .accGetOdrHz ∨ c = .accGetHpfCutoff ∨ ∃ x, c = .accInit x)) ∨
      (r = 0x2E#7 ∧ (c = .accGetFifoMode ∨ c = .accSetDrdyInt true ∨ (∃ f, c = .accSetFifoMode f) ∨ ∃ x, c = .accInit x)) ∨
      (r = 0x01#7 ∧ b = 0x00#8 ∧ c = .magGetFullScale)
    | .cacheUnset .sensAcc => (c = .accReadData ∨ c = .accGetSens) ∧ s.sensAcc = none
    | .cacheUnset .sensMag => (c = .magReadData ∨ c = .magGetSens) ∧ (s.sensMagXY = none ∨ s.sensMagZ = none)
    | .refused why => why = .badArgument ∧ ∃ i r, c = .readBurst i r 0#8

/-- 20_memory.md R59: what the register-file device answers: a read of one register, a burst, a write; it keeps every other register, and
writes only the register that bits 6:0 of the address byte name. That a write keeps the registers in canonical form is the model's
(log 6). -/
def Obligations.RegisterFileAnswers : Prop :=
  ∀ s i rf, (s.block i).device = .regFile rf → rf.reg.wf = true →
    (∀ r n, ∃ rf', SameRegs rf rf' ∧ rf'.ptr = r ∧ rf'.inc = false ∧
      Answers s i (readLog (s.block i).dev8 (0#1 ++ r) (List.replicate n (regOf rf r))) (.regFile rf') s.draws) ∧
    (∀ r n, ∃ rf', SameRegs rf rf' ∧ rf'.ptr = r ∧ rf'.inc = true ∧
      Answers s i (readLog (s.block i).dev8 (1#1 ++ r) ((List.range n).map fun k => regOf rf (r + BitVec.ofNat 7 k))) (.regFile rf') s.draws) ∧
    (∀ a v, ∃ rf', OnlyReg rf rf' (a.extractLsb' 0 7) v ∧ rf'.reg.wf = true ∧
      Answers s i (writeLog (s.block i).dev8 a v) (.regFile rf') s.draws)

/-! ### The register access helper -/

/-- 40_register_access.md R100 and R102: READ_REG returns the byte read, READ_REG_MASKED the byte under the mask; their words; their bus
errors. -/
def Obligations.ReadRegCommands : Prop :=
  ∀ s i r m, accepts s i = true →
    encode (.readReg i r) = commandWord 0x01#8 (0#1 ++ r) 0#8 0#8 ∧
    encode (.readRegMasked i r m) = commandWord 0x03#8 (0#1 ++ r) 0#8 m ∧
    EndsAfterByte (.readReg i r) s r (fun b => .ok (some (.byte b))) ∧
    EndsAfterByte (.readRegMasked i r m) s r (fun b => .ok (some (.byte (b &&& m))))

/-- 40_register_access.md R101: WRITE_REG writes the whole byte in one transaction; its word; its bus error. -/
def Obligations.WriteRegCommand : Prop :=
  ∀ s i r v, accepts s i = true →
    encode (.writeReg i r v) = commandWord 0x02#8 (0#1 ++ r) v 0#8 ∧
    (∀ dev k, Answers s i (writeLog (s.block i).dev8 (0#1 ++ r) v) dev k →
      exec (.writeReg i r v) s = .next (afterOk s i (writeLog (s.block i).dev8 (0#1 ++ r) v) dev k none)) ∧
    (∀ dev k, Answers s i [⟨.write (s.block i).dev8 [0#1 ++ r, v] false, .err, []⟩] dev k →
      exec (.writeReg i r v) s =
        .next (afterOutcome s i (.busError .write (0#1 ++ r)) [⟨.write (s.block i).dev8 [0#1 ++ r, v] false, .err, []⟩] dev k))

/-- 40_register_access.md R103: UPDATE_REG_MASKED reads, merges under the mask and writes; its word; its bus errors. -/
def Obligations.UpdateRegMaskedCommand : Prop :=
  ∀ s i r v m, accepts s i = true →
    encode (.updateRegMasked i r v m) = commandWord 0x04#8 (0#1 ++ r) v m ∧ EndsAfterUpdate (.updateRegMasked i r v m) s r v m id id

/-- 40_register_access.md R104: READ_BURST reads `n` bytes with the auto-increment bit set; its word; its bus errors. -/
def Obligations.ReadBurstCommand : Prop :=
  ∀ s i r (n : Byte), accepts s i = true → n ≠ 0#8 →
    encode (.readBurst i r n) = commandWord 0x05#8 (0#1 ++ r) n 0#8 ∧
    EndsAfterRead (.readBurst i r n) s (1#1 ++ r) n.toNat (fun bs => .ok (some (.bytes bs)))

/-- The model's choice (log 18): a burst of length 0, which no word decodes to, is refused as `BAD_ARGUMENT`. -/
def Obligations.EmptyBurstIsRefused : Prop :=
  ∀ s i r, accepts s i = true →
    exec (.readBurst i r 0#8) s = .next (afterOutcome s i (.refused .badArgument) [] (s.block i).device s.draws)

/-! ### The accelerometer codec -/

/-- 41_accel_codec.md R114 and 43_unit_lut.md R177: the code of the rate in `CTRL1`, one branch per field and mode, and its rate in
hertz; a pattern that is not in the enumeration is a fault. -/
def Obligations.AccOdrGetters : Prop :=
  ∀ s, accepts s .acc = true →
    let code : Byte → Option Byte := fun r =>
      let f := r.extractLsb' 4 4
      if f = 0 then some 0x00#8
      else if f.toNat ≤ 7 then some ((f.setWidth 8 <<< 4) ||| 0x03#8)
      else if f = 8 ∧ r.getLsbD 3 = true then some 0x82#8
      else if f = 9 ∧ r.getLsbD 3 = true then some 0x92#8
      else if f = 9 ∧ r.getLsbD 3 = false then some 0x91#8
      else none
    encode .accGetOdr = 0x12000000#32 ∧ encode .accGetOdrHz = 0x22000000#32 ∧
    EndsAfterByte .accGetOdr s s.params.regMap.accCtrl1 (fun r =>
      match code r with
      | some c => .ok (some (.code c))
      | none => .error (.unreachableDecode s.params.regMap.accCtrl1 r)) ∧
    EndsAfterByte .accGetOdrHz s s.params.regMap.accCtrl1 (fun r =>
      match (code r).bind accOdrOfCode with
      | some c => .ok (some (.float (accOdrHz s.params.accOdrHz c)))
      | none => .error (.unreachableDecode s.params.regMap.accCtrl1 r))

/-- 41_accel_codec.md R116, R118, R120, R122, R125, R129: the getters of one field; every pattern decodes. -/
def Obligations.AccFieldGetters : Prop :=
  ∀ s, accepts s .acc = true →
    let m := s.params.regMap
    (encode .accGetPowerMode = 0x14000000#32 ∧ encode .accGetFullScale = 0x16000000#32 ∧ encode .accGetHighRes = 0x18000000#32 ∧
      encode .accGetHpfMode = 0x1A000000#32 ∧ encode .accGetFifoWatermark = 0x1E000000#32 ∧ encode .accGetDrdyInt = 0x21000000#32) ∧
    EndsAfterByte .accGetPowerMode s m.accCtrl1 (fun r => .ok (some (.code (if r &&& m.accLpenMask ≠ 0#8 then 1#8 else 0#8)))) ∧
    EndsAfterByte .accGetFullScale s m.accCtrl4 (fun r => .ok (some (.code (((r &&& m.accFsMask).extractLsb' 4 2).setWidth 8)))) ∧
    EndsAfterByte .accGetHighRes s m.accCtrl4 (fun r => .ok (some (.bool (decide (r &&& m.accHrMask ≠ 0#8))))) ∧
    EndsAfterByte .accGetHpfMode s m.accCtrl2 (fun r =>
      .ok (some (.code (if r &&& m.accHpfEnMask = 0#8 then 0#8 else 1#8 + (r.extractLsb' 4 2).setWidth 8)))) ∧
    EndsAfterByte .accGetFifoWatermark s m.accFifoCtrl (fun r => .ok (some (.byte (r &&& m.accFthMask)))) ∧
    EndsAfterByte .accGetDrdyInt s m.accCtrl3 (fun r =>
      .ok (some (.bool (decide (r &&& (m.accIntDrdyMask ||| m.accIntWtmMask) ≠ 0#8)))))

/-- 41_accel_codec.md R127: the FIFO mode from two reads, the enable bit first; a mixed pair is a fault. -/
def Obligations.AccFifoModeGetter : Prop :=
  ∀ s e f dev k, accepts s .acc = true →
    let m := s.params.regMap
    let log := readLog s.acc.dev8 (0#1 ++ m.accCtrl5) [e] ++ readLog s.acc.dev8 (0#1 ++ m.accFifoCtrl) [f]
    Answers s .acc log dev k →
      exec .accGetFifoMode s = .next (ended s .acc
        (if e &&& m.accFifoEnMask = 0#8 ∧ f &&& m.accFmMask = m.accFmBypass then .ok (some (.code 0#8))
          else if e &&& m.accFifoEnMask = m.accFifoEnMask ∧ f &&& m.accFmMask = m.accFmStream then .ok (some (.code 1#8))
          else .error (.unreachableDecode m.accFifoCtrl (f &&& m.accFmMask))) log dev k)

/-- 41_accel_codec.md R115, R119, R121: the setters of one field; their words; their bus errors. -/
def Obligations.AccFieldSetters : Prop :=
  ∀ s pm e (c : BitVec 2), accepts s .acc = true →
    let m := s.params.regMap
    (encode (.accSetPowerMode pm) = commandWord 0x13#8 (powerModeCode pm) 0#8 0#8 ∧
      encode (.accSetHighRes e) = commandWord 0x17#8 (boolCode e) 0#8 0#8 ∧ encode (.accSetHpfMode .off) = 0x19000000#32 ∧
      encode (.accSetHpfMode (.cutoff c)) = commandWord 0x19#8 (1#8 + c.setWidth 8) 0#8 0#8) ∧
    EndsAfterUpdate (.accSetPowerMode pm) s m.accCtrl1 (powerModeCode pm <<< 3) m.accLpenMask id id ∧
    EndsAfterUpdate (.accSetHighRes e) s m.accCtrl4 (boolCode e <<< 3) m.accHrMask id id ∧
    EndsAfterUpdate (.accSetHpfMode .off) s m.accCtrl2 0x00#8 m.accHpfEnMask id id ∧
    EndsAfterUpdate (.accSetHpfMode (.cutoff c)) s m.accCtrl2 (m.accHpfEnMask ||| (c.setWidth 8 <<< 4))
      (m.accHpfEnMask ||| m.accHpcfMask) id id

/-- 41_accel_codec.md R117: the full-scale setter writes the field and then the cache; a failed write leaves the cache UNSET, a failed
read leaves it as it was. -/
def Obligations.AccSetFullScaleCommand : Prop :=
  ∀ s fs, accepts s .acc = true →
    encode (.accSetFullScale fs) = commandWord 0x15#8 (accFsCode fs) 0#8 0#8 ∧
    EndsAfterUpdate (.accSetFullScale fs) s s.params.regMap.accCtrl4 (accFsCode fs <<< 4) s.params.regMap.accFsMask
      (fun t => { t with sensAcc := some (accSens s.params.floatFmt fs) }) (fun t => { t with sensAcc := none })

/-- 41_accel_codec.md R128: a watermark above 31 is a fatal configuration error with no transaction; any other is written. -/
def Obligations.AccSetFifoWatermarkCommand : Prop :=
  ∀ s (w : Byte), accepts s .acc = true →
    encode (.accSetFifoWatermark w) = commandWord 0x1D#8 w 0#8 0#8 ∧
    (31 < w.toNat → exec (.accSetFifoWatermark w) s =
      .next (afterOutcome s .acc (.invalidConfig (.watermark w)) [] s.acc.device s.draws)) ∧
    (w.toNat ≤ 31 → EndsAfterUpdate (.accSetFifoWatermark w) s s.params.regMap.accFifoCtrl w s.params.regMap.accFthMask id id)

/-- 41_accel_codec.md R113: the rate setter, by the rate read, the power mode read and the validity of the code; `r1`, `r2` and `r3` are
the bytes that its reads of `CTRL1` return, which a device may change in between. -/
def Obligations.AccSetOdrCommand : Prop :=
  ∀ s c r1 r2 r3 drain dev k, accepts s .acc = true →
    let m := s.params.regMap
    let d8 := s.acc.dev8
    let read1 := readLog d8 (0#1 ++ m.accCtrl1) [r1]
    let read2 := readLog d8 (0#1 ++ m.accCtrl1) [r2]
    let pm : PowerMode := if r2 &&& m.accLpenMask ≠ 0#8 then .lowPower else .normal
    let write := updateLog d8 m.accCtrl1 r3 (merged r3 ((accOdrCode c &&& 0xF0#8) ||| m.accAxesMask) (m.accOdrMask ||| m.accAxesMask))
    (accOdrOfCtrl1 r1 = none → Answers s .acc read1 dev k →
      exec (.accSetOdr c) s = .next (afterOutcome s .acc (.unreachableDecode m.accCtrl1 r1) read1 dev k)) ∧
    (accOdrOfCtrl1 r1 = some c → Answers s .acc read1 dev k →
      exec (.accSetOdr c) s = .next (afterOk s .acc read1 dev k none)) ∧
    (∀ cur, accOdrOfCtrl1 r1 = some cur → cur ≠ c → c = .powerDown →
      let log := read1 ++ updateLog d8 m.accCtrl1 r3 (merged r3 0x00#8 m.accOdrMask)
      Answers s .acc log dev k → exec (.accSetOdr c) s = .next (afterOk s .acc log dev k none)) ∧
    (∀ cur, accOdrOfCtrl1 r1 = some cur → cur ≠ c → c ≠ .powerDown → odrValid c pm = false →
      Answers s .acc (read1 ++ read2) dev k →
      exec (.accSetOdr c) s = .next (afterOutcome s .acc (.invalidConfig (.odr c pm)) (read1 ++ read2) dev k)) ∧
    (∀ cur, accOdrOfCtrl1 r1 = some cur → cur ≠ c → c ≠ .powerDown → odrValid c pm = true → cur ≠ .powerDown →
      Answers s .acc (read1 ++ read2 ++ write) dev k →
      exec (.accSetOdr c) s = .next (afterOk s .acc (read1 ++ read2 ++ write) dev k none)) ∧
    (accOdrOfCtrl1 r1 = some .powerDown → c ≠ .powerDown → odrValid c pm = true → DrainLog m d8 drain →
      Answers s .acc (read1 ++ read2 ++ drain ++ write) dev k →
      exec (.accSetOdr c) s = .next (afterOk s .acc (read1 ++ read2 ++ drain ++ write) dev k none))

/-- 41_accel_codec.md R123, R124: enabling drains, reads the FIFO mode and writes both routing bits through one mask; disabling clears
both; undecodable FIFO fields are a fault. -/
def Obligations.AccSetDrdyIntCommand : Prop :=
  ∀ s, accepts s .acc = true →
    let m := s.params.regMap
    let d8 := s.acc.dev8
    EndsAfterUpdate (.accSetDrdyInt false) s m.accCtrl3 0x00#8 (m.accIntDrdyMask ||| m.accIntWtmMask) id id ∧
    (∀ log dev k, EnableLog m d8 log → Answers s .acc log dev k →
      exec (.accSetDrdyInt true) s = .next (afterOk s .acc log dev k none)) ∧
    (∀ drain e f dev k, DrainLog m d8 drain → fifoPair m e f = none →
      let log := drain ++ readLog d8 (0#1 ++ m.accCtrl5) [e] ++ readLog d8 (0#1 ++ m.accFifoCtrl) [f]
      Answers s .acc log dev k →
      exec (.accSetDrdyInt true) s =
        .next (afterOutcome s .acc (.unreachableDecode m.accFifoCtrl (f &&& m.accFmMask)) log dev k))

/-- 41_accel_codec.md R126: the enable bit, the mode field, and the routing again where a routing bit is set. -/
def Obligations.AccSetFifoModeCommand : Prop :=
  ∀ s f e fc q refresh dev k, accepts s .acc = true →
    let m := s.params.regMap
    let d8 := s.acc.dev8
    let writes := updateLog d8 m.accCtrl5 e (merged e (if f = .stream then m.accFifoEnMask else 0x00#8) m.accFifoEnMask) ++
      updateLog d8 m.accFifoCtrl fc (merged fc (if f = .stream then m.accFmStream else m.accFmBypass) m.accFmMask) ++
      readLog d8 (0#1 ++ m.accCtrl3) [q]
    (q &&& (m.accIntDrdyMask ||| m.accIntWtmMask) = 0#8 → Answers s .acc writes dev k →
      exec (.accSetFifoMode f) s = .next (afterOk s .acc writes dev k none)) ∧
    (q &&& (m.accIntDrdyMask ||| m.accIntWtmMask) ≠ 0#8 → EnableLog m d8 refresh → Answers s .acc (writes ++ refresh) dev k →
      exec (.accSetFifoMode f) s = .next (afterOk s .acc (writes ++ refresh) dev k none)) ∧
    (∀ drain e' f', q &&& (m.accIntDrdyMask ||| m.accIntWtmMask) ≠ 0#8 → DrainLog m d8 drain → fifoPair m e' f' = none →
      let log := writes ++ drain ++ readLog d8 (0#1 ++ m.accCtrl5) [e'] ++ readLog d8 (0#1 ++ m.accFifoCtrl) [f']
      Answers s .acc log dev k →
      exec (.accSetFifoMode f) s =
        .next (afterOutcome s .acc (.unreachableDecode m.accFifoCtrl (f' &&& m.accFmMask)) log dev k))

/-- 41_accel_codec.md R130: bypass, then the mode bits read before, as two masked updates. -/
def Obligations.AccClearFifoCommand : Prop :=
  ∀ s f o1 o2 dev k, accepts s .acc = true →
    let m := s.params.regMap
    let d8 := s.acc.dev8
    let log := readLog d8 (0#1 ++ m.accFifoCtrl) [f] ++ updateLog d8 m.accFifoCtrl o1 (merged o1 m.accFmBypass m.accFmMask) ++
      updateLog d8 m.accFifoCtrl o2 (merged o2 (f &&& m.accFmMask) m.accFmMask)
    Answers s .acc log dev k → exec .accClearFifo s = .next (afterOk s .acc log dev k none)

/-- 41_accel_codec.md R112 on the register-file device, with the default register map: the identity, the rate that decodes, and then
its transactions, and every register and the cache that init leaves. `c1` is `CTRL1` when init reaches its rate step: as found, in normal
mode. The canonical form of the registers is the model's (log 6). -/
def Obligations.AccInitCompletes : Prop :=
  ∀ s rf start cur, OnRegFile s .acc rf → s.params.regMap = defaultRegMap → paramsOk s.params = true → regOf rf 0x0F#7 = 0x33#8 →
    let c1 := regOf rf 0x20#7 &&& 0xF7#8
    accOdrOfCtrl1 c1 = some cur →
    let target := initTarget s.params start
    ∃ rf' log f, rf'.reg.wf = true ∧ AccInitLog s.params s.acc.dev8 start f log ∧
      exec (.accInit start) s =
        .next { afterOk s .acc log (.regFile rf') s.draws none with sensAcc := some (accSens s.params.floatFmt .g2) } ∧
      ∀ k, regOf rf' k =
        if k = 0x20#7 then
          if cur = target then c1 else if start then (accOdrCode target &&& 0xF0#8) ||| 0x07#8 else c1 &&& 0x0F#8
        else if k = 0x21#7 then regOf rf k &&& 0xF7#8
        else if k = 0x22#7 then regOf rf k &&& 0xEB#8
        else if k = 0x23#7 then (regOf rf k &&& 0xC7#8) ||| 0x08#8
        else if k = 0x24#7 then regOf rf k &&& 0x3F#8
        else if k = 0x2E#7 then regOf rf k &&& 0x20#8
        else regOf rf k

/-- 41_accel_codec.md R112, 60_exceptions.md R202: the transactions of init in their order, on any device, and how it ends: another
identity byte ends it after its one read; a failed write of the full scale leaves the cache UNSET; a rate that does not decode is a
fault; a readback other than the field of the target is a failed init. That the byte a failed readback records (60_exceptions.md R200, "the
byte seen") is the byte under `ACC_ODR_MASK` is the model's reading (log 15). Not stated here: a default rate that is not valid in the mode
read (log 26), a FIFO mode that does not decode, and the failed transactions other than that write, for which see
`Obligations.TransactionDiscipline`. -/
def Obligations.AccInitCommand : Prop :=
  ∀ s start dev k, accepts s .acc = true →
    let m := s.params.regMap
    let d8 := s.acc.dev8
    let withSens : State → State := fun t => { t with sensAcc := some (accSens s.params.floatFmt .g2) }
    (∀ b, b ≠ m.accIdValue → Answers s .acc (readLog d8 (0#1 ++ m.accIdAddr) [b]) dev k →
      exec (.accInit start) s =
        .next (afterOutcome s .acc (.initFailed .idMismatch m.accIdAddr b) (readLog d8 (0#1 ++ m.accIdAddr) [b]) dev k)) ∧
    (∀ first old, AccInitFirstLog m d8 first →
      let log := first ++ failedUpdateLog d8 m.accCtrl4 old (merged old 0x00#8 m.accFsMask) .err
      Answers s .acc log dev k →
      exec (.accInit start) s = .next { afterOutcome s .acc (.busError .write (0#1 ++ m.accCtrl4)) log dev k with sensAcc := none }) ∧
    (∀ middle r, AccInitMiddleLog m d8 middle → accOdrOfCtrl1 r = none →
      let log := middle ++ readLog d8 (0#1 ++ m.accCtrl1) [r]
      Answers s .acc log dev k →
      exec (.accInit start) s = .next (withSens (afterOutcome s .acc (.unreachableDecode m.accCtrl1 r) log dev k))) ∧
    (∀ f log, AccInitLog s.params d8 start f log → Answers s .acc log dev k →
      let seen := f &&& m.accOdrMask
      exec (.accInit start) s = .next (withSens
        (if seen = accOdrCode (initTarget s.params start) &&& 0xF0#8 then afterOk s .acc log dev k none
          else afterOutcome s .acc (.initFailed .readbackMismatch m.accCtrl1 seen) log dev k)))

/-! ### The magnetometer codec -/

/-- 42_mag_codec.md R152, R154, R156, R158 and 43_unit_lut.md R178: the getters; the mode by bit 1 of `MR` alone; a full-scale field of 0
is a fault. -/
def Obligations.MagFieldGetters : Prop :=
  ∀ s, accepts s .mag = true →
    let m := s.params.regMap
    (encode .magGetMode = 0x32000000#32 ∧ encode .magGetOdr = 0x34000000#32 ∧ encode .magGetFullScale = 0x36000000#32 ∧
      encode .magGetTempEn = 0x38000000#32 ∧ encode .magGetOdrHz = 0x39000000#32) ∧
    EndsAfterByte .magGetMode s m.magMr (fun r => .ok (some (.code (if r &&& 0x02#8 = 0#8 then 1#8 else 0#8)))) ∧
    EndsAfterByte .magGetOdr s m.magCra (fun r => .ok (some (.code (((r &&& m.magDoMask).extractLsb' 2 3).setWidth 8)))) ∧
    EndsAfterByte .magGetFullScale s m.magCrb (fun r =>
      if (r &&& m.magGnMask).extractLsb' 5 3 = 0#3 then .error (.unreachableDecode m.magCrb (r &&& m.magGnMask))
      else .ok (some (.code (((r &&& m.magGnMask).extractLsb' 5 3).setWidth 8)))) ∧
    EndsAfterByte .magGetTempEn s m.magCra (fun r => .ok (some (.bool (decide (r &&& m.magTempEnMask ≠ 0#8))))) ∧
    EndsAfterByte .magGetOdrHz s m.magCra (fun r =>
      .ok (some (.float (magOdrHz s.params.magOdrHz ((r &&& m.magDoMask).extractLsb' 2 3)))))

/-- 42_mag_codec.md R151, R153, R157: the setters of one field; enabling always writes 0, disabling the sleep pattern. -/
def Obligations.MagFieldSetters : Prop :=
  ∀ s e (d : BitVec 3), accepts s .mag = true →
    let m := s.params.regMap
    (encode (.magSetMode e) = commandWord 0x31#8 (boolCode e) 0#8 0#8 ∧ encode (.magSetOdr d) = commandWord 0x33#8 (d.setWidth 8) 0#8 0#8 ∧
      encode (.magSetTempEn e) = commandWord 0x37#8 (boolCode e) 0#8 0#8) ∧
    EndsAfterUpdate (.magSetMode true) s m.magMr 0x00#8 m.magMdMask id id ∧
    EndsAfterUpdate (.magSetMode false) s m.magMr s.params.magSleepPattern m.magMdMask id id ∧
    EndsAfterUpdate (.magSetOdr d) s m.magCra (d.setWidth 8 <<< 2) m.magDoMask id id ∧
    EndsAfterUpdate (.magSetTempEn e) s m.magCra (boolCode e <<< 7) m.magTempEnMask id id

/-- 42_mag_codec.md R155: the full-scale setter writes the field and then both caches; a failed write leaves both UNSET. -/
def Obligations.MagSetFullScaleCommand : Prop :=
  ∀ s g, accepts s .mag = true →
    encode (.magSetFullScale g) = commandWord 0x35#8 (magFsCode g) 0#8 0#8 ∧
    EndsAfterUpdate (.magSetFullScale g) s s.params.regMap.magCrb (magFsCode g <<< 5) s.params.regMap.magGnMask
      (fun t => { t with sensMagXY := some (magSens s.params.floatFmt s.params.magGains g).1, sensMagZ := some (magSens s.params.floatFmt s.params.magGains g).2 })
      (fun t => { t with sensMagXY := none, sensMagZ := none })

/-- 42_mag_codec.md R150: init reads the three identification registers in order and stops at the first that differs; then it sets the
temperature enable, the rate of 15 Hz, the range ±1.3 G and the mode; a failed write of the range leaves both caches UNSET. `o1` to `o4`
are the bytes its updates read. The code of 15 Hz is looked up in the table (log 17). -/
def Obligations.MagInitCommand : Prop :=
  ∀ s start o1 o2 o3 o4 b dev k, accepts s .mag = true →
    let m := s.params.regMap
    let d8 := s.mag.dev8
    let id1 := readLog d8 (0#1 ++ m.magIra) [0x48#8]
    let id2 := readLog d8 (0#1 ++ m.magIrb) [0x34#8]
    let id3 := readLog d8 (0#1 ++ m.magIrc) [0x33#8]
    let first := id1 ++ id2 ++ id3 ++ updateLog d8 m.magCra o1 (merged o1 0x80#8 m.magTempEnMask) ++
      updateLog d8 m.magCra o2 (merged o2 ((magOdr15Hz s.params.floatFmt s.params.magOdrHz).setWidth 8 <<< 2) m.magDoMask)
    let unscaled := first ++ failedUpdateLog d8 m.magCrb o3 (merged o3 0x20#8 m.magGnMask) .err
    let log := first ++ updateLog d8 m.magCrb o3 (merged o3 0x20#8 m.magGnMask) ++
      updateLog d8 m.magMr o4 (merged o4 (if start then 0x00#8 else s.params.magSleepPattern) m.magMdMask)
    (Answers s .mag log dev k →
      exec (.magInit start) s = .next { afterOk s .mag log dev k none with
        sensMagXY := some (magSens s.params.floatFmt s.params.magGains .g13).1,
        sensMagZ := some (magSens s.params.floatFmt s.params.magGains .g13).2 }) ∧
    (Answers s .mag unscaled dev k →
      exec (.magInit start) s = .next { afterOutcome s .mag (.busError .write (0#1 ++ m.magCrb)) unscaled dev k with
        sensMagXY := none, sensMagZ := none }) ∧
    (b ≠ 0x48#8 → Answers s .mag (readLog d8 (0#1 ++ m.magIra) [b]) dev k →
      exec (.magInit start) s =
        .next (afterOutcome s .mag (.initFailed .idMismatch m.magIra b) (readLog d8 (0#1 ++ m.magIra) [b]) dev k)) ∧
    (b ≠ 0x34#8 → Answers s .mag (id1 ++ readLog d8 (0#1 ++ m.magIrb) [b]) dev k →
      exec (.magInit start) s =
        .next (afterOutcome s .mag (.initFailed .idMismatch m.magIrb b) (id1 ++ readLog d8 (0#1 ++ m.magIrb) [b]) dev k)) ∧
    (b ≠ 0x33#8 → Answers s .mag (id1 ++ id2 ++ readLog d8 (0#1 ++ m.magIrc) [b]) dev k →
      exec (.magInit start) s =
        .next (afterOutcome s .mag (.initFailed .idMismatch m.magIrc b) (id1 ++ id2 ++ readLog d8 (0#1 ++ m.magIrc) [b]) dev k))

/-! ### The unit conversion tables -/

/-- 43_unit_lut.md R170 to R172, R176: the constants in the default format, for the default gain table. -/
def Obligations.SensitivityValues : Prop :=
  earthGravity binary32 = 0x411CE80A ∧ tempSens binary32 = 0x3D800000 ∧ tempOffset binary32 = 0x41A80000 ∧
  (accSens binary32 .g2 = 0x3C20AC13 ∧ accSens binary32 .g4 = 0x3CA0AC13 ∧ accSens binary32 .g8 = 0x3D20AC13 ∧ accSens binary32 .g16 = 0x3DF1021C) ∧
  magSens binary32 (defaultGains binary32) .g13 = (0x3A6E500F, 0x3A85BF37) ∧ magSens binary32 (defaultGains binary32) .g19 = (0x3A994CF3, 0x3AAC7692) ∧
  magSens binary32 (defaultGains binary32) .g25 = (0x3AC3A13E, 0x3ADA740E) ∧ magSens binary32 (defaultGains binary32) .g40 = (0x3B11A2B4, 0x3B23D70A) ∧
  magSens binary32 (defaultGains binary32) .g47 = (0x3B23D70A, 0x3B389BC3) ∧ magSens binary32 (defaultGains binary32) .g56 = (0x3B46980C, 0x3B5E27EB) ∧
  magSens binary32 (defaultGains binary32) .g81 = (0x3B8E7835, 0x3B9FD80A)

/-- 43_unit_lut.md R173, R174: the default rates in hertz in the default format, one branch per code, and the code of 15 Hz. -/
def Obligations.DefaultRates : Prop :=
  ([AccOdr.powerDown, .hz1, .hz10, .hz25, .hz50, .hz100, .hz200, .hz400, .hz1620LowPower, .hz1344Normal, .hz5376LowPower].map
      fun c => (accOdrCode c, accOdrHz (defaultAccOdrHz binary32) c)) =
    [(0x00#8, 0x00000000), (0x13#8, 0x3F800000), (0x23#8, 0x41200000), (0x33#8, 0x41C80000), (0x43#8, 0x42480000),
      (0x53#8, 0x42C80000), (0x63#8, 0x43480000), (0x73#8, 0x43C80000), (0x82#8, 0x44CA8000), (0x91#8, 0x44A80000),
      (0x92#8, 0x45A80000)] ∧
  ([0#3, 1#3, 2#3, 3#3, 4#3, 5#3, 6#3, 7#3].map fun d => magOdrHz (defaultMagOdrHz binary32) d) =
    [0x3F400000, 0x3FC00000, 0x40400000, 0x40F00000, 0x41700000, 0x41F00000, 0x42960000, 0x435C0000] ∧
  magOdr15Hz binary32 (defaultMagOdrHz binary32) = 4#3

/-- 43_unit_lut.md R180, R181: the sensitivity getters return the caches with no transaction; an UNSET cache is a fault. -/
def Obligations.SensGetters : Prop :=
  ∀ s, 
    (encode .accGetSens = 0x24000000#32 ∧ encode .magGetSens = 0x3A000000#32) ∧
    (accepts s .acc = true →
      (s.sensAcc = none → exec .accGetSens s = .next (afterOutcome s .acc (.cacheUnset .sensAcc) [] s.acc.device s.draws)) ∧
      ∀ v, s.sensAcc = some v → exec .accGetSens s = .next (afterOk s .acc [] s.acc.device s.draws (some (.float v)))) ∧
    (accepts s .mag = true →
      (s.sensMagXY = none ∨ s.sensMagZ = none →
        exec .magGetSens s = .next (afterOutcome s .mag (.cacheUnset .sensMag) [] s.mag.device s.draws)) ∧
      ∀ x z, s.sensMagXY = some x → s.sensMagZ = some z →
        exec .magGetSens s = .next (afterOk s .mag [] s.mag.device s.draws (some (.floats x x z))))

/-- 43_unit_lut.md R175, R179: the cutoff from the filter mode and then the rate; 0 where the filter is off; an undecodable rate is a
fault either way. At power-down, where the rate is +0, the cutoff is +0.0 with the filter on too (90_conflicts.md C8); that rests on the
sign of the logarithm (log 11) and on the format and pi being as `paramsOk` asks (log 10), and the rate is a premise because the table is
a parameter (log 27). -/
def Obligations.AccGetHpfCutoffCommand : Prop :=
  ∀ s r2 r1 dev k, accepts s .acc = true →
    let m := s.params.regMap
    let f := s.params.floatFmt
    let log := readLog s.acc.dev8 (0#1 ++ m.accCtrl2) [r2] ++ readLog s.acc.dev8 (0#1 ++ m.accCtrl1) [r1]
    Answers s .acc log dev k →
      (accOdrOfCtrl1 r1 = none → exec .accGetHpfCutoff s = .next (afterOutcome s .acc (.unreachableDecode m.accCtrl1 r1) log dev k)) ∧
      (∀ c, accOdrOfCtrl1 r1 = some c →
        exec .accGetHpfCutoff s = .next (afterOk s .acc log dev k (some (.float
          (if r2 &&& m.accHpfEnMask = 0#8 then 0
            else fdiv f (fmul f (fneg f (fln f (fsub f (fconst f 1 1) (fdiv f (fconst f 3 1)
                (fmul f (fconst f 25 1) (fofInt f ((2 : Int) ^ (r2.extractLsb' 4 2).toNat))))))) (accOdrHz s.params.accOdrHz c))
              (fmul f (fconst f 2 1) s.params.piValue)))))) ∧
      (accOdrOfCtrl1 r1 = some .powerDown → s.params.accOdrHz.powerDown = 0 → paramsOk s.params = true →
        exec .accGetHpfCutoff s = .next (afterOk s .acc log dev k (some (.float 0))))

/-- 43_unit_lut.md R182: the rounding, for every format and each rounding of it (log 10); the default is to nearest, ties to even. `x` is
the magnitude that `roundMagnitude` gives for `num / den` units, where it is finite. To nearest: no finite value is nearer, and where
another is as near, the even one is taken, respectively the larger one. Directed: it is the largest finite value that is not above, or
the smallest that is not below. -/
def Obligations.RoundingIsCorrect : Prop :=
  ∀ (f : FloatFmt) sign (num den : Nat), 1 ≤ f.fracBits → 0 < den → roundMagnitude f sign num den < infBits f →
    let bits := roundMagnitude f sign num den
    let off : Nat → Nat := fun b => ((num : Int) - magnitude f b * den).natAbs
    let down := f.rounding = .towardZero ∨ f.rounding = .towardPositive ∧ sign = true ∨ f.rounding = .towardNegative ∧ sign = false
    let up := f.rounding = .towardPositive ∧ sign = false ∨ f.rounding = .towardNegative ∧ sign = true
    ∀ b < infBits f,
      (f.rounding = .nearestEven → off bits ≤ off b ∧ (off bits = off b → b ≠ bits → bits % 2 = 0)) ∧
      (f.rounding = .nearestAway → off bits ≤ off b ∧ (off bits = off b → b ≤ bits)) ∧
      (down → magnitude f bits * den ≤ num ∧ (magnitude f b * den ≤ num → b ≤ bits)) ∧
      (up → num ≤ magnitude f bits * den ∧ (num ≤ magnitude f b * den → bits ≤ b))

/-! ### The sample decoder -/

/-- 44_sample_decode.md R190: the word decoders, as numbers: `sext_16` of a pair of bytes, and the floor of a sixteenth. -/
def Obligations.WordDecoders : Prop :=
  (∀ lo hi : Byte, le16 lo hi = (if hi.toNat < 128 then (256 * hi.toNat + lo.toNat : Int) else 256 * hi.toNat + lo.toNat - 65536) ∧
    be16 hi lo = le16 lo hi ∧ -32768 ≤ le16 lo hi ∧ le16 lo hi ≤ 32767) ∧
  ∀ w : Int, 16 * just12 w ≤ w ∧ w < 16 * just12 w + 16 ∧ (-32768 ≤ w → w ≤ 32767 → -2048 ≤ just12 w ∧ just12 w ≤ 2047)

/-- 44_sample_decode.md R191, R192: the accelerometer sample, low byte first, X, Y, Z, and its scaling by the cache; the cache is checked
before any transaction. -/
def Obligations.AccSamples : Prop :=
  ∀ s, accepts s .acc = true →
    let f := s.params.floatFmt
    let axis : List Byte → Nat → Int := fun b k => just12 (le16 (b.getD (2 * k) 0#8) (b.getD (2 * k + 1) 0#8))
    (encode .accReadData16 = 0x25000000#32 ∧ encode .accReadData = 0x26000000#32) ∧
    EndsAfterRead .accReadData16 s (1#1 ++ s.params.regMap.accOutXL) 6 (fun b => .ok (some (.ints (axis b 0) (axis b 1) (axis b 2)))) ∧
    (s.sensAcc = none → exec .accReadData s = .next (afterOutcome s .acc (.cacheUnset .sensAcc) [] s.acc.device s.draws)) ∧
    ∀ v, s.sensAcc = some v →
      EndsAfterRead .accReadData s (1#1 ++ s.params.regMap.accOutXL) 6 (fun b =>
        .ok (some (.floats (fmul f (fofInt f (axis b 0)) v) (fmul f (fofInt f (axis b 1)) v) (fmul f (fofInt f (axis b 2)) v))))

/-- 44_sample_decode.md R193, R194: the magnetometer sample, high byte first, in the order X, Z, Y, with no shift, and its scaling, X and Y
by one cache and Z by the other. -/
def Obligations.MagSamples : Prop :=
  ∀ s, accepts s .mag = true →
    let f := s.params.floatFmt
    let word : List Byte → Nat → Int := fun b k => be16 (b.getD (2 * k) 0#8) (b.getD (2 * k + 1) 0#8)
    (encode .magReadData16 = 0x3B000000#32 ∧ encode .magReadData = 0x3C000000#32) ∧
    EndsAfterRead .magReadData16 s (1#1 ++ s.params.regMap.magOutXH) 6 (fun b => .ok (some (.ints (word b 0) (word b 2) (word b 1)))) ∧
    (s.sensMagXY = none ∨ s.sensMagZ = none →
      exec .magReadData s = .next (afterOutcome s .mag (.cacheUnset .sensMag) [] s.mag.device s.draws)) ∧
    ∀ x z, s.sensMagXY = some x → s.sensMagZ = some z →
      EndsAfterRead .magReadData s (1#1 ++ s.params.regMap.magOutXH) 6 (fun b =>
        .ok (some (.floats (fmul f (fofInt f (word b 0)) x) (fmul f (fofInt f (word b 2)) x) (fmul f (fofInt f (word b 1)) z))))

/-- 44_sample_decode.md R195, R196, 43_unit_lut.md R176: the temperature word, high byte first and left-justified, and its conversion, the
scale first, by the constants 1/16 and 21, which are exact in the default format. -/
def Obligations.TemperatureSamples : Prop :=
  ∀ s, accepts s .mag = true →
    let f := s.params.floatFmt
    let t : List Byte → Int := fun b => just12 (be16 (b.getD 0 0#8) (b.getD 1 0#8))
    (encode .magReadTemp16 = 0x3D000000#32 ∧ encode .magReadTemp = 0x3E000000#32) ∧
    EndsAfterRead .magReadTemp16 s (1#1 ++ s.params.regMap.magTempH) 2 (fun b => .ok (some (.int (t b)))) ∧
    EndsAfterRead .magReadTemp s (1#1 ++ s.params.regMap.magTempH) 2 (fun b =>
      .ok (some (.float (fadd f (fmul f (fofInt f (t b)) (fconst f 1 16)) (fconst f 21 1))))) ∧
    fconst binary32 1 16 = 0x3D800000 ∧ fconst binary32 21 1 = 0x41A80000

/-- 44_sample_decode.md R196: in the default format the temperature is exact, a multiple of 1/16 in [-107, 148.9375]: 16 times it is
`t + 336`, in units of 2^-149. -/
def Obligations.TemperatureIsExact : Prop :=
  ∀ t : Int, -2048 ≤ t → t ≤ 2047 →
    isNaN binary32 (tempCelsius binary32 t) = false ∧ isInf binary32 (tempCelsius binary32 t) = false ∧
      signedMagnitude binary32 (tempCelsius binary32 t) * 16 = (t + 336) * 2 ^ 149

/-! ### Laws over more than one command, on the register-file device with the default register map -/

/-- 41_accel_codec.md R132: after any accelerometer setter that ended with `OK`, its getter returns the setter's argument. -/
def Obligations.AccRoundTrip : Prop :=
  ∀ c g d s rf t, c.target = .acc → getterOf c = some (g, d) → OnRegFile s .acc rf → s.params.regMap = defaultRegMap →
    exec c s = .next t → t.acc.status = some .ok →
    ∃ u, exec g t = .next u ∧ u.acc.status = some .ok ∧ u.acc.result = some d

/-- The same for the magnetometer, with a sleep pattern that has bit 1 set (92_eei_decisions.md D20); its setters always end with `OK` on
this device. -/
def Obligations.MagRoundTrip : Prop :=
  ∀ c g d s rf, c.target = .mag → getterOf c = some (g, d) → OnRegFile s .mag rf → s.params.regMap = defaultRegMap →
    s.params.magSleepPattern.getLsbD 1 = true →
    ∃ t u, exec c s = .next t ∧ t.mag.status = some .ok ∧ exec g t = .next u ∧ u.mag.status = some .ok ∧ u.mag.result = some d

/-- 70_reset_and_hazards.md R233: a second init leaves the registers, the caches and STATUS as the first left them; the history grows. -/
def Obligations.InitIdempotent : Prop :=
  (∀ s rf start t, OnRegFile s .acc rf → s.params.regMap = defaultRegMap → paramsOk s.params = true →
    exec (.accInit start) s = .next t → accepts t .acc = true →
    ∃ u rf1 rf2, exec (.accInit start) t = .next u ∧ t.acc.device = .regFile rf1 ∧ u.acc.device = .regFile rf2 ∧ SameRegs rf1 rf2 ∧
      u.sensAcc = t.sensAcc ∧ u.acc.status = t.acc.status) ∧
  (∀ s rf start t, OnRegFile s .mag rf → s.params.regMap = defaultRegMap → exec (.magInit start) s = .next t →
    ∃ u rf1 rf2, exec (.magInit start) t = .next u ∧ t.mag.device = .regFile rf1 ∧ u.mag.device = .regFile rf2 ∧ SameRegs rf1 rf2 ∧
      u.sensMagXY = t.sensMagXY ∧ u.sensMagZ = t.sensMagZ ∧ u.mag.status = t.mag.status)

end Slice0Statements
end

