-- ==== Sys2Proof/Laws/State.lean ====
section
/-! SUPPORT. The small lemmas of the state: one per field and update, so that no proof unfolds a record update. -/

namespace Sys2Proof.Machine

variable (s : State) (i : InstanceId) (b : Block)

@[simp] theorem block_acc : s.block .acc = s.acc := rfl
@[simp] theorem block_mag : s.block .mag = s.mag := rfl
@[simp] theorem setBlock_acc : s.setBlock .acc b = { s with acc := b } := rfl
@[simp] theorem setBlock_mag : s.setBlock .mag b = { s with mag := b } := rfl

theorem block_setBlock : (s.setBlock i b).block i = b := by cases i <;> rfl
theorem block_setBlock_ne {j : InstanceId} (h : j ≠ i) : (s.setBlock i b).block j = s.block j := by
  cases i <;> cases j <;> first | rfl | exact absurd rfl h
theorem setBlock_setBlock (c : Block) : (s.setBlock i b).setBlock i c = s.setBlock i c := by cases i <;> rfl
theorem setBlock_block : s.setBlock i (s.block i) = s := by cases i <;> rfl
theorem setBlock_params : (s.setBlock i b).params = s.params := by cases i <;> rfl
theorem setBlock_sensAcc : (s.setBlock i b).sensAcc = s.sensAcc := by cases i <;> rfl
theorem setBlock_sensMagXY : (s.setBlock i b).sensMagXY = s.sensMagXY := by cases i <;> rfl
theorem setBlock_sensMagZ : (s.setBlock i b).sensMagZ = s.sensMagZ := by cases i <;> rfl
theorem setBlock_draws : (s.setBlock i b).draws = s.draws := by cases i <;> rfl
theorem setBlock_pending : (s.setBlock i b).pending = s.pending := by cases i <;> rfl

/-! ### A recorded transaction -/

variable (req : BusRequest) (r : Response)

theorem recorded_block : (recorded i req r s).block i =
    { s.block i with history := (s.block i).history ++ [⟨req, r.status, r.data⟩], device := r.device } := by cases i <;> rfl
theorem recorded_block_ne {j : InstanceId} (h : j ≠ i) : (recorded i req r s).block j = s.block j := by
  cases i <;> cases j <;> first | rfl | exact absurd rfl h
@[simp] theorem recorded_params : (recorded i req r s).params = s.params := by cases i <;> rfl
@[simp] theorem recorded_sensAcc : (recorded i req r s).sensAcc = s.sensAcc := by cases i <;> rfl
@[simp] theorem recorded_sensMagXY : (recorded i req r s).sensMagXY = s.sensMagXY := by cases i <;> rfl
@[simp] theorem recorded_sensMagZ : (recorded i req r s).sensMagZ = s.sensMagZ := by cases i <;> rfl
@[simp] theorem recorded_draws : (recorded i req r s).draws = r.draws := by cases i <;> rfl
@[simp] theorem recorded_pending : (recorded i req r s).pending = s.pending := by cases i <;> rfl

/-! ### The end of a command -/

variable (d : Option ResultData) (o : Status)

theorem endOk_block : (endOk i d s).block i = { s.block i with status := some .ok, result := d } := by cases i <;> rfl
theorem endOk_block_ne {j : InstanceId} (h : j ≠ i) : (endOk i d s).block j = s.block j := by
  cases i <;> cases j <;> first | rfl | exact absurd rfl h
@[simp] theorem endOk_params : (endOk i d s).params = s.params := by cases i <;> rfl
@[simp] theorem endOk_sensAcc : (endOk i d s).sensAcc = s.sensAcc := by cases i <;> rfl
@[simp] theorem endOk_sensMagXY : (endOk i d s).sensMagXY = s.sensMagXY := by cases i <;> rfl
@[simp] theorem endOk_sensMagZ : (endOk i d s).sensMagZ = s.sensMagZ := by cases i <;> rfl
@[simp] theorem endOk_draws : (endOk i d s).draws = s.draws := by cases i <;> rfl
@[simp] theorem endOk_pending : (endOk i d s).pending = s.pending := by cases i <;> rfl

theorem takeOutcome_block : (takeOutcome i o s).block i =
    { s.block i with status := some o, result := none, faulted := (s.block i).faulted || isFatal o,
                     refused := (s.block i).refused || isRefusal o } := by cases i <;> rfl
theorem takeOutcome_block_ne {j : InstanceId} (h : j ≠ i) : (takeOutcome i o s).block j = s.block j := by
  cases i <;> cases j <;> first | rfl | exact absurd rfl h
@[simp] theorem takeOutcome_params : (takeOutcome i o s).params = s.params := by cases i <;> rfl
@[simp] theorem takeOutcome_sensAcc : (takeOutcome i o s).sensAcc = s.sensAcc := by cases i <;> rfl
@[simp] theorem takeOutcome_sensMagXY : (takeOutcome i o s).sensMagXY = s.sensMagXY := by cases i <;> rfl
@[simp] theorem takeOutcome_sensMagZ : (takeOutcome i o s).sensMagZ = s.sensMagZ := by cases i <;> rfl
@[simp] theorem takeOutcome_draws : (takeOutcome i o s).draws = s.draws := by cases i <;> rfl
@[simp] theorem takeOutcome_pending : (takeOutcome i o s).pending = s.pending := by cases i <;> rfl

theorem hangUp_block : (hangUp i s).block i = { s.block i with hung := true } := by cases i <;> rfl
theorem hangUp_block_ne {j : InstanceId} (h : j ≠ i) : (hangUp i s).block j = s.block j := by
  cases i <;> cases j <;> first | rfl | exact absurd rfl h
@[simp] theorem hangUp_params : (hangUp i s).params = s.params := by cases i <;> rfl
@[simp] theorem hangUp_sensAcc : (hangUp i s).sensAcc = s.sensAcc := by cases i <;> rfl
@[simp] theorem hangUp_sensMagXY : (hangUp i s).sensMagXY = s.sensMagXY := by cases i <;> rfl
@[simp] theorem hangUp_sensMagZ : (hangUp i s).sensMagZ = s.sensMagZ := by cases i <;> rfl
@[simp] theorem hangUp_draws : (hangUp i s).draws = s.draws := by cases i <;> rfl
@[simp] theorem hangUp_pending : (hangUp i s).pending = s.pending := by cases i <;> rfl

@[simp] theorem unsetSensAcc_sensAcc : (unsetSensAcc s).sensAcc = none := rfl
@[simp] theorem unsetSensAcc_block : (unsetSensAcc s).block i = s.block i := by cases i <;> rfl
@[simp] theorem unsetSensMag_sensMagXY : (unsetSensMag s).sensMagXY = none := rfl
@[simp] theorem unsetSensMag_sensMagZ : (unsetSensMag s).sensMagZ = none := rfl
@[simp] theorem unsetSensMag_block : (unsetSensMag s).block i = s.block i := by cases i <;> rfl

end Sys2Proof.Machine
end

