-- ==== Sys2Proof/Laws/Memory.lean ====
section
/-! SUPPORT. The laws of the registers of the register-file device: a write is read back, leaves every other register alone, and keeps
the canonical form. -/

namespace Sys2Proof.Machine

theorem wfFrom_mono {lo lo' : Nat} (h : lo' ≤ lo) : ∀ {m : Memory}, m.wfFrom lo = true → m.wfFrom lo' = true
  | [], _ => rfl
  | (k, v) :: rest, hm => by
    simp only [Memory.wfFrom, Bool.and_eq_true, decide_eq_true_eq] at hm ⊢
    exact ⟨⟨⟨h.trans hm.1.1.1, hm.1.1.2⟩, hm.1.2⟩, hm.2⟩

/-- A register below every listed one reads as unlisted. -/
theorem read_below {a lo : Nat} (h : a < lo) : ∀ {m : Memory}, m.wfFrom lo = true → m.read a = unlistedByte
  | [], _ => rfl
  | (k, v) :: rest, hm => by
    simp only [Memory.wfFrom, Bool.and_eq_true, decide_eq_true_eq] at hm
    have hk : k ≠ a := by omega
    simp only [Memory.read, hk, if_false]
    exact read_below (by omega) hm.2

theorem write_wfFrom {a lo : Nat} (b : Byte) (ha : a < 128) (hlo : lo ≤ a) :
    ∀ {m : Memory}, m.wfFrom lo = true → (m.write a b).wfFrom lo = true
  | [], _ => by
    by_cases hb : b = unlistedByte <;> simp [Memory.write, Memory.wfFrom, hb, ha, hlo]
  | (k, v) :: rest, hm => by
    simp only [Memory.wfFrom, Bool.and_eq_true, decide_eq_true_eq] at hm
    obtain ⟨⟨⟨h1, h2⟩, h3⟩, h4⟩ := hm
    by_cases hlt : a < k
    · by_cases hb : b = unlistedByte <;>
        simp [Memory.write, Memory.wfFrom, hlt, hb, h1, h2, h3, h4, ha, hlo, Nat.succ_le_of_lt hlt]
    · by_cases heq : a = k
      · subst heq
        by_cases hb : b = unlistedByte
        · simpa [Memory.write, hb] using wfFrom_mono (by omega) h4
        · simp [Memory.write, Memory.wfFrom, hb, h1, h2, h4]
      · have := write_wfFrom b ha (show k + 1 ≤ a by omega) h4
        simp [Memory.write, Memory.wfFrom, hlt, heq, h1, h2, h3, this]

/-- A write keeps the canonical form. -/
theorem write_wf {m : Memory} {a : Nat} (b : Byte) (ha : a < 128) (h : m.wf = true) : (m.write a b).wf = true :=
  write_wfFrom b ha (Nat.zero_le a) h

theorem read_writeFrom {a c lo : Nat} (b : Byte) :
    ∀ {m : Memory}, m.wfFrom lo = true → (m.write a b).read c = if c = a then b else m.read c
  | [], _ => by
    have hac : (a = c) = (c = a) := propext eq_comm
    by_cases hb : b = unlistedByte <;> by_cases hc : c = a <;> simp [Memory.write, Memory.read, hb, hac, hc]
  | (k, v) :: rest, hm => by
    have hac : (a = c) = (c = a) := propext eq_comm
    simp only [Memory.wfFrom, Bool.and_eq_true, decide_eq_true_eq] at hm
    obtain ⟨⟨⟨h1, h2⟩, h3⟩, h4⟩ := hm
    by_cases hlt : a < k
    · by_cases hb : b = unlistedByte
      · by_cases hc : c = a
        · subst hc
          have hk : k ≠ c := by omega
          simp [Memory.write, Memory.read, hlt, hb, hk, read_below (show c < k + 1 by omega) h4]
        · simp [Memory.write, hlt, hb, hc]
      · by_cases hc : c = a
        · simp [Memory.write, Memory.read, hlt, hb, hc]
        · simp [Memory.write, Memory.read, hlt, hb, hc, Ne.symm hc]
    · by_cases heq : a = k
      · subst heq
        by_cases hb : b = unlistedByte
        · by_cases hc : c = a
          · subst hc
            simp [Memory.write, hb, read_below (Nat.lt_succ_self c) h4]
          · simp [Memory.write, Memory.read, hb, hc, Ne.symm hc]
        · by_cases hc : c = a <;> simp [Memory.write, Memory.read, hb, hac, hc]
      · have ih := read_writeFrom (a := a) (c := c) b h4
        by_cases hkc : k = c
        · subst hkc
          simp [Memory.write, Memory.read, hlt, heq, Ne.symm heq]
        · simp [Memory.write, Memory.read, hlt, heq, hkc, ih]

/-- A read after a write: the byte written at that register, and what was there at every other. -/
theorem read_write {m : Memory} (h : m.wf = true) (a c : Nat) (b : Byte) :
    (m.write a b).read c = if c = a then b else m.read c := read_writeFrom b h

/-- The register-file device keeps the canonical form of its registers. -/
theorem regFileRespond_wf {rf : RegFile} (h : rf.reg.wf = true) (req : BusRequest) :
    (regFileRespond rf req).2.reg.wf = true := by
  unfold regFileRespond
  split <;> first | exact h | exact write_wf _ (addrIndex _).isLt h

end Sys2Proof.Machine
end

