-- ==== Sys2Proof/Laws/Ops.lean ====
section
/-! SUPPORT. What each shared operation can do, said once: on any device (the `_cases` lemmas) and on the register-file device (the
`_regFile` lemmas). -/

namespace Sys2Proof.Machine

/-! ### Sequencing -/

variable {α β : Type}

theorem op_pure (a : α) (s : State) : (pure a : Op α) s = .ok a s := rfl

theorem raise_apply (o : Status) (s : State) : (raise o : Op α) s = .error (.outcome o) s := rfl

theorem op_bind (op : Op α) (f : α → Op β) (s : State) :
    (op >>= f) s = match op s with
      | .ok a t => f a t
      | .error e t => .error e t := by
  show EStateM.bind op f s = _
  unfold EStateM.bind
  cases op s <;> rfl

theorem op_bind_ok {op : Op α} {f : α → Op β} {s t : State} {a : α} (h : op s = .ok a t) : (op >>= f) s = f a t := by
  rw [op_bind, h]

theorem op_bind_error {op : Op α} {f : α → Op β} {s t : State} {e : Ending} (h : op s = .error e t) :
    (op >>= f) s = .error e t := by
  rw [op_bind, h]

theorem op_get_bind (f : State → Op β) (s : State) : (get >>= f) s = f s s := rfl

theorem op_modify (f : State → State) (s : State) : (modify f : Op PUnit) s = .ok ⟨⟩ (f s) := rfl

/-! ### One transaction -/

/-- The three ways a transaction can end: it is recorded in each, and only the last two end the command. -/
theorem transact_cases (i : InstanceId) (req : BusRequest) (dir : Dir) (a : Byte) (s : State) :
    ∃ r, r = respond (s.block i).device s.draws (s.block i).history req ∧
      ((r.status = .ok ∧ transact i req dir a s = .ok r.data (recorded i req r s)) ∨
        (r.status = .err ∧ transact i req dir a s = .error (.outcome (.busError dir a)) (recorded i req r s)) ∨
        (r.status = .hang ∧ transact i req dir a s = .error .hang (recorded i req r s))) := by
  refine ⟨_, rfl, ?_⟩
  rcases h : (respond (s.block i).device s.draws (s.block i).history req).status with _ | _ | _ <;> simp [transact, h]

/-- A read answered `ok` returns as many bytes as it asks for. -/
theorem respond_read_length (dev : Device) (draw : Nat) (history : List Transaction) (d : Byte) (n : Nat)
    (h : (respond dev draw history (.read d n)).status = .ok) :
    (respond dev draw history (.read d n)).data.length = n := by
  unfold respond at h ⊢
  split at h <;> simp_all [oracleResponse, oracleBytes, regFileRespond, regFileBytes]

/-- A response carries bytes only when its status is `ok` (20_memory.md R43). -/
theorem respond_data_of_ne_ok (dev : Device) (draw : Nat) (history : List Transaction) (req : BusRequest)
    (h : (respond dev draw history req).status ≠ .ok) : (respond dev draw history req).data = [] := by
  unfold respond at h ⊢
  split at h <;> simp_all [oracleResponse]

/-- A write returns no bytes. -/
theorem respond_write_data (dev : Device) (draw : Nat) (history : List Transaction) (d : Byte) (bs : List Byte) (ns : Bool) :
    (respond dev draw history (.write d bs ns)).data = [] := by
  unfold respond
  split
  · simp [oracleResponse, oracleBytes]
  · simp [oracleResponse, oracleBytes]
  · simp only [regFileRespond]
    split <;> simp_all

theorem recorded_dev8 (i : InstanceId) (req : BusRequest) (r : Response) (s : State) :
    ((recorded i req r s).block i).dev8 = (s.block i).dev8 := by
  rw [recorded_block]; rfl

/-- `MemRead` answers as many bytes as it asks for (20_memory.md R45). -/
theorem memRead_length {i : InstanceId} {a : Byte} {n : Nat} {s t : State} {bs : List Byte}
    (h : memRead i a n s = .ok bs t) : bs.length = n := by
  unfold memRead at h
  rw [op_get_bind] at h
  obtain ⟨r, hr, ⟨_, h1⟩ | ⟨_, h1⟩ | ⟨_, h1⟩⟩ := transact_cases i (.write (s.block i).dev8 [a] true) .write a s
  · rw [op_bind_ok h1] at h
    obtain ⟨r', hr', ⟨hs, h2⟩ | ⟨_, h2⟩ | ⟨_, h2⟩⟩ :=
      transact_cases i (.read (s.block i).dev8 n) .read a (recorded i (.write (s.block i).dev8 [a] true) r s)
    · rw [h2] at h
      cases h
      subst hr'
      exact respond_read_length _ _ _ _ _ hs
    · rw [h2] at h; cases h
    · rw [h2] at h; cases h
  · rw [op_bind_error h1] at h; cases h
  · rw [op_bind_error h1] at h; cases h

/-! ### The register-file device -/

/-- `s` with `log` appended to the history of instance `i` and `rf` as its device: what transactions on the register-file device do. -/
def afterLog (s : State) (i : InstanceId) (log : List Transaction) (rf : RegFile) : State :=
  s.setBlock i { s.block i with history := (s.block i).history ++ log, device := .regFile rf }

/-- The register-file device after a read of register `r`. -/
def RegFile.pointed (rf : RegFile) (r : RegIdx) (inc : Bool) : RegFile := { rf with ptr := r, inc := inc }

/-- The register-file device after a write of register `r`. -/
def RegFile.written (rf : RegFile) (r : RegIdx) (v : Byte) : RegFile := { rf with reg := rf.reg.write r.toNat v }

section
variable (s : State) (i j : InstanceId) (log log' : List Transaction) (rf rf' : RegFile)

@[simp] theorem afterLog_device : ((afterLog s i log rf).block i).device = .regFile rf := by cases i <;> rfl
@[simp] theorem afterLog_dev8 : ((afterLog s i log rf).block j).dev8 = (s.block j).dev8 := by cases i <;> cases j <;> rfl
@[simp] theorem afterLog_params : (afterLog s i log rf).params = s.params := by cases i <;> rfl
@[simp] theorem afterLog_sensAcc : (afterLog s i log rf).sensAcc = s.sensAcc := by cases i <;> rfl
@[simp] theorem afterLog_sensMagXY : (afterLog s i log rf).sensMagXY = s.sensMagXY := by cases i <;> rfl
@[simp] theorem afterLog_sensMagZ : (afterLog s i log rf).sensMagZ = s.sensMagZ := by cases i <;> rfl
@[simp] theorem afterLog_afterLog :
    afterLog (afterLog s i log rf) i log' rf' = afterLog s i (log ++ log') rf' := by cases i <;> simp [afterLog, State.setBlock, State.block]
theorem endOk_afterLog (d : Option ResultData) : endOk i d (afterLog s i log rf) = afterOk s i log (.regFile rf) s.draws d := by cases i <;> rfl
theorem takeOutcome_afterLog (o : Status) :
    takeOutcome i o (afterLog s i log rf) = afterOutcome s i o log (.regFile rf) s.draws := by cases i <;> rfl
theorem afterLog_nil (h : (s.block i).device = .regFile rf) : afterLog s i [] rf = s := by
  have hb : { s.block i with history := (s.block i).history ++ [], device := Device.regFile rf } = s.block i := by
    rw [← h, List.append_nil]
  unfold afterLog
  rw [hb, setBlock_block]

end

@[simp] theorem pointed_reg (rf : RegFile) (r : RegIdx) (b : Bool) : (rf.pointed r b).reg = rf.reg := rfl
@[simp] theorem written_ptr (rf : RegFile) (r : RegIdx) (v : Byte) : (rf.written r v).ptr = rf.ptr := rfl
@[simp] theorem written_inc (rf : RegFile) (r : RegIdx) (v : Byte) : (rf.written r v).inc = rf.inc := rfl
@[simp] theorem regOf_pointed (rf : RegFile) (r k : RegIdx) (b : Bool) : regOf (rf.pointed r b) k = regOf rf k := rfl

theorem written_wf {rf : RegFile} (h : rf.reg.wf = true) (r : RegIdx) (v : Byte) : (rf.written r v).reg.wf = true :=
  write_wf v r.isLt h

theorem regOf_written {rf : RegFile} (h : rf.reg.wf = true) (r k : RegIdx) (v : Byte) :
    regOf (rf.written r v) k = if k = r then v else regOf rf k := by
  simp only [regOf, RegFile.written, read_write h, BitVec.toNat_inj]

theorem addrIndex_single (r : RegIdx) : addrIndex (singleAddr r) = r := by
  revert r; decide

theorem addrInc_single (r : RegIdx) : addrInc (singleAddr r) = false := by
  revert r; decide

theorem addrIndex_burst (r : RegIdx) : addrIndex (burstAddr r) = r := by
  revert r; decide

theorem addrInc_burst (r : RegIdx) : addrInc (burstAddr r) = true := by
  revert r; decide

section
variable {s : State} {i : InstanceId} {rf : RegFile}

theorem transact_regFile (h : (s.block i).device = .regFile rf) (req : BusRequest) (dir : Dir) (a : Byte) :
    transact i req dir a s =
      .ok (regFileRespond rf req).1 (afterLog s i [⟨req, .ok, (regFileRespond rf req).1⟩] (regFileRespond rf req).2) := by
  cases i <;> simp_all [transact, respond, recorded, afterLog, State.block, State.setBlock]

theorem memRead_regFile (h : (s.block i).device = .regFile rf) (a : Byte) (n : Nat) :
    memRead i a n s = .ok (regFileBytes (rf.pointed (addrIndex a) (addrInc a)) n)
      (afterLog s i (readLog (s.block i).dev8 a (regFileBytes (rf.pointed (addrIndex a) (addrInc a)) n))
        (rf.pointed (addrIndex a) (addrInc a))) := by
  unfold memRead
  rw [op_get_bind, op_bind_ok (transact_regFile h _ _ _), transact_regFile (afterLog_device ..)]
  simp [regFileRespond, readLog, RegFile.pointed, regFileBytes]

/-- A register read on the register-file device. -/
theorem readReg_regFile (h : (s.block i).device = .regFile rf) (r : RegIdx) :
    readReg i r s = .ok (regOf rf r)
      (afterLog s i (readLog (s.block i).dev8 (singleAddr r) [regOf rf r]) (rf.pointed r false)) := by
  have hb : regFileBytes (rf.pointed (addrIndex (singleAddr r)) (addrInc (singleAddr r))) 1 = [regOf rf r] := by
    have := r.isLt
    rw [addrIndex_single, addrInc_single]
    simp [regFileBytes, RegFile.pointed, regOf, Nat.mod_eq_of_lt this]
  unfold readReg
  rw [op_bind_ok (memRead_regFile h _ _), hb, addrIndex_single, addrInc_single]
  rfl

/-- A register write on the register-file device. -/
theorem writeReg_regFile (h : (s.block i).device = .regFile rf) (r : RegIdx) (v : Byte) :
    writeReg i r v s = .ok () (afterLog s i (writeLog (s.block i).dev8 (singleAddr r) v) (rf.written r v)) := by
  unfold writeReg memWrite
  rw [op_get_bind, op_bind_ok (transact_regFile h _ _ _)]
  simp [regFileRespond, writeLog, RegFile.written, addrIndex_single, op_pure]

/-- A masked read on the register-file device. -/
theorem readRegMasked_regFile (h : (s.block i).device = .regFile rf) (r : RegIdx) (m : Byte) :
    readRegMasked i r m s = .ok (regOf rf r &&& m)
      (afterLog s i (readLog (s.block i).dev8 (singleAddr r) [regOf rf r]) (rf.pointed r false)) := by
  unfold readRegMasked
  rw [op_bind_ok (readReg_regFile h r)]
  rfl

/-- A masked update on the register-file device, where the action on a write error plays no part. -/
theorem updateRegMaskedElse_regFile (h : (s.block i).device = .regFile rf) (r : RegIdx) (v m : Byte) (f : State → State) :
    updateRegMaskedElse i r v m f s = .ok ()
      (afterLog s i (updateLog (s.block i).dev8 r (regOf rf r) (mergeMasked (regOf rf r) v m))
        ((rf.pointed r false).written r (mergeMasked (regOf rf r) v m))) := by
  unfold updateRegMaskedElse
  rw [op_bind_ok (readReg_regFile h r)]
  unfold onOutcome
  rw [writeReg_regFile (afterLog_device ..)]
  simp [updateLog, singleAddr]

theorem updateRegMasked_regFile (h : (s.block i).device = .regFile rf) (r : RegIdx) (v m : Byte) :
    updateRegMasked i r v m s = .ok ()
      (afterLog s i (updateLog (s.block i).dev8 r (regOf rf r) (mergeMasked (regOf rf r) v m))
        ((rf.pointed r false).written r (mergeMasked (regOf rf r) v m))) :=
  updateRegMaskedElse_regFile h r v m id

/-- A burst read on the register-file device: consecutive registers, the index mod 128. -/
theorem readBurst_regFile (h : (s.block i).device = .regFile rf) (r : RegIdx) (n : Nat) :
    readBurst i r n s = .ok ((List.range n).map fun k => regOf rf (r + BitVec.ofNat 7 k))
      (afterLog s i (readLog (s.block i).dev8 (burstAddr r) ((List.range n).map fun k => regOf rf (r + BitVec.ofNat 7 k)))
        (rf.pointed r true)) := by
  have hb : regFileBytes (rf.pointed (addrIndex (burstAddr r)) (addrInc (burstAddr r))) n =
      (List.range n).map fun k => regOf rf (r + BitVec.ofNat 7 k) := by
    rw [addrIndex_burst, addrInc_burst]
    apply List.map_congr_left
    intro k _
    simp [RegFile.pointed, regOf, BitVec.toNat_add]
  unfold readBurst
  rw [memRead_regFile h, hb, addrIndex_burst, addrInc_burst]

end

/-! ### The frame of a command -/

/-- A command on an instance that accepts one: it ends in the state `finish` gives. -/
theorem runCommand_of_accepts {i : InstanceId} {s : State} (h : accepts s i = true) (op : Op (Option ResultData)) :
    runCommand i op s = .next (finish i (op s)) := by
  unfold runCommand
  unfold accepts at h
  rw [Option.isNone_iff_eq_none] at h
  rw [h]

/-- A command on an instance with no further step. -/
theorem runCommand_of_stuck {i : InstanceId} {s : State} {why : StuckReason} (h : stuckReason (s.block i) = some why)
    (op : Op (Option ResultData)) : runCommand i op s = .fault (.stuck i why) := by
  unfold runCommand
  rw [h]

/-- All a command can do: answer the state `finish` gives, on an instance that accepts it, or a stuck fault. -/
theorem runCommand_next_iff {i : InstanceId} {s t : State} {op : Op (Option ResultData)} :
    runCommand i op s = .next t ↔ accepts s i = true ∧ t = finish i (op s) := by
  unfold runCommand accepts
  cases stuckReason (s.block i) <;> simp [eq_comm]

/-- A refused word. -/
theorem refuseCommand_of_accepts {i : InstanceId} {s : State} (h : accepts s i = true) (why : RefuseReason) :
    refuseCommand i why s = .next (takeOutcome i (.refused why) s) := runCommand_of_accepts h _

/-! ### Taking a command -/

/-- Where the instance of the first pending command accepts, that command is taken. -/
theorem fetch_first {s : State} {c : Command} {rest : List Command} (hp : s.pending = c :: rest)
    (ha : accepts s c.target = true) : fetch s = .command c { s with pending := rest } := by
  unfold fetch
  simp [hp, takeCommand, ha]

/-- A command taken is one of those pending, and its instance accepts it. -/
theorem takeCommand_mem {f : InstanceId → Bool} {c : Command} : ∀ {l left : List Command},
    takeCommand f l = some (c, left) → c ∈ l ∧ f c.target = true
  | [], _, h => by simp [takeCommand] at h
  | d :: rest, left, h => by
    unfold takeCommand at h
    split at h
    · cases h; simp_all
    · split at h
      · rename_i h'
        cases h
        have := takeCommand_mem h'
        exact ⟨List.mem_cons_of_mem _ this.1, this.2⟩
      · cases h

/-- No command is taken exactly when no instance of a pending command accepts. -/
theorem takeCommand_none_iff {f : InstanceId → Bool} : ∀ {l : List Command},
    takeCommand f l = none ↔ ∀ c ∈ l, f c.target = false
  | [] => by simp [takeCommand]
  | d :: rest => by
    have ih := takeCommand_none_iff (f := f) (l := rest)
    unfold takeCommand
    cases hd : f d.target
    · cases hr : takeCommand f rest
      · simp_all
      · have hn : ¬ ∀ c ∈ rest, f c.target = false := fun h => by simp [ih.mpr h] at hr
        simpa [hd] using hn
    · simp [hd]

end Sys2Proof.Machine
end

