-- ==== Sys2Proof/Laws/Answers.lean ====
section
/-! SUPPORT. The shared operations on any device, from what the device answers: one lemma per operation and way to end. -/

namespace Sys2Proof.Machine

variable {s : State} {i : InstanceId}

/-! ### The state after answered transactions -/

/-- `s` with `log` appended to the history of instance `i`, the device `dev` and the draw counter `draws`. -/
def answered (s : State) (i : InstanceId) (log : List Transaction) (dev : Device) (draws : Nat) : State :=
  { s.setBlock i { s.block i with history := (s.block i).history ++ log, device := dev } with draws := draws }

section
variable (s : State) (i j : InstanceId) (log log' : List Transaction) (dev dev' : Device) (n n' : Nat)

@[simp] theorem answered_device : ((answered s i log dev n).block i).device = dev := by cases i <;> rfl
@[simp] theorem answered_history : ((answered s i log dev n).block i).history = (s.block i).history ++ log := by cases i <;> rfl
@[simp] theorem answered_dev8 : ((answered s i log dev n).block j).dev8 = (s.block j).dev8 := by cases i <;> cases j <;> rfl
@[simp] theorem answered_draws : (answered s i log dev n).draws = n := by cases i <;> rfl
@[simp] theorem answered_params : (answered s i log dev n).params = s.params := by cases i <;> rfl
@[simp] theorem answered_sensAcc : (answered s i log dev n).sensAcc = s.sensAcc := by cases i <;> rfl
@[simp] theorem answered_sensMagXY : (answered s i log dev n).sensMagXY = s.sensMagXY := by cases i <;> rfl
@[simp] theorem answered_sensMagZ : (answered s i log dev n).sensMagZ = s.sensMagZ := by cases i <;> rfl
@[simp] theorem answered_answered :
    answered (answered s i log dev n) i log' dev' n' = answered s i (log ++ log') dev' n' := by
  cases i <;> simp [answered, State.setBlock, State.block]
theorem answered_nil : answered s i [] (s.block i).device s.draws = s := by
  unfold answered
  rw [List.append_nil]
  cases i <;> rfl
theorem afterLog_eq_answered (rf : RegFile) : afterLog s i log rf = answered s i log (.regFile rf) s.draws := by cases i <;> rfl
theorem endOk_answered (d : Option ResultData) : endOk i d (answered s i log dev n) = afterOk s i log dev n d := by cases i <;> rfl
theorem takeOutcome_answered (o : Status) :
    takeOutcome i o (answered s i log dev n) = afterOutcome s i o log dev n := by cases i <;> rfl
theorem hangUp_answered : hangUp i (answered s i log dev n) = afterHang s i log dev n := by cases i <;> rfl

end

/-! ### What a device answers -/

theorem answersFrom_append (l l' : List Transaction) : ∀ (dev : Device) (n : Nat) (h : List Transaction),
    answersFrom dev n h (l ++ l') = (answersFrom dev n h l).bind fun r => answersFrom r.1 r.2 (h ++ l) l' := by
  induction l with
  | nil => intro dev n h; simp [answersFrom]
  | cons e rest ih =>
    intro dev n h
    simp only [List.cons_append, answersFrom]
    split
    · rw [ih]; simp
    · rfl

/-- Answers split at any point. -/
theorem answers_append {l l' : List Transaction} {dev : Device} {n : Nat} (h : Answers s i (l ++ l') dev n) :
    ∃ d m, Answers s i l d m ∧ Answers (answered s i l d m) i l' dev n := by
  unfold Answers at h ⊢
  rw [answersFrom_append] at h
  cases h1 : answersFrom (s.block i).device s.draws (s.block i).history l with
  | none => rw [h1] at h; cases h
  | some r =>
    rw [h1] at h
    exact ⟨r.1, r.2, rfl, by simpa using h⟩

/-- One answered transaction. -/
theorem answers_cons {e : Transaction} {l : List Transaction} {dev : Device} {n : Nat} (h : Answers s i (e :: l) dev n) :
    ∃ r, r = respond (s.block i).device s.draws (s.block i).history e.req ∧ r.status = e.status ∧ r.data = e.data ∧
      recorded i e.req r s = answered s i [e] r.device r.draws ∧ Answers (answered s i [e] r.device r.draws) i l dev n := by
  unfold Answers at h
  simp only [answersFrom] at h
  split at h
  · rename_i hr
    refine ⟨_, rfl, hr.1, hr.2, ?_, ?_⟩
    · have he : (⟨e.req, (respond (s.block i).device s.draws (s.block i).history e.req).status,
          (respond (s.block i).device s.draws (s.block i).history e.req).data⟩ : Transaction) = e := by rw [hr.1, hr.2]
      cases i <;> simp_all [recorded, answered]
    · unfold Answers; simpa using h
  · cases h

/-- A transaction answered as a log of one entry says. -/
theorem transact_answers {e : Transaction} {dev : Device} {n : Nat} (h : Answers s i [e] dev n) (dir : Dir) (a : Byte) :
    transact i e.req dir a s = match e.status with
      | .ok => .ok e.data (answered s i [e] dev n)
      | .err => .error (.outcome (.busError dir a)) (answered s i [e] dev n)
      | .hang => .error .hang (answered s i [e] dev n) := by
  obtain ⟨r, hr, hs, hd, hrec, hl⟩ := answers_cons h
  have hl' : r.device = dev ∧ r.draws = n := by simpa [Answers, answersFrom] using hl
  rw [hl'.1, hl'.2] at hrec
  obtain ⟨r', hr', ⟨hs', h1⟩ | ⟨hs', h1⟩ | ⟨hs', h1⟩⟩ := transact_cases i e.req dir a s <;>
    (subst hr'; rw [← hr] at h1 hs'; rw [h1, hrec, ← hs, hs', ← hd])

theorem memRead_answers {a : Byte} {bs : List Byte} {dev : Device} {n : Nat}
    (h : Answers s i (readLog (s.block i).dev8 a bs) dev n) :
    memRead i a bs.length s = .ok bs (answered s i (readLog (s.block i).dev8 a bs) dev n) := by
  obtain ⟨d, m, h1, h2⟩ := answers_append (l := [⟨.write (s.block i).dev8 [a] true, .ok, []⟩])
    (l' := [⟨.read (s.block i).dev8 bs.length, .ok, bs⟩]) h
  have t1 := transact_answers h1 .write a
  have t2 := transact_answers h2 .read a
  simp only at t1 t2
  unfold memRead
  rw [op_get_bind, op_bind_ok t1, t2, answered_answered]
  rfl

/-- The address write of a read fails. -/
theorem memRead_address_err {a : Byte} {n' : Nat} {dev : Device} {n : Nat}
    (h : Answers s i [⟨.write (s.block i).dev8 [a] true, .err, []⟩] dev n) :
    memRead i a n' s = .error (.outcome (.busError .write a)) (answered s i [⟨.write (s.block i).dev8 [a] true, .err, []⟩] dev n) := by
  have t1 := transact_answers h .write a
  simp only at t1
  unfold memRead
  rw [op_get_bind, op_bind_error t1]

/-- The address write of a read never completes. -/
theorem memRead_address_hang {a : Byte} {n' : Nat} {dev : Device} {n : Nat}
    (h : Answers s i [⟨.write (s.block i).dev8 [a] true, .hang, []⟩] dev n) :
    memRead i a n' s = .error .hang (answered s i [⟨.write (s.block i).dev8 [a] true, .hang, []⟩] dev n) := by
  have t1 := transact_answers h .write a
  simp only at t1
  unfold memRead
  rw [op_get_bind, op_bind_error t1]

/-- The read of a register read ends otherwise than `ok`. -/
theorem memRead_read_not_ok {a : Byte} {n' : Nat} {st : BusStatus} {dev : Device} {n : Nat} (hst : st ≠ .ok)
    (h : Answers s i [⟨.write (s.block i).dev8 [a] true, .ok, []⟩, ⟨.read (s.block i).dev8 n', st, []⟩] dev n) :
    memRead i a n' s = .error (if st = .err then .outcome (.busError .read a) else .hang)
      (answered s i [⟨.write (s.block i).dev8 [a] true, .ok, []⟩, ⟨.read (s.block i).dev8 n', st, []⟩] dev n) := by
  obtain ⟨d, m, h1, h2⟩ := answers_append (l := [⟨.write (s.block i).dev8 [a] true, .ok, []⟩])
    (l' := [⟨.read (s.block i).dev8 n', st, []⟩]) h
  have t1 := transact_answers h1 .write a
  have t2 := transact_answers h2 .read a
  simp only at t1 t2
  unfold memRead
  rw [op_get_bind, op_bind_ok t1, t2, answered_answered]
  cases st <;> first | exact absurd rfl hst | rfl

theorem readReg_answers {r : RegIdx} {b : Byte} {dev : Device} {n : Nat}
    (h : Answers s i (readLog (s.block i).dev8 (0#1 ++ r) [b]) dev n) :
    readReg i r s = .ok b (answered s i (readLog (s.block i).dev8 (0#1 ++ r) [b]) dev n) := by
  have hm : memRead i (singleAddr r) 1 s = _ := memRead_answers (a := singleAddr r) (bs := [b]) h
  unfold readReg
  rw [op_bind_ok hm]
  rfl

theorem readRegMasked_answers {r : RegIdx} {b m : Byte} {dev : Device} {n : Nat}
    (h : Answers s i (readLog (s.block i).dev8 (0#1 ++ r) [b]) dev n) :
    readRegMasked i r m s = .ok (b &&& m) (answered s i (readLog (s.block i).dev8 (0#1 ++ r) [b]) dev n) := by
  unfold readRegMasked
  rw [op_bind_ok (readReg_answers h)]
  rfl

theorem readBurst_answers {r : RegIdx} {bs : List Byte} {dev : Device} {n : Nat}
    (h : Answers s i (readLog (s.block i).dev8 (1#1 ++ r) bs) dev n) :
    readBurst i r bs.length s = .ok bs (answered s i (readLog (s.block i).dev8 (1#1 ++ r) bs) dev n) :=
  memRead_answers (a := burstAddr r) h

theorem writeReg_answers {r : RegIdx} {v : Byte} {st : BusStatus} {dev : Device} {n : Nat}
    (h : Answers s i [⟨.write (s.block i).dev8 [0#1 ++ r, v] false, st, []⟩] dev n) :
    writeReg i r v s = match st with
      | .ok => .ok () (answered s i [⟨.write (s.block i).dev8 [0#1 ++ r, v] false, st, []⟩] dev n)
      | .err => .error (.outcome (.busError .write (0#1 ++ r))) (answered s i [⟨.write (s.block i).dev8 [0#1 ++ r, v] false, st, []⟩] dev n)
      | .hang => .error .hang (answered s i [⟨.write (s.block i).dev8 [0#1 ++ r, v] false, st, []⟩] dev n) := by
  have t1 := transact_answers h .write (0#1 ++ r)
  simp only at t1
  unfold writeReg memWrite singleAddr
  rw [op_get_bind]
  cases st
  · rw [op_bind_ok t1]; rfl
  · rw [op_bind_error t1]
  · rw [op_bind_error t1]

/-- A masked update whose transactions are answered. -/
theorem updateRegMaskedElse_answers {r : RegIdx} {old v m : Byte} {f : State → State} {dev : Device} {n : Nat}
    (h : Answers s i (updateLog (s.block i).dev8 r old (mergeMasked old v m)) dev n) :
    updateRegMaskedElse i r v m f s = .ok () (answered s i (updateLog (s.block i).dev8 r old (mergeMasked old v m)) dev n) := by
  obtain ⟨d, k, h1, h2⟩ := answers_append (l := readLog (s.block i).dev8 (0#1 ++ r) [old]) h
  unfold updateRegMaskedElse
  rw [op_bind_ok (readReg_answers h1)]
  unfold onOutcome
  have hw := writeReg_answers (s := answered s i (readLog (s.block i).dev8 (0#1 ++ r) [old]) d k) (i := i) (r := r)
    (v := mergeMasked old v m) (st := .ok) (dev := dev) (n := n) (by simpa [writeLog] using h2)
  rw [hw]
  simp [updateLog, writeLog]

theorem updateRegMasked_answers {r : RegIdx} {old v m : Byte} {dev : Device} {n : Nat}
    (h : Answers s i (updateLog (s.block i).dev8 r old (mergeMasked old v m)) dev n) :
    updateRegMasked i r v m s = .ok () (answered s i (updateLog (s.block i).dev8 r old (mergeMasked old v m)) dev n) :=
  updateRegMaskedElse_answers h

/-- A masked update whose write ends otherwise than `ok`. -/
theorem updateRegMaskedElse_write_not_ok {r : RegIdx} {old v m : Byte} {f : State → State} {st : BusStatus} {dev : Device} {n : Nat}
    (hst : st ≠ .ok)
    (h : Answers s i (readLog (s.block i).dev8 (0#1 ++ r) [old] ++
      [⟨.write (s.block i).dev8 [0#1 ++ r, mergeMasked old v m] false, st, []⟩]) dev n) :
    updateRegMaskedElse i r v m f s =
      if st = .err then .error (.outcome (.busError .write (0#1 ++ r))) (f (answered s i (readLog (s.block i).dev8 (0#1 ++ r) [old] ++
        [⟨.write (s.block i).dev8 [0#1 ++ r, mergeMasked old v m] false, st, []⟩]) dev n))
      else .error .hang (answered s i (readLog (s.block i).dev8 (0#1 ++ r) [old] ++
        [⟨.write (s.block i).dev8 [0#1 ++ r, mergeMasked old v m] false, st, []⟩]) dev n) := by
  obtain ⟨d, k, h1, h2⟩ := answers_append (l := readLog (s.block i).dev8 (0#1 ++ r) [old]) h
  unfold updateRegMaskedElse
  rw [op_bind_ok (readReg_answers h1)]
  unfold onOutcome
  have hw := writeReg_answers (s := answered s i (readLog (s.block i).dev8 (0#1 ++ r) [old]) d k) (i := i) (r := r)
    (v := mergeMasked old v m) (st := st) (dev := dev) (n := n) (by simpa using h2)
  rw [hw]
  cases st <;> first | exact absurd rfl hst | simp

end Sys2Proof.Machine
end

