-- ==== Sys2Proof/Laws/Chain.lean ====
section
/-! SUPPORT. Chains of sub-operations: what a sub-operation answers once its device answers a log, and how that composes. -/

namespace Sys2Proof.Machine

variable {α β γ : Type} {i : InstanceId} {d8 : Byte}

theorem op_bind_assoc (o : Op α) (f : α → Op β) (g : β → Op γ) : (o >>= f) >>= g = o >>= fun a => f a >>= g := by
  funext s
  simp only [op_bind]
  cases o s <;> rfl

theorem op_pure_bind (a : α) (f : α → Op β) : (pure a : Op α) >>= f = f a := rfl

/-- From any state of an instance with the address `d8` whose device answers `log`, `op` answers `a` and has done no more than that. -/
def Yields (i : InstanceId) (d8 : Byte) (log : List Transaction) (op : Op α) (a : α) : Prop :=
  ∀ s dev k, (s.block i).dev8 = d8 → Answers s i log dev k → op s = .ok a (answered s i log dev k)

/-- From any such state, `op` ends early in `e` and has done no more than that. -/
def EndsIn (i : InstanceId) (d8 : Byte) (log : List Transaction) (op : Op α) (e : Ending) : Prop :=
  ∀ s dev k, (s.block i).dev8 = d8 → Answers s i log dev k → op s = .error e (answered s i log dev k)

theorem yields_pure (a : α) : Yields i d8 [] (pure a : Op α) a := by
  intro s dev k _ h
  have : dev = (s.block i).device ∧ k = s.draws := by simpa [Answers, answersFrom, eq_comm] using h
  rw [this.1, this.2, answered_nil, op_pure]

theorem endsIn_raise (o : Status) : EndsIn i d8 [] (raise o : Op α) (.outcome o) := by
  intro s dev k _ h
  have : dev = (s.block i).device ∧ k = s.draws := by simpa [Answers, answersFrom, eq_comm] using h
  rw [this.1, this.2, answered_nil, raise_apply]

theorem yields_bind {l l' : List Transaction} {op : Op α} {f : α → Op β} {a : α} {b : β} (h1 : Yields i d8 l op a)
    (h2 : Yields i d8 l' (f a) b) : Yields i d8 (l ++ l') (op >>= f) b := by
  intro s dev k hd h
  obtain ⟨d, n, ha, hb⟩ := answers_append h
  rw [op_bind_ok (h1 s d n hd ha), h2 _ dev k (by simpa using hd) hb, answered_answered]

theorem endsIn_bind {l l' : List Transaction} {op : Op α} {f : α → Op β} {a : α} {e : Ending} (h1 : Yields i d8 l op a)
    (h2 : EndsIn i d8 l' (f a) e) : EndsIn i d8 (l ++ l') (op >>= f) e := by
  intro s dev k hd h
  obtain ⟨d, n, ha, hb⟩ := answers_append h
  rw [op_bind_ok (h1 s d n hd ha), h2 _ dev k (by simpa using hd) hb, answered_answered]

theorem endsIn_bind_first {l : List Transaction} {op : Op α} {f : α → Op β} {e : Ending} (h1 : EndsIn i d8 l op e) :
    EndsIn i d8 l (op >>= f) e := by
  intro s dev k hd h
  rw [op_bind_error (h1 s dev k hd h)]

/-- A value returned after a chain adds nothing to its log. -/
theorem yields_map {l : List Transaction} {op : Op α} {a : α} (f : α → β) (h : Yields i d8 l op a) :
    Yields i d8 l (op >>= fun a => pure (f a)) (f a) := by
  have := yields_bind (f := fun a => pure (f a)) h (yields_pure (f a))
  rwa [List.append_nil] at this

theorem yields_readReg (r : RegIdx) (b : Byte) : Yields i d8 (readLog d8 (0#1 ++ r) [b]) (readReg i r) b := by
  intro s dev k hd h
  subst hd
  exact readReg_answers h

theorem yields_readRegMasked (r : RegIdx) (b m : Byte) :
    Yields i d8 (readLog d8 (0#1 ++ r) [b]) (readRegMasked i r m) (b &&& m) := by
  intro s dev k hd h
  subst hd
  exact readRegMasked_answers h

theorem yields_readBurst (r : RegIdx) (bs : List Byte) : Yields i d8 (readLog d8 (1#1 ++ r) bs) (readBurst i r bs.length) bs := by
  intro s dev k hd h
  subst hd
  exact readBurst_answers h

theorem yields_updateRegMaskedElse (r : RegIdx) (old v m : Byte) (f : State → State) :
    Yields i d8 (updateLog d8 r old (merged old v m)) (updateRegMaskedElse i r v m f) () := by
  intro s dev k hd h
  subst hd
  exact updateRegMaskedElse_answers h

theorem yields_updateRegMasked (r : RegIdx) (old v m : Byte) :
    Yields i d8 (updateLog d8 r old (merged old v m)) (updateRegMasked i r v m) () := yields_updateRegMaskedElse r old v m id

/-- A command whose operation answers a result. -/
theorem runCommand_yields {s : State} {log : List Transaction} {op : Op (Option ResultData)} {d : Option ResultData} {dev : Device}
    {k : Nat} (ha : accepts s i = true) (h : Yields i (s.block i).dev8 log op d) (hl : Answers s i log dev k) :
    runCommand i op s = .next (afterOk s i log dev k d) := by
  rw [runCommand_of_accepts ha, h s dev k rfl hl]
  exact congrArg _ (endOk_answered ..)

/-- A command whose operation ends in an outcome. -/
theorem runCommand_endsIn {s : State} {log : List Transaction} {op : Op (Option ResultData)} {o : Status} {dev : Device}
    {k : Nat} (ha : accepts s i = true) (h : EndsIn i (s.block i).dev8 log op (.outcome o)) (hl : Answers s i log dev k) :
    runCommand i op s = .next (afterOutcome s i o log dev k) := by
  rw [runCommand_of_accepts ha, h s dev k rfl hl]
  exact congrArg _ (takeOutcome_answered ..)

/-- A command whose operation hangs. -/
theorem runCommand_hangs {s : State} {log : List Transaction} {op : Op (Option ResultData)} {dev : Device}
    {k : Nat} (ha : accepts s i = true) (h : EndsIn i (s.block i).dev8 log op .hang) (hl : Answers s i log dev k) :
    runCommand i op s = .next (afterHang s i log dev k) := by
  rw [runCommand_of_accepts ha, h s dev k rfl hl]
  exact congrArg _ (hangUp_answered ..)

end Sys2Proof.Machine
end

