-- ==== Sys2Proof/Laws/Decode.lean ====
section
/-! SUPPORT. The fields of a command word, and the codes and their decoders, said once for every word and code. -/

namespace Sys2Proof

open Sys2Proof.Machine

/-! ### Fields -/

theorem opField_commandWord (op a v m : Byte) : opField (commandWord op a v m) = op := by
  apply BitVec.eq_of_toNat_eq
  simp only [opField, commandWord, BitVec.extractLsb'_toNat, BitVec.toNat_append, Nat.shiftRight_eq_div_pow]
  have := op.isLt; have := a.isLt; have := v.isLt; have := m.isLt
  rw [← Nat.shiftLeft_add_eq_or_of_lt (by omega),
    ← Nat.shiftLeft_add_eq_or_of_lt (by omega), ← Nat.shiftLeft_add_eq_or_of_lt (by omega)]
  simp only [Nat.shiftLeft_eq]
  omega

theorem aField_commandWord (op a v m : Byte) : aField (commandWord op a v m) = a := by
  apply BitVec.eq_of_toNat_eq
  simp only [aField, commandWord, BitVec.extractLsb'_toNat, BitVec.toNat_append, Nat.shiftRight_eq_div_pow]
  have := op.isLt; have := a.isLt; have := v.isLt; have := m.isLt
  rw [← Nat.shiftLeft_add_eq_or_of_lt (by omega),
    ← Nat.shiftLeft_add_eq_or_of_lt (by omega), ← Nat.shiftLeft_add_eq_or_of_lt (by omega)]
  simp only [Nat.shiftLeft_eq]
  omega

theorem vField_commandWord (op a v m : Byte) : vField (commandWord op a v m) = v := by
  apply BitVec.eq_of_toNat_eq
  simp only [vField, commandWord, BitVec.extractLsb'_toNat, BitVec.toNat_append, Nat.shiftRight_eq_div_pow]
  have := op.isLt; have := a.isLt; have := v.isLt; have := m.isLt
  rw [← Nat.shiftLeft_add_eq_or_of_lt (by omega),
    ← Nat.shiftLeft_add_eq_or_of_lt (by omega), ← Nat.shiftLeft_add_eq_or_of_lt (by omega)]
  simp only [Nat.shiftLeft_eq]
  omega

theorem mField_commandWord (op a v m : Byte) : mField (commandWord op a v m) = m := by
  apply BitVec.eq_of_toNat_eq
  simp only [mField, commandWord, BitVec.extractLsb'_toNat, BitVec.toNat_append, Nat.shiftRight_eq_div_pow]
  have := op.isLt; have := a.isLt; have := v.isLt; have := m.isLt
  rw [← Nat.shiftLeft_add_eq_or_of_lt (by omega),
    ← Nat.shiftLeft_add_eq_or_of_lt (by omega), ← Nat.shiftLeft_add_eq_or_of_lt (by omega)]
  simp only [Nat.shiftLeft_eq]
  omega

/-- Every word is the word of its fields. -/
theorem commandWord_fields (w : Word) : commandWord (opField w) (aField w) (vField w) (mField w) = w := by
  apply BitVec.eq_of_toNat_eq
  simp only [opField, aField, vField, mField, commandWord, BitVec.extractLsb'_toNat, BitVec.toNat_append, Nat.shiftRight_eq_div_pow]
  have := w.isLt
  rw [← Nat.shiftLeft_add_eq_or_of_lt (by omega),
    ← Nat.shiftLeft_add_eq_or_of_lt (by omega), ← Nat.shiftLeft_add_eq_or_of_lt (by omega)]
  simp only [Nat.shiftLeft_eq]
  omega

/-! ### Codes -/

theorem accOdrOfCode_accOdrCode (c : AccOdr) : accOdrOfCode (accOdrCode c) = some c := by cases c <;> rfl
theorem powerModeOfCode_powerModeCode (c : PowerMode) : powerModeOfCode (powerModeCode c) = some c := by cases c <;> rfl
theorem accFsOfCode_accFsCode (c : AccFs) : accFsOfCode (accFsCode c) = some c := by cases c <;> rfl
theorem hpfOfCode_hpfCode (c : HpfMode) : hpfOfCode (hpfCode c) = some c := by
  cases c with
  | off => rfl
  | cutoff c => revert c; decide
theorem fifoModeOfCode_fifoModeCode (c : FifoMode) : fifoModeOfCode (fifoModeCode c) = some c := by cases c <;> rfl
theorem boolOfCode_boolCode (c : Bool) : boolOfCode (boolCode c) = some c := by cases c <;> rfl
theorem magFsOfCode_magFsCode (c : MagFs) : magFsOfCode (magFsCode c) = some c := by cases c <;> rfl
theorem magOdrOfCode_magOdrCode (c : MagOdr) : magOdrOfCode (magOdrCode c) = some c := by revert c; decide

theorem accOdrCode_of {a : Byte} {c : AccOdr} (h : accOdrOfCode a = some c) : accOdrCode c = a := by revert a c; decide
theorem powerModeCode_of {a : Byte} {c : PowerMode} (h : powerModeOfCode a = some c) : powerModeCode c = a := by revert a c; decide
theorem accFsCode_of {a : Byte} {c : AccFs} (h : accFsOfCode a = some c) : accFsCode c = a := by revert a c; decide
theorem hpfCode_of {a : Byte} {c : HpfMode} (h : hpfOfCode a = some c) : hpfCode c = a := by
  have key : ∀ a : Byte, (hpfOfCode a).all (fun c => hpfCode c == a) = true := by decide
  have := key a
  rw [h] at this
  simpa using this
theorem fifoModeCode_of {a : Byte} {c : FifoMode} (h : fifoModeOfCode a = some c) : fifoModeCode c = a := by revert a c; decide
theorem boolCode_of {a : Byte} {c : Bool} (h : boolOfCode a = some c) : boolCode c = a := by revert a c; decide
theorem magFsCode_of {a : Byte} {c : MagFs} (h : magFsOfCode a = some c) : magFsCode c = a := by revert a c; decide
theorem magOdrCode_of {a : Byte} {c : MagOdr} (h : magOdrOfCode a = some c) : magOdrCode c = a := by revert a c; decide

theorem indexOf_indexField (r : RegIdx) : indexOf (indexField r) = r := by revert r; decide
theorem indexField_msb (r : RegIdx) : (indexField r)[7] = false := by revert r; decide
theorem indexField_indexOf {a : Byte} (h : a[7] = false) : indexField (indexOf a) = a := by revert a; decide

end Sys2Proof
end

