-- ==== Sys2Proof/Laws/Float.lean ====
section
/-! SUPPORT. The small lemmas of the floating-point operations: the fields of a value, the bounds of a rounding, and zeros. -/

namespace Sys2Proof.Machine

variable (f : FloatFmt)

/-! ### The fields of a value -/

theorem infBits_lt : infBits f < 2 ^ signPos f := by
  have h : (2 ^ f.expBits - 1) * 2 ^ f.fracBits < 2 ^ f.expBits * 2 ^ f.fracBits :=
    Nat.mul_lt_mul_of_pos_right (by have := Nat.two_pow_pos f.expBits; omega) (Nat.two_pow_pos _)
  rwa [← Nat.pow_add] at h

/-- A format with two exponent bits and a fraction bit has finite values above zero. -/
theorem two_le_infBits {f : FloatFmt} (he : 2 ≤ f.expBits) : 2 ≤ infBits f := by
  have h1 : 2 ^ 2 ≤ 2 ^ f.expBits := Nat.pow_le_pow_right (by decide) he
  have h2 := Nat.two_pow_pos f.fracBits
  unfold infBits
  exact Nat.le_trans (by omega : 2 ≤ (2 ^ f.expBits - 1) * 1) (Nat.mul_le_mul_left _ h2)

theorem fsign_packFloat {f : FloatFmt} {b : Nat} (s : Bool) (h : b < 2 ^ signPos f) : fsign f (packFloat f s b) = s := by
  unfold fsign packFloat
  cases s
  · simpa using Nat.testBit_lt_two_pow h
  · simp [Nat.testBit_two_pow_add_eq, Nat.testBit_lt_two_pow h]

theorem fmagBits_packFloat {f : FloatFmt} {b : Nat} (s : Bool) (h : b < 2 ^ signPos f) : fmagBits f (packFloat f s b) = b := by
  unfold fmagBits packFloat
  cases s <;> simp [Nat.mod_eq_of_lt h]

theorem fmagBits_lt (x : FloatVal) : fmagBits f x < 2 ^ signPos f := Nat.mod_lt _ (Nat.two_pow_pos _)

theorem fsign_fneg (x : FloatVal) : fsign f (fneg f x) = !fsign f x := fsign_packFloat _ (fmagBits_lt f x)

theorem fmagBits_fneg (x : FloatVal) : fmagBits f (fneg f x) = fmagBits f x := fmagBits_packFloat _ (fmagBits_lt f x)

/-! ### Rounding -/

/-- A quotient is rounded to its floor or to the whole number after it. -/
theorem roundQuotient_bounds (mode : Rounding) (sign : Bool) (num den : Nat) :
    num / den ≤ roundQuotient mode sign num den ∧ roundQuotient mode sign num den ≤ num / den + 1 := by
  unfold roundQuotient
  dsimp only
  split <;> omega

theorem roundQuotient_zero (mode : Rounding) (sign : Bool) {den : Nat} (h : 0 < den) : roundQuotient mode sign 0 den = 0 := by
  unfold roundQuotient roundsUp
  cases mode <;> simp
  omega

theorem overflowBits_le (sign : Bool) : overflowBits f sign ≤ infBits f := by
  unfold overflowBits
  cases f.rounding <;> cases sign <;> simp

/-- No rounding gives a NaN. -/
theorem roundMagnitude_le (sign : Bool) (num den : Nat) : roundMagnitude f sign num den ≤ infBits f := by
  have key : ∀ b, (if b ≥ infBits f then overflowBits f sign else b) ≤ infBits f := by
    intro b
    have := overflowBits_le f sign
    split <;> omega
  exact key _

/-- Zero is exact. -/
theorem roundMagnitude_zero (sign : Bool) {den : Nat} (h : 0 < den) : roundMagnitude f sign 0 den = 0 := by
  unfold roundMagnitude
  have hq : 0 / den < 2 ^ (f.fracBits + 1) := by rw [Nat.zero_div]; exact Nat.two_pow_pos _
  simp only [hq, if_true, Nat.zero_mul, Nat.pow_zero, Nat.mul_one, Nat.zero_add, roundQuotient_zero _ _ h]
  have := overflowBits_le f sign
  split <;> omega

theorem roundFloat_zero {den : Nat} (h : 0 < den) : roundFloat f false 0 den = 0 := by
  simp [roundFloat, roundMagnitude_zero f false h, packFloat]

theorem fconst_zero : fconst f 0 1 = 0 := by
  simp [fconst, roundFloat, roundMagnitude_zero, packFloat]

@[simp] theorem magnitude_zero : magnitude f 0 = 0 := by simp [magnitude, fmagBits]

/-! ### Zeros of products and quotients -/

/-- A positive finite value times +0 is +0 (90_conflicts.md C8). -/
theorem fmul_zero_of_positive {x : FloatVal} (hs : fsign f x = false) (hx : fmagBits f x < infBits f) : fmul f x 0 = 0 := by
  have h0 : fmagBits f 0 = 0 := by simp [fmagBits]
  have hs0 : fsign f 0 = false := by simp [fsign]
  have hi : 0 < infBits f := by omega
  have hnan : ¬ infBits f < fmagBits f x := by omega
  have hinf : ¬ fmagBits f x = infBits f := by omega
  have hinf0 : ¬ 0 = infBits f := by omega
  simp [fmul, isNaN, isInf, h0, hs0, hs, hnan, hinf, hinf0, roundFloat_zero f (Nat.two_pow_pos _)]

/-- +0 divided by a positive value is +0 (90_conflicts.md C8). -/
theorem fdiv_zero_of_positive {y : FloatVal} (hf : 0 < infBits f) (hs : fsign f y = false) (hn : isNaN f y = false)
    (hz : isZero f y = false) (hm : isInf f y = true ∨ 0 < magnitude f y) : fdiv f 0 y = 0 := by
  have h0 : fmagBits f 0 = 0 := by simp [fmagBits]
  have hs0 : fsign f 0 = false := by simp [fsign]
  have n0 : isNaN f 0 = false := by simp [isNaN, h0]
  have i0 : isInf f 0 = false := by simp [isInf, h0]; omega
  rcases hm with hm | hm
  · simp [fdiv, n0, i0, hn, hm, hs, hs0, packFloat]
  · cases hi : isInf f y <;> simp [fdiv, n0, i0, hn, hi, hz, hs, hs0, packFloat, roundFloat_zero f hm]

/-- A value that is no zero has a magnitude. -/
theorem magnitude_pos {y : FloatVal} (h : isZero f y = false) : 0 < magnitude f y := by
  have hb : fmagBits f y ≠ 0 := by simpa [isZero] using h
  unfold magnitude
  dsimp only
  split
  · rename_i he
    have := Nat.div_add_mod (fmagBits f y) (2 ^ f.fracBits)
    rw [he, Nat.mul_zero, Nat.zero_add] at this
    omega
  · have := Nat.two_pow_pos f.fracBits
    exact Nat.mul_pos (by omega) (Nat.two_pow_pos _)

/-! ### The logarithm -/

/-- The logarithm of a value between 0 and 1 is negative, finite and no zero (43_unit_lut.md R179, 90_conflicts.md C8). -/
theorem fln_of_unit {x : FloatVal} (hf : 2 ≤ infBits f) (h : inUnitInterval f x = true) :
    fsign f (fln f x) = true ∧ 0 < fmagBits f (fln f x) ∧ fmagBits f (fln f x) < infBits f := by
  have hb : 1 + Config.lnImpl f x % (infBits f - 1) < infBits f := by
    have h1 : Config.lnImpl f x % (infBits f - 1) < infBits f - 1 := Nat.mod_lt _ (by omega)
    exact Nat.lt_of_lt_of_le (Nat.add_lt_add_left h1 1) (by omega)
  have hlt := Nat.lt_trans hb (infBits_lt f)
  have he : fln f x = packFloat f true (1 + Config.lnImpl f x % (infBits f - 1)) := by simp [fln, h]
  rw [he, fsign_packFloat _ hlt, fmagBits_packFloat _ hlt]
  exact ⟨rfl, by omega, hb⟩

/-- The cutoff at the rate +0 is +0 (43_unit_lut.md R179, 90_conflicts.md C8). -/
theorem hpfCutoffHz_zero {piValue : FloatVal} (h : floatFmtOk f piValue = true) (c : BitVec 2) : hpfCutoffHz f piValue c 0 = 0 := by
  simp only [floatFmtOk, List.all_cons, List.all_nil, Bool.and_true, Bool.and_eq_true, decide_eq_true_eq, Bool.not_eq_true'] at h
  obtain ⟨⟨⟨⟨⟨he, hm⟩, h0, h1, h2, h3⟩, hs⟩, hn⟩, hz⟩ := h
  have hi := two_le_infBits he
  have hc : inUnitInterval f (hpfLnArgument f c) = true := by
    have : c = 0#2 ∨ c = 1#2 ∨ c = 2#2 ∨ c = 3#2 := by revert c; decide
    rcases this with rfl | rfl | rfl | rfl <;> assumption
  obtain ⟨ls, _, lf⟩ := fln_of_unit f hi hc
  unfold hpfCutoffHz
  rw [fmul_zero_of_positive f (by rw [fsign_fneg, ls]; rfl) (by rw [fmagBits_fneg]; exact lf)]
  exact fdiv_zero_of_positive f (by omega) hs hn hz (.inr (magnitude_pos f hz))

end Sys2Proof.Machine
end

