-- ==== Sys2Proof/Laws/Log.lean ====
section
/-! SUPPORT. How to prove something of every sub-operation: each of the three properties below holds of the shared operations and is
kept by sequencing, so it holds of whatever is written with them. -/

namespace Sys2Proof.Machine

variable {α β : Type}

/-! ### What a sub-operation leaves alone -/

/-- The state an operation leaves, however it ends. -/
def stateOf : EStateM.Result Ending State α → State
  | .ok _ t => t
  | .error _ t => t

/-- Every run of `op` relates the state before to the state after by `R`. -/
def Keeps (R : State → State → Prop) (op : Op α) : Prop := ∀ s, R s (stateOf (op s))

theorem keeps_pure {R : State → State → Prop} (hr : ∀ s, R s s) (a : α) : Keeps R (pure a : Op α) := fun s => hr s

theorem keeps_raise {R : State → State → Prop} (hr : ∀ s, R s s) (o : Status) : Keeps R (raise o : Op α) := fun s => hr s

theorem keeps_bind {R : State → State → Prop} (ht : ∀ a b c, R a b → R b c → R a c) {op : Op α} {f : α → Op β}
    (h1 : Keeps R op) (h2 : ∀ a, Keeps R (f a)) : Keeps R (op >>= f) := by
  intro s
  have h := h1 s
  rw [op_bind]
  cases hop : op s with
  | ok a t =>
    rw [hop] at h
    exact ht _ _ _ h (h2 a t)
  | error e t => rw [hop] at h; exact h

theorem keeps_get_bind {R : State → State → Prop} {f : State → Op β} (h : ∀ s, R s (stateOf (f s s))) :
    Keeps R (get >>= f) := fun s => h s

theorem keeps_onOutcome {R : State → State → Prop} (ht : ∀ a b c, R a b → R b c → R a c) {op : Op α} {f : State → State}
    (h1 : Keeps R op) (h2 : ∀ s, R s (f s)) : Keeps R (onOutcome op f) := by
  intro s
  have h := h1 s
  unfold onOutcome
  rcases hop : op s with ⟨a, t⟩ | ⟨e, t⟩
  · rw [hop] at h; exact h
  · rw [hop] at h
    cases e
    · exact ht _ _ _ h (h2 t)
    · exact h

theorem keeps_transact {R : State → State → Prop} (h : ∀ i req r s, R s (recorded i req r s)) (i : InstanceId) (req : BusRequest)
    (dir : Dir) (a : Byte) : Keeps R (transact i req dir a) := by
  intro s
  obtain ⟨r, _, ⟨_, h1⟩ | ⟨_, h1⟩ | ⟨_, h1⟩⟩ := transact_cases i req dir a s <;> rw [h1] <;> exact h _ _ _ _

/-! ### What a sub-operation raises -/

/-- Besides a bus error, `op` raises outcomes of `Q` only. -/
def Raises (Q : Status → Prop) (op : Op α) : Prop :=
  ∀ s o t, op s = .error (.outcome o) t → Q o ∨ ∃ d a, o = .busError d a

theorem raises_pure (Q : Status → Prop) (a : α) : Raises Q (pure a : Op α) := by
  intro s o t h; rw [op_pure] at h; cases h

theorem raises_raise {Q : Status → Prop} {o : Status} (h : Q o) : Raises Q (raise o : Op α) := by
  intro s o' t h'; rw [raise_apply] at h'; cases h'; exact .inl h

theorem raises_bind {Q : Status → Prop} {op : Op α} {f : α → Op β} (h1 : Raises Q op) (h2 : ∀ a, Raises Q (f a)) :
    Raises Q (op >>= f) := by
  intro s o t h
  rw [op_bind] at h
  split at h
  · exact h2 _ _ _ _ h
  · rename_i e t' hop
    cases h
    exact h1 _ _ _ hop

theorem raises_onOutcome {Q : Status → Prop} {op : Op α} {f : State → State} (h1 : Raises Q op) : Raises Q (onOutcome op f) := by
  intro s o t h
  unfold onOutcome at h
  split at h
  · cases h
  · rename_i o' t' hop
    cases h
    exact h1 _ _ _ hop
  · cases h

theorem raises_transact (Q : Status → Prop) (i : InstanceId) (req : BusRequest) (dir : Dir) (a : Byte) :
    Raises Q (transact i req dir a) := by
  intro s o t h
  obtain ⟨r, _, ⟨_, h1⟩ | ⟨_, h1⟩ | ⟨_, h1⟩⟩ := transact_cases i req dir a s <;> rw [h1] at h <;> cases h
  exact .inr ⟨_, _, rfl⟩

/-! ### What a sub-operation logs -/

/-- Every transaction of the log was answered `ok`. -/
def AllOk (log : List Transaction) : Prop := ∀ e ∈ log, e.status = .ok

theorem allOk_append {l l' : List Transaction} (h : AllOk l) (h' : AllOk l') : AllOk (l ++ l') := by
  intro e he
  rcases List.mem_append.mp he with he | he
  · exact h e he
  · exact h' e he

/-- `t` is `s` with `log` appended to the history of instance `i`, but for that device, the draw counter and the caches. -/
structure Extends (i : InstanceId) (s t : State) (log : List Transaction) : Prop where
  params : t.params = s.params
  pending : t.pending = s.pending
  others : ∀ j, j ≠ i → t.block j = s.block j
  history : (t.block i).history = (s.block i).history ++ log
  rest : { t.block i with history := (s.block i).history, device := (s.block i).device } = s.block i
  addressed : ∀ e ∈ log, requestDev8 e.req = (s.block i).dev8
  canonical : (∀ rf, (s.block i).device = .regFile rf → rf.reg.wf = true) → ∀ rf, (t.block i).device = .regFile rf → rf.reg.wf = true

theorem Extends.dev8 {i : InstanceId} {s t : State} {log : List Transaction} (h : Extends i s t log) :
    (t.block i).dev8 = (s.block i).dev8 := by
  unfold Block.dev8
  rw [← h.rest]

theorem extends_refl (i : InstanceId) (s : State) : Extends i s s [] where
  params := rfl
  pending := rfl
  others _ _ := rfl
  history := (List.append_nil _).symm
  rest := rfl
  addressed _ h := by cases h
  canonical h := h

theorem extends_trans {i : InstanceId} {a b c : State} {l l' : List Transaction} (h : Extends i a b l) (h' : Extends i b c l') :
    Extends i a c (l ++ l') where
  params := h'.params.trans h.params
  pending := h'.pending.trans h.pending
  others j hj := (h'.others j hj).trans (h.others j hj)
  history := by rw [h'.history, h.history, List.append_assoc]
  rest := by
    have h1 := h.rest
    have h2 := h'.rest
    rw [← h2] at h1
    exact h1
  addressed e he := by
    rcases List.mem_append.mp he with he | he
    · exact h.addressed e he
    · rw [h'.addressed e he, h.dev8]
  canonical hc := h'.canonical (h.canonical hc)

theorem respond_canonical {dev : Device} (draw : Nat) (history : List Transaction) (req : BusRequest)
    (h : ∀ rf, dev = .regFile rf → rf.reg.wf = true) :
    ∀ rf, (respond dev draw history req).device = .regFile rf → rf.reg.wf = true := by
  intro rf hrf
  unfold respond at hrf
  split at hrf
  · cases hrf
  · cases hrf
  · cases hrf
    exact regFileRespond_wf (h _ rfl) req

theorem extends_recorded (i : InstanceId) (req : BusRequest) (s : State) (hd : requestDev8 req = (s.block i).dev8) :
    Extends i s (recorded i req (respond (s.block i).device s.draws (s.block i).history req) s)
      [⟨req, (respond (s.block i).device s.draws (s.block i).history req).status,
        (respond (s.block i).device s.draws (s.block i).history req).data⟩] where
  params := recorded_params ..
  pending := recorded_pending ..
  others j hj := recorded_block_ne s i req _ hj
  history := by rw [recorded_block]
  rest := by rw [recorded_block]
  addressed e he := by rw [List.mem_singleton.mp he]; exact hd
  canonical h := by
    rw [recorded_block]
    exact respond_canonical _ _ _ h

/-- How a log ends when its sub-operation ends early. -/
def EndsAs (log : List Transaction) : Ending → Prop
  | .hang => ∃ l x, log = l ++ [x] ∧ AllOk l ∧ x.status = .hang
  | .outcome (.busError d a) => OnlyLastFails log ∧ ReportsLast log d a
  | .outcome _ => AllOk log

theorem onlyLastFails_of_init {l : List Transaction} {x : Transaction} (h : AllOk l) : OnlyLastFails (l ++ [x]) := by
  intro before e after heq hne
  obtain ⟨after', y, rfl⟩ := List.eq_nil_or_concat after |>.resolve_left hne
  have h2 : l ++ [x] = (before ++ e :: after') ++ [y] := by simp [heq]
  have h3 := (List.append_inj' h2 rfl).1
  exact h e (by rw [h3]; simp)

theorem onlyLastFails_of_allOk {l : List Transaction} (h : AllOk l) : OnlyLastFails l :=
  fun before e after heq _ => h e (by rw [heq]; simp)

theorem onlyLastFails_append {l l' : List Transaction} (h : AllOk l) (h' : OnlyLastFails l') : OnlyLastFails (l ++ l') := by
  intro before e after heq hne
  rcases List.append_eq_append_iff.mp heq with ⟨c, hb, hl'⟩ | ⟨c, hl, hc⟩
  · exact h' _ _ _ hl' hne
  · cases c with
    | nil => exact h' [] e after (by simpa using hc.symm) hne
    | cons y ys =>
      simp only [List.cons_append, List.cons.injEq] at hc
      refine h e ?_
      rw [hl, hc.1]
      simp

theorem reportsLast_append {l : List Transaction} {d : Dir} {a : Byte} (l0 : List Transaction) (h : ReportsLast l d a) :
    ReportsLast (l0 ++ l) d a := by
  cases d
  · obtain ⟨b, dv, r, n, rfl⟩ := h
    exact ⟨l0 ++ b, dv, r, n, by simp⟩
  · obtain ⟨b, dv, n, rfl⟩ := h
    exact ⟨l0 ++ b, dv, n, by simp⟩

theorem endsAs_append {l l' : List Transaction} {e : Ending} (h : AllOk l) (h' : EndsAs l' e) : EndsAs (l ++ l') e := by
  rcases e with o | _
  · cases o with
    | busError d a => exact ⟨onlyLastFails_append h h'.1, reportsLast_append l h'.2⟩
    | ok => exact allOk_append h h'
    | initFailed => exact allOk_append h h'
    | invalidConfig => exact allOk_append h h'
    | unreachableDecode => exact allOk_append h h'
    | cacheUnset => exact allOk_append h h'
    | refused => exact allOk_append h h'
  · obtain ⟨m, x, rfl, hm, hx⟩ := h'
    exact ⟨l ++ m, x, by simp, allOk_append h hm, hx⟩

/-- A class of logs that `Logs` below may ask for: it holds of the empty log and of what two of its logs make together. -/
structure LogClass (C : List Transaction → Prop) : Prop where
  nil : C []
  append : ∀ l l', C l → C l' → C (l ++ l')
  /-- An address write that does not complete, and one that completes with its read, are in every class. -/
  address : ∀ d a st, st ≠ .ok → C [⟨.write d [a] true, st, []⟩]
  read : ∀ d a n st bs, C [⟨.write d [a] true, .ok, []⟩, ⟨.read d n, st, bs⟩]

/-- Every run of `op` appends a log of class `C` to the history of instance `i`, all answered `ok` when `op` answers a value, and
otherwise ending as the end of `op` says. -/
def Logs (i : InstanceId) (C : List Transaction → Prop) (op : Op α) : Prop :=
  ∀ s, (∀ a t, op s = .ok a t → ∃ log, Extends i s t log ∧ C log ∧ AllOk log) ∧
    ∀ e t, op s = .error e t → ∃ log, Extends i s t log ∧ C log ∧ EndsAs log e

variable {i : InstanceId} {C : List Transaction → Prop}

theorem logs_pure (hC : LogClass C) (a : α) : Logs i C (pure a : Op α) := by
  intro s
  refine ⟨fun b t h => ?_, fun e t h => ?_⟩
  · rw [op_pure] at h; cases h
    exact ⟨[], extends_refl i s, hC.nil, by simp [AllOk]⟩
  · rw [op_pure] at h; cases h

theorem logs_raise (hC : LogClass C) {o : Status} (ho : ∀ d a, o ≠ .busError d a) : Logs i C (raise o : Op α) := by
  intro s
  refine ⟨fun b t h => ?_, fun e t h => ?_⟩
  · rw [raise_apply] at h; cases h
  · rw [raise_apply] at h; cases h
    refine ⟨[], extends_refl i s, hC.nil, ?_⟩
    cases o <;> first | exact absurd rfl (ho _ _) | (intro e he; cases he)

theorem logs_bind (hC : LogClass C) {op : Op α} {f : α → Op β} (h1 : Logs i C op) (h2 : ∀ a, Logs i C (f a)) :
    Logs i C (op >>= f) := by
  intro s
  have h := h1 s
  rw [op_bind]
  cases hop : op s with
  | ok a t =>
    obtain ⟨l, hl, hc, hok⟩ := h.1 a t hop
    have g := h2 a t
    refine ⟨fun b u hb => ?_, fun e u he => ?_⟩
    · obtain ⟨l', hl', hc', hok'⟩ := g.1 b u hb
      exact ⟨l ++ l', extends_trans hl hl', hC.append _ _ hc hc', allOk_append hok hok'⟩
    · obtain ⟨l', hl', hc', hend⟩ := g.2 e u he
      exact ⟨l ++ l', extends_trans hl hl', hC.append _ _ hc hc', endsAs_append hok hend⟩
  | error e t =>
    refine ⟨fun b u hb => (by cases hb), fun e' u he => ?_⟩
    cases he
    exact h.2 e t hop

theorem logs_get_bind {f : State → Op β} (h : ∀ s, (∀ a t, f s s = .ok a t → ∃ log, Extends i s t log ∧ C log ∧ AllOk log) ∧
    ∀ e t, f s s = .error e t → ∃ log, Extends i s t log ∧ C log ∧ EndsAs log e) : Logs i C (get >>= f) := fun s => h s

/-- An update of the caches alone logs nothing. -/
theorem logs_modify (hC : LogClass C) {f : State → State} (hf : ∀ s, Extends i s (f s) []) : Logs i C (modify f : Op PUnit) := by
  intro s
  refine ⟨fun b t h => ?_, fun e t h => ?_⟩
  · rw [op_modify] at h; cases h
    exact ⟨[], hf s, hC.nil, by simp [AllOk]⟩
  · rw [op_modify] at h; cases h

theorem logs_onOutcome {op : Op α} {f : State → State} (h1 : Logs i C op) (hf : ∀ s, Extends i s (f s) []) :
    Logs i C (onOutcome op f) := by
  intro s
  have h := h1 s
  unfold onOutcome
  rcases hop : op s with ⟨a, t⟩ | ⟨o | _, t⟩
  · refine ⟨fun b u hb => ?_, fun e u he => by cases he⟩
    cases hb
    exact h.1 a t hop
  · refine ⟨fun b u hb => (by cases hb), fun e u he => ?_⟩
    cases he
    obtain ⟨l, hl, hc, hend⟩ := h.2 _ _ hop
    exact ⟨l, by simpa using extends_trans hl (hf t), hc, hend⟩
  · refine ⟨fun b u hb => (by cases hb), fun e u he => ?_⟩
    cases he
    exact h.2 _ _ hop

/-- `MemRead` logs its address write and, when that is answered `ok`, its read. -/
theorem logs_memRead (hC : LogClass C) (a : Byte) (n : Nat) : Logs i C (memRead i a n) := by
  intro s
  unfold memRead
  rw [op_get_bind]
  have x1 := extends_recorded i (.write (s.block i).dev8 [a] true) s rfl
  rw [respond_write_data] at x1
  obtain ⟨r, hr, ⟨hs, h1⟩ | ⟨hs, h1⟩ | ⟨hs, h1⟩⟩ := transact_cases i (.write (s.block i).dev8 [a] true) .write a s
  · rw [op_bind_ok h1]
    rw [← hr] at x1
    have x2 := extends_recorded i (.read (s.block i).dev8 n) _ x1.dev8.symm
    have cr : ∀ n' st bs, C ([⟨.write (s.block i).dev8 [a] true, r.status, []⟩] ++ [⟨.read (s.block i).dev8 n', st, bs⟩]) := by
      rw [hs]; exact fun n' st bs => hC.read _ a n' st bs
    have ok1 : AllOk [(⟨.write (s.block i).dev8 [a] true, r.status, []⟩ : Transaction)] := by simp [AllOk, hs]
    obtain ⟨r', hr', ⟨hs', h2⟩ | ⟨hs', h2⟩ | ⟨hs', h2⟩⟩ :=
      transact_cases i (.read (s.block i).dev8 n) .read a (recorded i (.write (s.block i).dev8 [a] true) r s) <;>
      (rw [← hr'] at x2; rw [h2])
    · refine ⟨fun b t h => ?_, fun e t h => by cases h⟩
      cases h
      exact ⟨_, extends_trans x1 x2, cr _ _ _, allOk_append ok1 (by simp [AllOk, hs'])⟩
    · refine ⟨fun b t h => (by cases h), fun e t h => ?_⟩
      cases h
      refine ⟨_, extends_trans x1 x2, cr _ _ _, onlyLastFails_of_init ok1,
        [], (s.block i).dev8, n, ?_⟩
      have hd := respond_data_of_ne_ok _ _ _ _ (show (respond _ _ _ _).status ≠ .ok by rw [← hr', hs']; decide)
      rw [← hr'] at hd
      simp [hs, hs', hd]
    · refine ⟨fun b t h => (by cases h), fun e t h => ?_⟩
      cases h
      exact ⟨_, extends_trans x1 x2, cr _ _ _, _, _, rfl, ok1, hs'⟩
  · rw [op_bind_error h1]
    rw [← hr] at x1
    refine ⟨fun b t h => (by cases h), fun e t h => ?_⟩
    cases h
    exact ⟨_, x1, hC.address _ _ _ (by rw [hs]; decide), onlyLastFails_of_init (l := []) (by simp [AllOk]), [], (s.block i).dev8, [], true, by simp [hs]⟩
  · rw [op_bind_error h1]
    rw [← hr] at x1
    refine ⟨fun b t h => (by cases h), fun e t h => ?_⟩
    cases h
    exact ⟨_, x1, hC.address _ _ _ (by rw [hs]; decide), [], _, rfl, by simp [AllOk], hs⟩

/-- `MemWrite` logs its one write. -/
theorem logs_memWrite (a v : Byte) (hw : ∀ d st, C [⟨.write d [a, v] false, st, []⟩]) : Logs i C (memWrite i a v) := by
  intro s
  unfold memWrite
  rw [op_get_bind]
  have x1 := extends_recorded i (.write (s.block i).dev8 [a, v] false) s rfl
  rw [respond_write_data] at x1
  obtain ⟨r, hr, ⟨hs, h1⟩ | ⟨hs, h1⟩ | ⟨hs, h1⟩⟩ := transact_cases i (.write (s.block i).dev8 [a, v] false) .write a s <;>
    rw [← hr] at x1
  · rw [op_bind_ok h1]
    refine ⟨fun b t h => ?_, fun e t h => by cases h⟩
    cases h
    exact ⟨_, x1, hw .., by simp [AllOk, hs]⟩
  · rw [op_bind_error h1]
    refine ⟨fun b t h => (by cases h), fun e t h => ?_⟩
    cases h
    exact ⟨_, x1, hw .., onlyLastFails_of_init (l := []) (by simp [AllOk]), [], (s.block i).dev8, [v], false, by simp [hs]⟩
  · rw [op_bind_error h1]
    refine ⟨fun b t h => (by cases h), fun e t h => ?_⟩
    cases h
    exact ⟨_, x1, hw .., [], _, rfl, by simp [AllOk], hs⟩

theorem logs_readReg (hC : LogClass C) (r : RegIdx) : Logs i C (readReg i r) :=
  logs_bind hC (logs_memRead hC _ _) fun _ => logs_pure hC _

/-- The log of a completed register read, which answers the byte read. -/
theorem readReg_ok {r : RegIdx} {b : Byte} {s t : State} (h : readReg i r s = .ok b t) :
    Extends i s t (readLog (s.block i).dev8 (singleAddr r) [b]) := by
  unfold readReg at h
  rw [op_bind] at h
  split at h
  · rename_i bs t' hm
    rw [op_pure] at h
    cases h
    have hlen := memRead_length hm
    unfold memRead at hm
    rw [op_get_bind] at hm
    have x1 := extends_recorded i (.write (s.block i).dev8 [singleAddr r] true) s rfl
    rw [respond_write_data] at x1
    obtain ⟨r', hr, ⟨hs, h1⟩ | ⟨_, h1⟩ | ⟨_, h1⟩⟩ := transact_cases i (.write (s.block i).dev8 [singleAddr r] true) .write (singleAddr r) s
    · rw [op_bind_ok h1] at hm
      rw [← hr] at x1
      have x2 := extends_recorded i (.read (s.block i).dev8 1) _ x1.dev8.symm
      obtain ⟨r2, hr2, ⟨hs2, h2⟩ | ⟨_, h2⟩ | ⟨_, h2⟩⟩ := transact_cases i (.read (s.block i).dev8 1) .read (singleAddr r)
        (recorded i (.write (s.block i).dev8 [singleAddr r] true) r' s)
      · rw [h2] at hm
        cases hm
        rw [← hr2] at x2
        obtain ⟨b, hb⟩ := List.length_eq_one_iff.mp hlen
        rw [hb] at x2 ⊢
        have x := extends_trans x1 x2
        rw [hs, hs2] at x
        exact x
      · rw [h2] at hm; cases hm
      · rw [h2] at hm; cases hm
    · rw [op_bind_error h1] at hm; cases hm
    · rw [op_bind_error h1] at hm; cases hm
  · cases h

/-- A masked update logs its read and then its write, which keeps the bits outside the mask. -/
theorem logs_updateRegMaskedElse (hC : LogClass C) (r : RegIdx) (v m : Byte) {f : State → State} (hf : ∀ s, Extends i s (f s) [])
    (hw : ∀ d b st, C (readLog d (singleAddr r) [b] ++ [⟨.write d [singleAddr r, mergeMasked b v m] false, st, []⟩])) :
    Logs i C (updateRegMaskedElse i r v m f) := by
  intro s
  unfold updateRegMaskedElse
  rw [op_bind]
  cases hop : readReg i r s with
  | error e t =>
    refine ⟨fun b u hb => (by cases hb), fun e' u he => ?_⟩
    cases he
    exact (logs_readReg hC r s).2 e t hop
  | ok b t =>
    have x := readReg_ok hop
    have okr : AllOk (readLog (s.block i).dev8 (singleAddr r) [b]) := by simp [AllOk, readLog]
    -- the write alone, in the class of logs that are one write of this byte
    have g := logs_onOutcome (i := i) (C := fun l => ∃ d st, l = [⟨.write d [singleAddr r, mergeMasked b v m] false, st, []⟩])
      (op := writeReg i r (mergeMasked b v m)) (f := f) (logs_memWrite _ _ fun d st => ⟨d, st, rfl⟩) hf t
    refine ⟨fun _ u hb => ?_, fun e u he => ?_⟩
    · obtain ⟨l, hl, ⟨d, st, rfl⟩, hok⟩ := g.1 _ u hb
      have hd : d = (s.block i).dev8 := by
        have := hl.addressed _ (List.mem_singleton.mpr rfl)
        rw [x.dev8] at this
        exact this
      subst hd
      exact ⟨_, extends_trans x hl, hw .., allOk_append okr hok⟩
    · obtain ⟨l, hl, ⟨d, st, rfl⟩, hend⟩ := g.2 e u he
      have hd : d = (s.block i).dev8 := by
        have := hl.addressed _ (List.mem_singleton.mpr rfl)
        rw [x.dev8] at this
        exact this
      subst hd
      exact ⟨_, extends_trans x hl, hw .., endsAs_append okr hend⟩

theorem logs_readRegMasked (hC : LogClass C) (r : RegIdx) (m : Byte) : Logs i C (readRegMasked i r m) :=
  logs_bind hC (logs_readReg hC _) fun _ => logs_pure hC _

theorem logs_readBurst (hC : LogClass C) (r : RegIdx) (n : Nat) : Logs i C (readBurst i r n) := logs_memRead hC _ _

/-! ### Classes of logs -/

/-- Every log. -/
theorem logClass_true : LogClass (fun _ => True) := ⟨trivial, fun _ _ _ _ => trivial, fun _ _ _ _ => trivial, fun _ _ _ _ _ => trivial⟩

/-- The logs of the codec commands. -/
theorem logClass_codec (i : InstanceId) : LogClass (CodecLog i) where
  nil := by intro before e after d a v ns h; simp at h
  append l l' h h' := by
    intro before e after d a v ns heq hreq
    rcases List.append_eq_append_iff.mp heq with ⟨c, hb, hl'⟩ | ⟨c, hl, hc⟩
    · obtain ⟨earlier, b, m, rfl, hm⟩ := h' _ _ _ _ _ _ _ hl' hreq
      exact ⟨l ++ earlier, b, m, by rw [hb, List.append_assoc], hm⟩
    · cases c with
      | nil =>
        obtain ⟨earlier, b, m, hbe, hm⟩ := h' [] e after d a v ns (by simpa using hc.symm) hreq
        simp [readLog] at hbe
      | cons y ys =>
        simp only [List.cons_append, List.cons.injEq] at hc
        exact h before e ys d a v ns (by rw [hl, hc.1]) hreq
  address d a st _ := by
    intro before e after d' a' v ns heq hreq
    have he : e ∈ [(⟨.write d [a] true, st, []⟩ : Transaction)] := by rw [heq]; simp
    rw [List.mem_singleton.mp he] at hreq
    simp at hreq
  read d a n st bs := by
    intro before e after d' a' v ns heq hreq
    have he : e ∈ [(⟨.write d [a] true, .ok, []⟩ : Transaction), ⟨.read d n, st, bs⟩] := by rw [heq]; simp
    rcases List.mem_cons.mp he with rfl | he
    · simp at hreq
    · rw [List.mem_singleton.mp he] at hreq
      simp at hreq

/-- The logs in which every read has its address write. -/
theorem logClass_framed : LogClass FramedLog where
  nil := by intro before e after h; simp at h
  append l l' h h' := by
    intro before e after heq
    rcases List.append_eq_append_iff.mp heq with ⟨c, hb, hl'⟩ | ⟨c, hl, hc⟩
    · have g := h' _ _ _ hl'
      cases hr : e.req with
      | read d n =>
        rw [hr] at g
        obtain ⟨earlier, a, rfl⟩ := g
        exact ⟨l ++ earlier, a, by rw [hb, List.append_assoc]⟩
      | write d bs ns => rw [hr] at g; exact g
    · cases c with
      | nil =>
        have g := h' [] e after (by simpa using hc.symm)
        cases hr : e.req with
        | read d n => rw [hr] at g; obtain ⟨earlier, a, he⟩ := g; simp at he
        | write d bs ns => rw [hr] at g; exact g
      | cons y ys =>
        simp only [List.cons_append, List.cons.injEq] at hc
        have g := h before e ys (by rw [hl, hc.1])
        cases hr : e.req with
        | read d n => rw [hr] at g; exact g
        | write d bs ns =>
          rw [hr] at g
          rcases g with ⟨a, hb, hn, hk⟩ | g
          · refine .inl ⟨a, hb, hn, fun hs => ?_⟩
            obtain ⟨x, n, rest, rfl, hx⟩ := hk hs
            exact ⟨x, n, rest ++ l', by rw [hc.2, List.cons_append], hx⟩
          · exact .inr g
  address d a st hst := by
    intro before e after heq
    have he : e ∈ [(⟨.write d [a] true, st, []⟩ : Transaction)] := by rw [heq]; simp
    rw [List.mem_singleton.mp he]
    exact .inl ⟨a, rfl, rfl, fun hs => absurd hs hst⟩
  read d a n st bs := by
    intro before e after heq
    match before, heq with
    | [], heq => simp at heq; rw [← heq.1]; exact .inl ⟨a, rfl, rfl, fun _ => ⟨_, n, [], heq.2.symm, rfl⟩⟩
    | [x], heq => simp at heq; obtain ⟨rfl, rfl, rfl⟩ := heq; exact ⟨[], a, rfl⟩
    | x :: y :: rest, heq => have := congrArg List.length heq; simp at this

/-- The log of one register write is framed. -/
theorem framedLog_write (d a v : Byte) (st : BusStatus) : FramedLog [⟨.write d [a, v] false, st, []⟩] := by
  intro before e after heq
  have he : e ∈ [(⟨.write d [a, v] false, st, []⟩ : Transaction)] := by rw [heq]; simp
  rw [List.mem_singleton.mp he]
  exact .inr ⟨a, v, rfl, rfl⟩

/-- The log of a masked update whose mask lies within the fields the codec commands write. -/
theorem codecLog_update {r : RegIdx} {v m f : Byte} (hf : codecFields i (singleAddr r) = some f) (hm : m &&& ~~~f = 0#8)
    (d b : Byte) (st : BusStatus) :
    CodecLog i (readLog d (singleAddr r) [b] ++ [⟨.write d [singleAddr r, mergeMasked b v m] false, st, []⟩]) := by
  intro before e after d' a v' ns heq hreq
  have hlen := congrArg List.length heq
  simp [readLog] at hlen
  have key : mergeMasked b v m &&& ~~~f = b &&& ~~~f := by
    have hk : ∀ k : Nat, m.getLsbD k = true → f.getLsbD k = true := by
      intro k hmk
      have := congrArg (fun x => x.getLsbD k) hm
      by_cases hk8 : k < 8
      · simpa [hmk, hk8] using this
      · rw [BitVec.getLsbD_of_ge _ _ (by omega)] at hmk; cases hmk
    apply BitVec.eq_of_getLsbD_eq
    intro k hk8
    have := hk k
    simp only [mergeMasked, BitVec.getLsbD_and, BitVec.getLsbD_or, BitVec.getLsbD_not, hk8, decide_true, Bool.true_and]
    cases hmk : m.getLsbD k <;> cases hfk : f.getLsbD k <;> simp_all
  match before, heq with
  | [], heq => simp [readLog] at heq; rw [← heq.1] at hreq; simp at hreq
  | [x], heq => simp [readLog] at heq; rw [← heq.2.1] at hreq; simp at hreq
  | [x, y], heq =>
    simp [readLog] at heq
    obtain ⟨rfl, rfl, rfl, rfl⟩ := heq
    simp only [BusRequest.write.injEq, List.cons.injEq, and_true] at hreq
    obtain ⟨rfl, ⟨rfl, rfl⟩, rfl⟩ := hreq
    exact ⟨[], b, f, by simp [readLog], hf, key⟩
  | x :: y :: z :: rest, heq => simp at hlen; omega

end Sys2Proof.Machine
end

