-- ==== Sys2Proof/Laws/PerInstr.lean ====
section
/-! SUPPORT. One lemma per command: its word has the fixed bits of its row of spec/opcode_table.json, and its instance is the row's. -/

namespace Sys2Proof.Laws.OpcodeRow

open Sys2Proof Sys2Proof.Machine

/-- A row of the table: the mask of the fixed bits, their values, and the instance (none: both). -/
structure Row where
  mask : Word
  bits : Word
  only : Option InstanceId

/-- The row of a command, as spec/opcode_table.json has it. -/
def rowOf : Instr → Row
  | .readReg _ _ => ⟨0xFF80FFFF#32, 0x01000000#32, none⟩
  | .writeReg _ _ _ => ⟨0xFF8000FF#32, 0x02000000#32, none⟩
  | .readRegMasked _ _ _ => ⟨0xFF80FF00#32, 0x03000000#32, none⟩
  | .updateRegMasked _ _ _ _ => ⟨0xFF800000#32, 0x04000000#32, none⟩
  | .readBurst _ _ _ => ⟨0xFF8000FF#32, 0x05000000#32, none⟩
  | .accInit _ => ⟨0xFFFEFFFF#32, 0x10000000#32, some .acc⟩
  | .accSetOdr _ => ⟨0xFF00FFFF#32, 0x11000000#32, some .acc⟩
  | .accGetOdr => ⟨0xFFFFFFFF#32, 0x12000000#32, some .acc⟩
  | .accSetPowerMode _ => ⟨0xFF00FFFF#32, 0x13000000#32, some .acc⟩
  | .accGetPowerMode => ⟨0xFFFFFFFF#32, 0x14000000#32, some .acc⟩
  | .accSetFullScale _ => ⟨0xFF00FFFF#32, 0x15000000#32, some .acc⟩
  | .accGetFullScale => ⟨0xFFFFFFFF#32, 0x16000000#32, some .acc⟩
  | .accSetHighRes _ => ⟨0xFFFEFFFF#32, 0x17000000#32, some .acc⟩
  | .accGetHighRes => ⟨0xFFFFFFFF#32, 0x18000000#32, some .acc⟩
  | .accSetHpfMode _ => ⟨0xFF00FFFF#32, 0x19000000#32, some .acc⟩
  | .accGetHpfMode => ⟨0xFFFFFFFF#32, 0x1A000000#32, some .acc⟩
  | .accSetFifoMode _ => ⟨0xFF00FFFF#32, 0x1B000000#32, some .acc⟩
  | .accGetFifoMode => ⟨0xFFFFFFFF#32, 0x1C000000#32, some .acc⟩
  | .accSetFifoWatermark _ => ⟨0xFF00FFFF#32, 0x1D000000#32, some .acc⟩
  | .accGetFifoWatermark => ⟨0xFFFFFFFF#32, 0x1E000000#32, some .acc⟩
  | .accClearFifo => ⟨0xFFFFFFFF#32, 0x1F000000#32, some .acc⟩
  | .accSetDrdyInt _ => ⟨0xFFFEFFFF#32, 0x20000000#32, some .acc⟩
  | .accGetDrdyInt => ⟨0xFFFFFFFF#32, 0x21000000#32, some .acc⟩
  | .accGetOdrHz => ⟨0xFFFFFFFF#32, 0x22000000#32, some .acc⟩
  | .accGetHpfCutoff => ⟨0xFFFFFFFF#32, 0x23000000#32, some .acc⟩
  | .accGetSens => ⟨0xFFFFFFFF#32, 0x24000000#32, some .acc⟩
  | .accReadData16 => ⟨0xFFFFFFFF#32, 0x25000000#32, some .acc⟩
  | .accReadData => ⟨0xFFFFFFFF#32, 0x26000000#32, some .acc⟩
  | .magInit _ => ⟨0xFFFEFFFF#32, 0x30000000#32, some .mag⟩
  | .magSetMode _ => ⟨0xFFFEFFFF#32, 0x31000000#32, some .mag⟩
  | .magGetMode => ⟨0xFFFFFFFF#32, 0x32000000#32, some .mag⟩
  | .magSetOdr _ => ⟨0xFF00FFFF#32, 0x33000000#32, some .mag⟩
  | .magGetOdr => ⟨0xFFFFFFFF#32, 0x34000000#32, some .mag⟩
  | .magSetFullScale _ => ⟨0xFF00FFFF#32, 0x35000000#32, some .mag⟩
  | .magGetFullScale => ⟨0xFFFFFFFF#32, 0x36000000#32, some .mag⟩
  | .magSetTempEn _ => ⟨0xFFFEFFFF#32, 0x37000000#32, some .mag⟩
  | .magGetTempEn => ⟨0xFFFFFFFF#32, 0x38000000#32, some .mag⟩
  | .magGetOdrHz => ⟨0xFFFFFFFF#32, 0x39000000#32, some .mag⟩
  | .magGetSens => ⟨0xFFFFFFFF#32, 0x3A000000#32, some .mag⟩
  | .magReadData16 => ⟨0xFFFFFFFF#32, 0x3B000000#32, some .mag⟩
  | .magReadData => ⟨0xFFFFFFFF#32, 0x3C000000#32, some .mag⟩
  | .magReadTemp16 => ⟨0xFFFFFFFF#32, 0x3D000000#32, some .mag⟩
  | .magReadTemp => ⟨0xFFFFFFFF#32, 0x3E000000#32, some .mag⟩

/-- The word of the command has the fixed bits of its row, on the instance of the row. -/
def Statement (i : Instr) : Prop :=
  encode i &&& (rowOf i).mask = (rowOf i).bits ∧ (rowOf i).only.all (· == i.target) = true

/-- Masking a word masks its four fields. -/
theorem commandWord_and (a b c d p q s t : Byte) :
    commandWord a b c d &&& commandWord p q s t = commandWord (a &&& p) (b &&& q) (c &&& s) (d &&& t) := by
  show ((a ++ b ++ c ++ d : BitVec (8 + 8 + 8 + 8)) &&& (p ++ q ++ s ++ t : BitVec (8 + 8 + 8 + 8))) = _
  rw [BitVec.and_append, BitVec.and_append, BitVec.and_append]
  rfl

theorem indexField_and (r : RegIdx) : indexField r &&& 0x80#8 = 0#8 := by revert r; decide

theorem readReg (i : InstanceId) (r : RegIdx) : Statement (.readReg i r) := by
  refine ⟨?_, by cases i <;> rfl⟩
  show commandWord _ _ _ _ &&& commandWord 0xFF#8 0x80#8 0xFF#8 0xFF#8 = commandWord 0x01#8 0x00#8 0x00#8 0x00#8
  rw [commandWord_and, indexField_and]
  simp
theorem writeReg (i : InstanceId) (r : RegIdx) (v : Byte) : Statement (.writeReg i r v) := by
  refine ⟨?_, by cases i <;> rfl⟩
  show commandWord _ _ _ _ &&& commandWord 0xFF#8 0x80#8 0x00#8 0xFF#8 = commandWord 0x02#8 0x00#8 0x00#8 0x00#8
  rw [commandWord_and, indexField_and]
  simp
theorem readRegMasked (i : InstanceId) (r : RegIdx) (m : Byte) : Statement (.readRegMasked i r m) := by
  refine ⟨?_, by cases i <;> rfl⟩
  show commandWord _ _ _ _ &&& commandWord 0xFF#8 0x80#8 0xFF#8 0x00#8 = commandWord 0x03#8 0x00#8 0x00#8 0x00#8
  rw [commandWord_and, indexField_and]
  simp
theorem updateRegMasked (i : InstanceId) (r : RegIdx) (v : Byte) (m : Byte) : Statement (.updateRegMasked i r v m) := by
  refine ⟨?_, by cases i <;> rfl⟩
  show commandWord _ _ _ _ &&& commandWord 0xFF#8 0x80#8 0x00#8 0x00#8 = commandWord 0x04#8 0x00#8 0x00#8 0x00#8
  rw [commandWord_and, indexField_and]
  simp
theorem readBurst (i : InstanceId) (r : RegIdx) (n : Byte) : Statement (.readBurst i r n) := by
  refine ⟨?_, by cases i <;> rfl⟩
  show commandWord _ _ _ _ &&& commandWord 0xFF#8 0x80#8 0x00#8 0xFF#8 = commandWord 0x05#8 0x00#8 0x00#8 0x00#8
  rw [commandWord_and, indexField_and]
  simp
theorem accInit (e : Bool) : Statement (.accInit e) := by
  cases e <;> exact ⟨by decide, rfl⟩
theorem accSetOdr (c : AccOdr) : Statement (.accSetOdr c) := by
  cases c <;> exact ⟨by decide, rfl⟩
theorem accGetOdr : Statement .accGetOdr := ⟨by decide, by decide⟩
theorem accSetPowerMode (pm : PowerMode) : Statement (.accSetPowerMode pm) := by
  cases pm <;> exact ⟨by decide, rfl⟩
theorem accGetPowerMode : Statement .accGetPowerMode := ⟨by decide, by decide⟩
theorem accSetFullScale (fs : AccFs) : Statement (.accSetFullScale fs) := by
  cases fs <;> exact ⟨by decide, rfl⟩
theorem accGetFullScale : Statement .accGetFullScale := ⟨by decide, by decide⟩
theorem accSetHighRes (e : Bool) : Statement (.accSetHighRes e) := by
  cases e <;> exact ⟨by decide, rfl⟩
theorem accGetHighRes : Statement .accGetHighRes := ⟨by decide, by decide⟩
theorem accSetHpfMode (h : HpfMode) : Statement (.accSetHpfMode h) := by
  cases h with
  | off => exact ⟨by decide, rfl⟩
  | cutoff c => exact ⟨by revert c; decide, rfl⟩
theorem accGetHpfMode : Statement .accGetHpfMode := ⟨by decide, by decide⟩
theorem accSetFifoMode (f : FifoMode) : Statement (.accSetFifoMode f) := by
  cases f <;> exact ⟨by decide, rfl⟩
theorem accGetFifoMode : Statement .accGetFifoMode := ⟨by decide, by decide⟩
theorem accSetFifoWatermark (w : Byte) : Statement (.accSetFifoWatermark w) := by
  refine ⟨?_, rfl⟩
  show commandWord _ _ _ _ &&& commandWord 0xFF#8 0x00#8 0xFF#8 0xFF#8 = commandWord 0x1D#8 0x00#8 0x00#8 0x00#8
  rw [commandWord_and]
  simp
theorem accGetFifoWatermark : Statement .accGetFifoWatermark := ⟨by decide, by decide⟩
theorem accClearFifo : Statement .accClearFifo := ⟨by decide, by decide⟩
theorem accSetDrdyInt (e : Bool) : Statement (.accSetDrdyInt e) := by
  cases e <;> exact ⟨by decide, rfl⟩
theorem accGetDrdyInt : Statement .accGetDrdyInt := ⟨by decide, by decide⟩
theorem accGetOdrHz : Statement .accGetOdrHz := ⟨by decide, by decide⟩
theorem accGetHpfCutoff : Statement .accGetHpfCutoff := ⟨by decide, by decide⟩
theorem accGetSens : Statement .accGetSens := ⟨by decide, by decide⟩
theorem accReadData16 : Statement .accReadData16 := ⟨by decide, by decide⟩
theorem accReadData : Statement .accReadData := ⟨by decide, by decide⟩
theorem magInit (e : Bool) : Statement (.magInit e) := by
  cases e <;> exact ⟨by decide, rfl⟩
theorem magSetMode (e : Bool) : Statement (.magSetMode e) := by
  cases e <;> exact ⟨by decide, rfl⟩
theorem magGetMode : Statement .magGetMode := ⟨by decide, by decide⟩
theorem magSetOdr (d : MagOdr) : Statement (.magSetOdr d) := ⟨by revert d; decide, rfl⟩
theorem magGetOdr : Statement .magGetOdr := ⟨by decide, by decide⟩
theorem magSetFullScale (g : MagFs) : Statement (.magSetFullScale g) := by
  cases g <;> exact ⟨by decide, rfl⟩
theorem magGetFullScale : Statement .magGetFullScale := ⟨by decide, by decide⟩
theorem magSetTempEn (e : Bool) : Statement (.magSetTempEn e) := by
  cases e <;> exact ⟨by decide, rfl⟩
theorem magGetTempEn : Statement .magGetTempEn := ⟨by decide, by decide⟩
theorem magGetOdrHz : Statement .magGetOdrHz := ⟨by decide, by decide⟩
theorem magGetSens : Statement .magGetSens := ⟨by decide, by decide⟩
theorem magReadData16 : Statement .magReadData16 := ⟨by decide, by decide⟩
theorem magReadData : Statement .magReadData := ⟨by decide, by decide⟩
theorem magReadTemp16 : Statement .magReadTemp16 := ⟨by decide, by decide⟩
theorem magReadTemp : Statement .magReadTemp := ⟨by decide, by decide⟩

end Sys2Proof.Laws.OpcodeRow
end

