-- ==== Sys2Proof/Tests/Slice0.lean ====
section
/-! SUPPORT. Small tests: words written out from the encoding, one step at a time on small states, with the expected results of
95_test_vectors.md, and for every statement with hypotheses a state and operands that meet them. -/

namespace Sys2Proof.Tests

open Sys2Proof Sys2Proof.Machine

/-! ### Small states -/

/-- A register-file device with the given registers. -/
def file (regs : List Host.Cell) : RegFile := ⟨regs, 0#7, false⟩

/-- The machine after reset with a device behind the ACC instance. -/
def accWith (d : Device) : State := { State.reset with acc := { State.reset.acc with device := d } }

/-- The machine after reset with a device behind the MAG instance. -/
def magWith (d : Device) : State := { State.reset with mag := { State.reset.mag with device := d } }

/-- The machine after reset with a register-file device behind the ACC instance. -/
def onAcc (regs : List Host.Cell) : State := accWith (.regFile (file regs))

/-- The machine after reset with a register-file device behind the MAG instance. -/
def onMag (regs : List Host.Cell) : State := magWith (.regFile (file regs))

/-- One byte, answered `ok`. -/
def byteIs (b : Byte) : Answer := .ok [b]

/-- A success without bytes, as to a write. -/
def done : Answer := .ok []

/-- What is seen of the state after a command; none where there is no next state. -/
def after {α : Type} (o : Host.Outcome State Fault Refusal) (f : State → α) : Option α :=
  match o with
  | .next t => some (f t)
  | .fault _ | .refused _ => none

/-- STATUS and RESULT of the instance of a command after it. -/
def ends (c : Instr) (s : State) : Option (Option Status × Option ResultData) :=
  after (exec c s) fun t => ((t.block c.target).status, (t.block c.target).result)

/-- The history of the instance of a command after it. -/
def story (c : Instr) (s : State) : Option (List Transaction) := after (exec c s) fun t => (t.block c.target).history

/-- A register of the register-file device behind an instance. -/
def held (i : InstanceId) (r : RegIdx) (s : State) : Option Byte :=
  match (s.block i).device with
  | .regFile rf => some (regOf rf r)
  | .oracle _ => none

/-- STATUS after a command and a register of its device. -/
def leaves (c : Instr) (s : State) (r : RegIdx) : Option (Option Status × Option Byte) :=
  after (exec c s) fun t => ((t.block c.target).status, held c.target r t)

/-! ### Well-formedness and decoding -/

/-- The one ill-formed command: a burst of length 0 (30_encoding.md R61). -/
theorem test_wf_refuses_empty_burst : (Instr.readBurst .acc 0x28#7 0#8).wf = false := by decide

theorem test_wf_admits_burst : (Instr.readBurst .acc 0x28#7 1#8).wf = true ∧ (Instr.readBurst .mag 0x7F#7 255#8).wf = true := by
  decide

theorem test_decode_helper :
    decode .acc 0x01200000#32 = .ok (.readReg .acc 0x20#7) ∧ decode .mag 0x017F0000#32 = .ok (.readReg .mag 0x7F#7) ∧
    decode .acc 0x02209700#32 = .ok (.writeReg .acc 0x20#7 0x97#8) ∧
    decode .acc 0x032000F0#32 = .ok (.readRegMasked .acc 0x20#7 0xF0#8) ∧
    decode .acc 0x0420A5F0#32 = .ok (.updateRegMasked .acc 0x20#7 0xA5#8 0xF0#8) ∧
    decode .mag 0x05030600#32 = .ok (.readBurst .mag 0x03#7 6#8) := by decide

theorem test_decode_acc_rate_and_power :
    decode .acc 0x10010000#32 = .ok (.accInit true) ∧ decode .acc 0x10000000#32 = .ok (.accInit false) ∧
    decode .acc 0x11820000#32 = .ok (.accSetOdr .hz1620LowPower) ∧ decode .acc 0x11000000#32 = .ok (.accSetOdr .powerDown) ∧
    decode .acc 0x12000000#32 = .ok .accGetOdr ∧ decode .acc 0x13010000#32 = .ok (.accSetPowerMode .lowPower) ∧
    decode .acc 0x14000000#32 = .ok .accGetPowerMode := by decide

theorem test_decode_acc_scale_and_filter :
    decode .acc 0x15030000#32 = .ok (.accSetFullScale .g16) ∧ decode .acc 0x16000000#32 = .ok .accGetFullScale ∧
    decode .acc 0x17010000#32 = .ok (.accSetHighRes true) ∧ decode .acc 0x18000000#32 = .ok .accGetHighRes ∧
    decode .acc 0x19000000#32 = .ok (.accSetHpfMode .off) ∧ decode .acc 0x19040000#32 = .ok (.accSetHpfMode (.cutoff 3#2)) ∧
    decode .acc 0x1A000000#32 = .ok .accGetHpfMode := by decide

theorem test_decode_acc_fifo_and_interrupt :
    decode .acc 0x1B010000#32 = .ok (.accSetFifoMode .stream) ∧ decode .acc 0x1C000000#32 = .ok .accGetFifoMode ∧
    decode .acc 0x1D200000#32 = .ok (.accSetFifoWatermark 32#8) ∧ decode .acc 0x1E000000#32 = .ok .accGetFifoWatermark ∧
    decode .acc 0x1F000000#32 = .ok .accClearFifo ∧ decode .acc 0x20010000#32 = .ok (.accSetDrdyInt true) ∧
    decode .acc 0x21000000#32 = .ok .accGetDrdyInt := by decide

theorem test_decode_acc_units_and_samples :
    decode .acc 0x22000000#32 = .ok .accGetOdrHz ∧ decode .acc 0x23000000#32 = .ok .accGetHpfCutoff ∧
    decode .acc 0x24000000#32 = .ok .accGetSens ∧ decode .acc 0x25000000#32 = .ok .accReadData16 ∧
    decode .acc 0x26000000#32 = .ok .accReadData := by decide

theorem test_decode_mag_fields :
    decode .mag 0x30010000#32 = .ok (.magInit true) ∧ decode .mag 0x31000000#32 = .ok (.magSetMode false) ∧
    decode .mag 0x32000000#32 = .ok .magGetMode ∧ decode .mag 0x33070000#32 = .ok (.magSetOdr 7#3) ∧
    decode .mag 0x34000000#32 = .ok .magGetOdr ∧ decode .mag 0x35070000#32 = .ok (.magSetFullScale .g81) ∧
    decode .mag 0x36000000#32 = .ok .magGetFullScale ∧ decode .mag 0x37010000#32 = .ok (.magSetTempEn true) ∧
    decode .mag 0x38000000#32 = .ok .magGetTempEn := by decide

theorem test_decode_mag_units_and_samples :
    decode .mag 0x39000000#32 = .ok .magGetOdrHz ∧ decode .mag 0x3A000000#32 = .ok .magGetSens ∧
    decode .mag 0x3B000000#32 = .ok .magReadData16 ∧ decode .mag 0x3C000000#32 = .ok .magReadData ∧
    decode .mag 0x3D000000#32 = .ok .magReadTemp16 ∧ decode .mag 0x3E000000#32 = .ok .magReadTemp := by decide

/-- 95_test_vectors.md section 2.1. -/
theorem test_decode_refuses_codes_and_instances :
    decode .acc 0x00000000#32 = .error .unknownOp ∧ decode .acc 0x06000000#32 = .error .unknownOp ∧
    decode .acc 0x27000000#32 = .error .unknownOp ∧ decode .mag 0x3F000000#32 = .error .unknownOp ∧
    decode .acc 0xFF000000#32 = .error .unknownOp ∧ decode .mag 0x10010000#32 = .error .wrongInstance ∧
    decode .acc 0x3C000000#32 = .error .wrongInstance ∧ decode .acc 0x31020000#32 = .error .wrongInstance := by decide

/-- 95_test_vectors.md section 2.1. -/
theorem test_decode_refuses_reserved_bits :
    decode .acc 0x01200001#32 = .error .reservedNonzero ∧ decode .acc 0x12000100#32 = .error .reservedNonzero ∧
    decode .acc 0x10020001#32 = .error .reservedNonzero ∧ decode .acc 0x01A00000#32 = .error .reservedNonzero ∧
    decode .acc 0x05A80600#32 = .error .reservedNonzero := by decide

/-- 95_test_vectors.md section 2.1. -/
theorem test_decode_refuses_arguments :
    decode .acc 0x10020000#32 = .error .badArgument ∧ decode .acc 0x17020000#32 = .error .badArgument ∧
    decode .acc 0x11140000#32 = .error .badArgument ∧ decode .acc 0x11830000#32 = .error .badArgument ∧
    decode .acc 0x13020000#32 = .error .badArgument ∧ decode .acc 0x15040000#32 = .error .badArgument ∧
    decode .acc 0x19050000#32 = .error .badArgument ∧ decode .acc 0x1B020000#32 = .error .badArgument ∧
    decode .acc 0x05280000#32 = .error .badArgument ∧ decode .mag 0x35000000#32 = .error .badArgument ∧
    decode .mag 0x35080000#32 = .error .badArgument ∧ decode .mag 0x33080000#32 = .error .badArgument := by decide

/-- 30_encoding.md R82. -/
theorem test_assemble_line :
    assembleLine "ACC.UPDATE_REG_MASKED 0x20, 0x57, 0xF7" = .command ⟨.acc, 0x042057F7#32⟩ ∧
    assembleLine "  ; a comment" = .blank ∧ assembleLine "MAG.SET_ODR" = .malformed := by decide +kernel

/-! ### The helper commands (95_test_vectors.md section 2.2) -/

theorem test_readReg :
    ends (.readReg .acc 0x7F#7) (onAcc [(0x7F, 0xAA#8)]) = some (some .ok, some (.byte 0xAA#8)) ∧
    story (.readReg .acc 0x7F#7) (onAcc [(0x7F, 0xAA#8)]) =
      some [⟨.write 0x32#8 [0x7F#8] true, .ok, []⟩, ⟨.read 0x32#8 1, .ok, [0xAA#8]⟩] := by decide

theorem test_readReg_bus_errors :
    ends (.readReg .acc 0x20#7) (accWith (.oracle [.err])) = some (some (.busError .write 0x20#8), none) ∧
    ends (.readReg .acc 0x20#7) (accWith (.oracle [done, .err])) = some (some (.busError .read 0x20#8), none) := by decide

theorem test_writeReg :
    leaves (.writeReg .acc 0x20#7 0x97#8) (onAcc [(0x20, 0x0F#8)]) 0x20#7 = some (some .ok, some 0x97#8) ∧
    story (.writeReg .mag 0x02#7 0x03#8) (onMag []) = some [⟨.write 0x3C#8 [0x02#8, 0x03#8] false, .ok, []⟩] := by decide

theorem test_readRegMasked_keeps_place :
    ends (.readRegMasked .acc 0x20#7 0xF0#8) (onAcc [(0x20, 0x5F#8)]) = some (some .ok, some (.byte 0x50#8)) := by decide

theorem test_updateRegMasked :
    leaves (.updateRegMasked .acc 0x20#7 0xA5#8 0xF0#8) (onAcc [(0x20, 0x0F#8)]) 0x20#7 = some (some .ok, some 0xAF#8) ∧
    story (.updateRegMasked .acc 0x20#7 0xFF#8 0x00#8) (onAcc [(0x20, 0x0F#8)]) =
      some [⟨.write 0x32#8 [0x20#8] true, .ok, []⟩, ⟨.read 0x32#8 1, .ok, [0x0F#8]⟩,
        ⟨.write 0x32#8 [0x20#8, 0x0F#8] false, .ok, []⟩] := by decide

theorem test_readBurst :
    ends (.readBurst .acc 0x7F#7 3#8) (onAcc [(0x00, 0xBB#8), (0x01, 0xCC#8), (0x7F, 0xAA#8)]) =
      some (some .ok, some (.bytes [0xAA#8, 0xBB#8, 0xCC#8])) ∧
    ends (.readBurst .acc 0x28#7 6#8) (accWith (.oracle [done, .err])) = some (some (.busError .read 0xA8#8), none) := by decide

/-! ### The accelerometer codec (95_test_vectors.md section 2.3) -/

theorem test_accGetOdr :
    ends .accGetOdr (onAcc [(0x20, 0x8F#8)]) = some (some .ok, some (.code 0x82#8)) ∧
    ends .accGetOdr (onAcc [(0x20, 0x87#8)]) = some (some (.unreachableDecode 0x20#7 0x87#8), none) := by decide

theorem test_accSetOdr_power_down_and_invalid :
    leaves (.accSetOdr .powerDown) (onAcc [(0x20, 0x57#8)]) 0x20#7 = some (some .ok, some 0x07#8) ∧
    ends (.accSetOdr .hz1620LowPower) (onAcc [(0x20, 0x57#8)]) =
      some (some (.invalidConfig (.odr .hz1620LowPower .normal)), none) := by decide

/-- Leaving power-down drains: the status read and the burst. -/
theorem test_accSetOdr_drains :
    leaves (.accSetOdr .hz1620LowPower) (onAcc [(0x20, 0x08#8), (0x27, 0x08#8)]) 0x20#7 = some (some .ok, some 0x8F#8) ∧
    (story (.accSetOdr .hz1620LowPower) (onAcc [(0x20, 0x08#8), (0x27, 0x08#8)])).map (·.map (·.req)) =
      some [.write 0x32#8 [0x20#8] true, .read 0x32#8 1, .write 0x32#8 [0x20#8] true, .read 0x32#8 1, .write 0x32#8 [0x27#8] true,
        .read 0x32#8 1, .write 0x32#8 [0xA8#8] true, .read 0x32#8 6, .write 0x32#8 [0x20#8] true, .read 0x32#8 1,
        .write 0x32#8 [0x20#8, 0x8F#8] false] := by decide

theorem test_accSetPowerMode : leaves (.accSetPowerMode .lowPower) (onAcc [(0x20, 0x57#8)]) 0x20#7 = some (some .ok, some 0x5F#8) := by
  decide

theorem test_accGetPowerMode : ends .accGetPowerMode (onAcc [(0x20, 0x5F#8)]) = some (some .ok, some (.code 1#8)) := by decide

theorem test_accSetFullScale :
    leaves (.accSetFullScale .g16) (onAcc [(0x23, 0xC0#8)]) 0x23#7 = some (some .ok, some 0xF0#8) ∧
    after (exec (.accSetFullScale .g16) (onAcc [(0x23, 0xC0#8)])) (·.sensAcc) = some (some 0x3DF1021C) := by decide +kernel

/-- A failed write leaves the cache UNSET, a failed read does not (95_test_vectors.md section 2.5). -/
theorem test_accSetFullScale_bus_errors :
    after (exec (.accSetFullScale .g4) { accWith (.oracle [done, byteIs 0x08#8, .err]) with sensAcc := some 0x3C20AC13 })
      (·.sensAcc) = some none ∧
    after (exec (.accSetFullScale .g4) { accWith (.oracle [done, .err]) with sensAcc := some 0x3C20AC13 })
      (·.sensAcc) = some (some 0x3C20AC13) := by decide

theorem test_accGetFullScale : ends .accGetFullScale (onAcc [(0x23, 0x38#8)]) = some (some .ok, some (.code 3#8)) := by decide

theorem test_accSetHighRes : leaves (.accSetHighRes true) (onAcc [(0x23, 0x20#8)]) 0x23#7 = some (some .ok, some 0x28#8) := by decide

theorem test_accGetHighRes : ends .accGetHighRes (onAcc [(0x23, 0x28#8)]) = some (some .ok, some (.bool true)) := by decide

theorem test_accSetHpfMode :
    leaves (.accSetHpfMode .off) (onAcc [(0x21, 0x38#8)]) 0x21#7 = some (some .ok, some 0x30#8) ∧
    leaves (.accSetHpfMode (.cutoff 3#2)) (onAcc [(0x21, 0xC0#8)]) 0x21#7 = some (some .ok, some 0xF8#8) := by decide

theorem test_accGetHpfMode :
    ends .accGetHpfMode (onAcc [(0x21, 0x38#8)]) = some (some .ok, some (.code 4#8)) ∧
    ends .accGetHpfMode (onAcc [(0x21, 0x30#8)]) = some (some .ok, some (.code 0#8)) := by decide

/-- Program P4: the routing moves from the data-ready bit to the watermark bit with the stream mode. -/
theorem test_accSetFifoMode :
    leaves (.accSetFifoMode .stream) (onAcc [(0x22, 0x10#8)]) 0x22#7 = some (some .ok, some 0x04#8) ∧
    leaves (.accSetFifoMode .stream) (onAcc [(0x2E, 0x10#8)]) 0x2E#7 = some (some .ok, some 0x90#8) := by decide

theorem test_accGetFifoMode :
    ends .accGetFifoMode (onAcc [(0x24, 0x40#8), (0x2E, 0x80#8)]) = some (some .ok, some (.code 1#8)) ∧
    ends .accGetFifoMode (onAcc [(0x24, 0x40#8), (0x2E, 0x40#8)]) = some (some (.unreachableDecode 0x2E#7 0x40#8), none) := by decide

/-- 95_test_vectors.md V-L5. -/
theorem test_accSetFifoWatermark :
    leaves (.accSetFifoWatermark 31#8) (onAcc [(0x2E, 0x80#8)]) 0x2E#7 = some (some .ok, some 0x9F#8) ∧
    story (.accSetFifoWatermark 32#8) (onAcc []) = some [] ∧
    ends (.accSetFifoWatermark 32#8) (onAcc []) = some (some (.invalidConfig (.watermark 32#8)), none) := by decide

theorem test_accGetFifoWatermark : ends .accGetFifoWatermark (onAcc [(0x2E, 0x9F#8)]) = some (some .ok, some (.byte 31#8)) := by decide

theorem test_accClearFifo :
    leaves .accClearFifo (onAcc [(0x2E, 0xC0#8)]) 0x2E#7 = some (some .ok, some 0xC0#8) ∧
    (story .accClearFifo (onAcc [(0x2E, 0xC0#8)])).map (·.map (·.req)) =
      some [.write 0x32#8 [0x2E#8] true, .read 0x32#8 1, .write 0x32#8 [0x2E#8] true, .read 0x32#8 1,
        .write 0x32#8 [0x2E#8, 0x00#8] false, .write 0x32#8 [0x2E#8] true, .read 0x32#8 1,
        .write 0x32#8 [0x2E#8, 0xC0#8] false] := by decide

theorem test_accSetDrdyInt :
    leaves (.accSetDrdyInt true) (onAcc [(0x22, 0xFF#8)]) 0x22#7 = some (some .ok, some 0xFB#8) ∧
    leaves (.accSetDrdyInt false) (onAcc [(0x22, 0xFF#8)]) 0x22#7 = some (some .ok, some 0xEB#8) := by decide

theorem test_accGetDrdyInt :
    ends .accGetDrdyInt (onAcc [(0x22, 0x04#8)]) = some (some .ok, some (.bool true)) ∧
    ends .accGetDrdyInt (onAcc [(0x22, 0xEB#8)]) = some (some .ok, some (.bool false)) := by decide

/-- Program P1 in its end state, and a wrong identity. -/
theorem test_accInit :
    leaves (.accInit true) (onAcc [(0x0F, 0x33#8), (0x20, 0x07#8)]) 0x20#7 = some (some .ok, some 0x57#8) ∧
    ends (.accInit true) (onAcc [(0x0F, 0x32#8)]) = some (some (.initFailed .idMismatch 0x0F#7 0x32#8), none) := by decide +kernel

/-- The history of `ACC.INIT 0` (95_test_vectors.md section 2.3): its address writes and register writes. -/
theorem test_accInit_history :
    (story (.accInit false) (onAcc [(0x0F, 0x33#8), (0x20, 0x57#8), (0x23, 0x08#8)])).map (·.filterMap fun t =>
        match t.req with
        | .write _ bytes _ => some bytes
        | .read _ _ => none) =
      some [[0x0F#8], [0x24#8], [0x24#8, 0x80#8], [0x24#8], [0x24#8, 0x00#8], [0x22#8], [0x22#8, 0x00#8], [0x24#8], [0x24#8, 0x00#8],
        [0x2E#8], [0x2E#8, 0x00#8], [0x22#8], [0x2E#8], [0x2E#8, 0x00#8], [0x23#8], [0x23#8, 0x08#8], [0x21#8], [0x21#8, 0x00#8],
        [0x23#8], [0x23#8, 0x08#8], [0x20#8], [0x20#8, 0x57#8], [0x27#8], [0x20#8], [0x20#8], [0x20#8, 0x07#8], [0x20#8]] := by
  decide +kernel

/-! ### The magnetometer codec (95_test_vectors.md section 2.4) -/

theorem test_magInit :
    leaves (.magInit false) (onMag [(0x0A, 0x48#8), (0x0B, 0x34#8), (0x0C, 0x33#8)]) 0x02#7 = some (some .ok, some 0x03#8) ∧
    ends (.magInit true) (onMag [(0x0A, 0x48#8), (0x0B, 0x35#8), (0x0C, 0x33#8)]) =
      some (some (.initFailed .idMismatch 0x0B#7 0x35#8), none) := by decide +kernel

theorem test_magSetMode :
    leaves (.magSetMode false) (onMag [(0x02, 0xFC#8)]) 0x02#7 = some (some .ok, some 0xFF#8) ∧
    leaves (.magSetMode true) (onMag [(0x02, 0x03#8)]) 0x02#7 = some (some .ok, some 0x00#8) := by decide

theorem test_magGetMode :
    ends .magGetMode (onMag [(0x02, 0xFD#8)]) = some (some .ok, some (.code 1#8)) ∧
    ends .magGetMode (onMag [(0x02, 0xFE#8)]) = some (some .ok, some (.code 0#8)) := by decide

theorem test_magSetOdr : leaves (.magSetOdr 0#3) (onMag [(0x00, 0xFF#8)]) 0x00#7 = some (some .ok, some 0xE3#8) := by decide

theorem test_magGetOdr : ends .magGetOdr (onMag [(0x00, 0x9C#8)]) = some (some .ok, some (.code 7#8)) := by decide

theorem test_magSetFullScale :
    leaves (.magSetFullScale .g81) (onMag [(0x01, 0x1F#8)]) 0x01#7 = some (some .ok, some 0xFF#8) ∧
    after (exec (.magSetFullScale .g81) (onMag [(0x01, 0x1F#8)])) (fun t => (t.sensMagXY, t.sensMagZ)) =
      some (some 0x3B8E7835, some 0x3B9FD80A) := by decide +kernel

theorem test_magGetFullScale :
    ends .magGetFullScale (onMag [(0x01, 0x20#8)]) = some (some .ok, some (.code 1#8)) ∧
    ends .magGetFullScale (onMag [(0x01, 0x1F#8)]) = some (some (.unreachableDecode 0x01#7 0x00#8), none) := by decide

theorem test_magSetTempEn : leaves (.magSetTempEn true) (onMag [(0x00, 0x10#8)]) 0x00#7 = some (some .ok, some 0x90#8) := by decide

theorem test_magGetTempEn : ends .magGetTempEn (onMag [(0x00, 0x90#8)]) = some (some .ok, some (.bool true)) := by decide

/-! ### Units and samples (95_test_vectors.md sections 1, 2.5 and 2.6) -/

theorem test_accGetOdrHz : ends .accGetOdrHz (onAcc [(0x20, 0x9F#8)]) = some (some .ok, some (.float 0x45A80000)) := by decide +kernel

theorem test_magGetOdrHz : ends .magGetOdrHz (onMag []) = some (some .ok, some (.float 0x3F400000)) := by decide +kernel

/-- V-L1, given the value of the logarithm that D9 names: the correctly rounded one of 0.94. -/
theorem test_accGetHpfCutoff (h : fln binary32 0x3F70A3D7 = 0xBD7D7111) :
    ends .accGetHpfCutoff (onAcc [(0x20, 0x77#8), (0x21, 0x18#8)]) = some (some .ok, some (.float 0x407C1A63)) := by
  have arg : hpfLnArgument binary32 1#2 = 0x3F70A3D7 := by decide +kernel
  have key : hpfCutoffHz binary32 0x40490FDB 1#2 0x43C80000 = 0x407C1A63 := by
    unfold hpfCutoffHz
    rw [arg, h]
    decide +kernel
  rw [← key]
  rfl

/-- At power-down the cutoff is +0.0 with the filter on, whatever the logarithm is (90_conflicts.md C8). -/
theorem test_accGetHpfCutoff_power_down :
    ends .accGetHpfCutoff (onAcc [(0x20, 0x07#8), (0x21, 0x38#8)]) = some (some .ok, some (.float 0)) := by
  have key : hpfCutoffHz binary32 0x40490FDB 3#2 0 = 0 := hpfCutoffHz_zero _ (by decide +kernel) _
  have e : ends .accGetHpfCutoff (onAcc [(0x20, 0x07#8), (0x21, 0x38#8)]) =
      some (some .ok, some (.float (hpfCutoffHz binary32 0x40490FDB 3#2 0))) := rfl
  rw [e, key]

theorem test_accGetHpfCutoff_off :
    ends .accGetHpfCutoff (onAcc [(0x20, 0x77#8), (0x21, 0x10#8)]) = some (some .ok, some (.float 0x00000000)) := by decide

theorem test_accGetSens :
    ends .accGetSens State.reset = some (some (.cacheUnset .sensAcc), none) ∧ story .accGetSens State.reset = some [] ∧
    ends .accGetSens { State.reset with sensAcc := some 0x3C20AC13 } = some (some .ok, some (.float 0x3C20AC13)) := by decide

theorem test_magGetSens :
    ends .magGetSens { State.reset with sensMagXY := some 0x3A6E500F, sensMagZ := some 0x3A85BF37 } =
      some (some .ok, some (.floats 0x3A6E500F 0x3A6E500F 0x3A85BF37)) := by decide

theorem test_accReadData16 :
    ends .accReadData16 (onAcc [(0x28, 0xF0#8), (0x29, 0x7F#8), (0x2A, 0x0F#8), (0x2B, 0xFF#8), (0x2D, 0x80#8)]) =
      some (some .ok, some (.ints 2047 (-16) (-2048))) := by decide

/-- V-L2 at ±16 g: 83 and 84 units are the nearest to 1 g. -/
theorem test_accReadData :
    ends .accReadData { onAcc [(0x2C, 0x30#8), (0x2D, 0x05#8)] with sensAcc := some 0x3DF1021C } =
      some (some .ok, some (.floats 0x00000000 0x00000000 0x411C475E)) := by decide +kernel

theorem test_magReadData16 :
    ends .magReadData16 (onMag [(0x03, 0x80#8), (0x05, 0x7F#8), (0x06, 0xFF#8)]) =
      some (some .ok, some (.ints (-32768) 0 32767)) := by decide

/-- V-L7, the first sample. -/
theorem test_magReadData :
    ends .magReadData { onMag [(0x03, 0x04#8), (0x04, 0x4C#8), (0x05, 0xFB#8), (0x06, 0xB4#8), (0x07, 0x03#8), (0x08, 0xD4#8)] with
        sensMagXY := some 0x3A6E500F, sensMagZ := some 0x3A85BF37 } =
      some (some .ok, some (.floats 0x3F800000 0x3F64129E 0xBF8FAC68)) := by decide +kernel

theorem test_magReadTemp16 : ends .magReadTemp16 (onMag [(0x31, 0xFF#8), (0x32, 0xF0#8)]) = some (some .ok, some (.int (-1))) := by decide

theorem test_magReadTemp :
    ends .magReadTemp (onMag [(0x31, 0x80#8)]) = some (some .ok, some (.float 0xC2D60000)) ∧
    ends .magReadTemp (onMag [(0x31, 0xFF#8), (0x32, 0xF0#8)]) = some (some .ok, some (.float 0x41A78000)) := by decide +kernel

/-- IEEE 754 binary64 as `FLOAT_FMT`; the expected bits are those of binary64 arithmetic. -/
def binary64 : FloatFmt := ⟨11, 52, .nearestEven⟩

theorem test_binary64 :
    earthGravity binary64 = 0x40239D013A92A305 ∧ accSens binary64 .g16 = 0x3FBE20436C665AA8 ∧
    ends .magReadTemp { onMag [(0x31, 0x80#8)] with params := { defaultParams with floatFmt := binary64 } } =
      some (some .ok, some (.float 0xC05AC00000000000)) := by decide +kernel

/-- 1/980 lies between 0x3A85BF37, which is nearest, and 0x3A85BF38. -/
theorem test_directed_rounding :
    fdiv ⟨8, 23, .towardZero⟩ (fconst binary32 1 1) (fconst binary32 980 1) = 0x3A85BF37 ∧
    fdiv ⟨8, 23, .towardPositive⟩ (fconst binary32 1 1) (fconst binary32 980 1) = 0x3A85BF38 ∧
    fdiv ⟨8, 23, .towardPositive⟩ (fneg binary32 (fconst binary32 1 1)) (fconst binary32 980 1) = 0xBA85BF37 ∧
    fdiv ⟨8, 23, .towardNegative⟩ (fneg binary32 (fconst binary32 1 1)) (fconst binary32 980 1) = 0xBA85BF38 := by decide +kernel

/-- 980 units times the rounded reciprocal of 980 is just below 1 (95_test_vectors.md section 2.6). -/
theorem test_product_with_the_cache : fmul binary32 (fofInt binary32 980) 0x3A85BF37 = 0x3F7FFFFF := by decide +kernel

/-! ### The step -/

/-- 95_test_vectors.md section 2.1: a refused word makes its instance stuck and leaves the other running (60_exceptions.md R216). -/
theorem test_step_refuses_word :
    after (step ((onMag []).withFetchWord 32 0x06000000)) (fun t => (t.acc.status, t.acc.refused, accepts t .acc, accepts t .mag)) =
      some (some (.refused .unknownOp), true, false, true) := by decide

theorem test_step_runs_word :
    after (step ((onMag [(0x00, 0x9C#8)]).withFetchWord 32 0x34000000)) (fun t => (t.mag.status, t.mag.result, t.pending)) =
      some (some .ok, some (.code 7#8), []) := by decide

/-! ### States and operands that meet the hypotheses of the statements -/

/-- Instance `i` accepts a command and its device answers `log`. -/
def Met (s : State) (i : InstanceId) (log : List Transaction) : Prop := accepts s i = true ∧ ∃ dev k, Answers s i log dev k

theorem met {s : State} {i : InstanceId} {log : List Transaction}
    (h : (accepts s i && (answersFrom (s.block i).device s.draws (s.block i).history log).isSome) = true) : Met s i log := by
  rw [Bool.and_eq_true] at h
  obtain ⟨⟨dev, k⟩, e⟩ := Option.isSome_iff_exists.mp h.2
  exact ⟨h.1, dev, k, e⟩

/-- A next state that satisfies what is asked of it. -/
theorem next_of {o : Host.Outcome State Fault Refusal} {p : State → Bool} (h : after o p = some true) :
    ∃ t, o = .next t ∧ p t = true := by
  cases o with
  | next t => exact ⟨t, rfl, by simpa [after] using h⟩
  | fault _ => cases h
  | refused _ => cases h

/-- A device that answers a read of one byte. -/
def reading (b : Byte) : Device := .oracle [done, byteIs b]

/-- A device that answers a masked update. -/
def updating (old : Byte) : Device := .oracle [done, byteIs old, done]

/-- The register read of an instance, in state `s`. -/
def readOf (s : State) (i : InstanceId) (r : RegIdx) (bs : List Byte) : List Transaction := readLog (s.block i).dev8 (0#1 ++ r) bs

/-- The burst of an instance, in state `s`. -/
def burstOf (s : State) (i : InstanceId) (r : RegIdx) (bs : List Byte) : List Transaction := readLog (s.block i).dev8 (1#1 ++ r) bs

/-- The masked update of an instance, in state `s`. -/
def updateOf (s : State) (i : InstanceId) (r : RegIdx) (old v m : Byte) : List Transaction :=
  updateLog (s.block i).dev8 r old (merged old v m)

/-- Both ways in which a read of `n` bytes at the address byte `a` fails are met on both instances. -/
def FailuresMet (a : Byte) (n : Nat) : Prop :=
  Met (accWith (.oracle [.err])) .acc (addressLog 0x32#8 a .err) ∧ Met (accWith (.oracle [done, .err])) .acc (failedReadLog 0x32#8 a n .err) ∧
  Met (magWith (.oracle [.err])) .mag (addressLog 0x3C#8 a .err) ∧ Met (magWith (.oracle [done, .err])) .mag (failedReadLog 0x3C#8 a n .err)

theorem failures_met (a : Byte) (n : Nat) : FailuresMet a n :=
  ⟨⟨rfl, .oracle [], 1, rfl⟩, ⟨rfl, .oracle [], 2, rfl⟩, ⟨rfl, .oracle [], 1, rfl⟩, ⟨rfl, .oracle [], 2, rfl⟩⟩

/-- The failing write of a masked update is met on both instances. -/
def FailedUpdateMet (r : RegIdx) (old v m : Byte) : Prop :=
  Met (accWith (.oracle [done, byteIs old, .err])) .acc (failedUpdateLog 0x32#8 r old (merged old v m) .err) ∧
  Met (magWith (.oracle [done, byteIs old, .err])) .mag (failedUpdateLog 0x3C#8 r old (merged old v m) .err)

theorem failedUpdate_met (r : RegIdx) (old v m : Byte) : FailedUpdateMet r old v m := by
  refine ⟨⟨rfl, .oracle [], 3, ?_⟩, ⟨rfl, .oracle [], 3, ?_⟩⟩ <;>
    simp [Answers, failedUpdateLog, readLog, answersFrom, respond, oracleResponse, oracleBytes, accWith, magWith, State.block, done,
      byteIs, Answer.status, Answer.data, State.reset]

/-- An instance right after construction meets the invariant, whatever its device. -/
theorem constructed_inv (i : InstanceId) (d : Device) (h : ∀ rf, d = .regFile rf → rf.reg.wf = true) :
    BlockInv i { Block.constructed (boundAddress i) with device := d } := by
  refine ⟨rfl, fun e => absurd rfl e, ?_, ?_, ?_, ?_, h⟩ <;> simp [Block.constructed]

theorem witness_StepKeepsInvariant :
    ∃ s t, MachineInv s ∧ step s = .next t ∧ t.mag.status = some .ok ∧ t.mag.history ≠ [] := by
  let s := (onMag [(0x00, 0x9C#8)]).withFetchWord 32 0x34000000
  have inv : MachineInv s := by
    refine ⟨by decide +kernel, constructed_inv .acc (.oracle []) (by simp), constructed_inv .mag (.regFile (file [(0x00, 0x9C#8)])) ?_,
      ?_, Or.inl ⟨rfl, rfl⟩⟩
    · rintro rf h
      cases h
      decide
    · intro v h
      cases h
  obtain ⟨t, h, ht⟩ := next_of (o := step s) (p := fun t => t.mag.status == some .ok && t.mag.history != []) (by decide)
  rw [Bool.and_eq_true] at ht
  exact ⟨s, t, inv, h, by simpa using ht.1, by simpa using ht.2⟩

theorem witness_DecodeOfEncode : (Instr.readBurst .mag 0x7F#7 255#8).wf = true ∧ (Instr.accSetHpfMode (.cutoff 3#2)).wf = true := by
  decide

theorem witness_EncodeOfDecode : decode .mag 0x33070000#32 = .ok (.magSetOdr 7#3) ∧
    decode .acc 0x05280100#32 = .ok (.readBurst .acc 0x28#7 1#8) := by decide

/-- A state with a command pending at a faulted instance before one at the other. -/
def twoPending : State :=
  { onMag [] with
    acc := { State.reset.acc with status := some (.cacheUnset .sensAcc), faulted := true }
    pending := [⟨.acc, 0x12000000#32⟩, ⟨.mag, 0x34000000#32⟩, ⟨.mag, 0x32000000#32⟩] }

theorem witness_StepRunsDecodedCommand :
    twoPending.pending = [⟨.acc, 0x12000000#32⟩] ++ ⟨.mag, 0x34000000#32⟩ :: [⟨.mag, 0x32000000#32⟩] ∧
    (∀ d ∈ [(⟨.acc, 0x12000000#32⟩ : Command)], accepts twoPending d.target = false) ∧ accepts twoPending .mag = true ∧
    decode .mag 0x34000000#32 = .ok .magGetOdr := by decide

theorem witness_RefusedWordIsRefused :
    (present ⟨.acc, 0x01A00000#32⟩ State.reset).pending = [⟨.acc, 0x01A00000#32⟩] ∧
    accepts (present ⟨.acc, 0x01A00000#32⟩ State.reset) .acc = true ∧ decode .acc 0x01A00000#32 = .error .reservedNonzero := by decide

theorem witness_StepWaitsOrIsStuck :
    State.reset.pending = [] ∧
    ({ twoPending with pending := [⟨.acc, 0x12000000#32⟩] }.pending = [⟨.acc, 0x12000000#32⟩] ∧
      ∀ d ∈ [(⟨.acc, 0x12000000#32⟩ : Command)], accepts { twoPending with pending := [⟨.acc, 0x12000000#32⟩] } d.target = false) := by
  decide

theorem witness_PresentedWordRuns :
    decodeTableWord 32 0x3E000000 = some .magReadTemp ∧ accepts State.reset Instr.magReadTemp.target = true ∧
    decodeTableWord 32 0x05280100 = some (.readBurst .acc 0x28#7 1#8) := by decide

theorem witness_StuckInstanceAcceptsNothing :
    ({ State.reset.acc with faulted := true }.faulted = true ∧ { State.reset.acc with refused := true }.refused = true ∧
      { State.reset.acc with hung := true }.hung = true) ∧ (twoPending.block Instr.accGetSens.target).faulted = true := by decide

theorem witness_AcceptedCommandEnds :
    accepts State.reset Instr.accGetSens.target = true ∧ accepts (magWith (.oracle [.hang])) Instr.magGetMode.target = true := by decide


theorem witness_InstancesIndependent :
    (∃ t, exec .accGetPowerMode (onAcc [(0x20, 0x5F#8)]) = .next t ∧ InstanceId.mag ≠ Instr.accGetPowerMode.target) ∧
    ∃ t, exec (.magSetFullScale .g81) (onMag []) = .next t ∧ InstanceId.acc ≠ (Instr.magSetFullScale .g81).target :=
  ⟨⟨_, rfl, by decide⟩, ⟨_, rfl, by decide⟩⟩

/-- A writing command, and one that neither writes nor reads the cache. -/
theorem witness_SensAccAccess :
    (∃ t, exec (.accSetFullScale .g4) (onAcc []) = .next t) ∧
    ∃ t, exec .accGetOdr (onAcc []) = .next t ∧ Instr.accGetOdr ≠ .accReadData ∧ Instr.accGetOdr ≠ .accGetSens :=
  ⟨⟨_, rfl⟩, ⟨_, rfl, by decide⟩⟩

/-- A writing command, and one that neither writes nor reads the caches. -/
theorem witness_SensMagAccess :
    (∃ t, exec (.magSetFullScale .g81) (onMag []) = .next t) ∧
    ∃ t, exec .magGetOdr (onMag []) = .next t ∧ Instr.magGetOdr ≠ .magReadData ∧ Instr.magGetOdr ≠ .magGetSens :=
  ⟨⟨_, rfl⟩, ⟨_, rfl, by decide⟩⟩

/-- A read of no byte and of six, both its failures, a write and its failure. -/
theorem witness_AccessFraming :
    Met (onAcc []) .acc (readLog 0x32#8 0x20#8 []) ∧ Met (onAcc [(0x28, 0x5A#8)]) .acc (readLog 0x32#8 0xA8#8 [0x5A#8, 0, 0, 0, 0, 0]) ∧
    FailuresMet 0xFF#8 255 ∧ Met (onAcc []) .acc [⟨.write 0x32#8 [0x20#8, 0x97#8] false, .ok, []⟩] ∧
    Met (magWith (.oracle [.err])) .mag [⟨.write 0x3C#8 [0x02#8, 0x03#8] false, .err, []⟩] :=
  ⟨met (by decide), met (by decide), failures_met _ _, met (by decide), met (by decide)⟩

/-- A command that ends well, one with a failed transaction, and one that hangs. -/
theorem witness_TransactionDiscipline :
    (∃ t, exec .accClearFifo (onAcc []) = .next t ∧ (t.acc.status == some .ok) = true) ∧
    (∃ t, exec .accClearFifo (accWith (.oracle [done, .err])) = .next t ∧ (t.acc.status == some (.busError .read 0x2E#8)) = true) ∧
    ∃ t, exec .accClearFifo (accWith (.oracle [done, .hang])) = .next t ∧ t.acc.hung = true :=
  ⟨next_of (by decide), next_of (by decide), next_of (by decide)⟩

theorem witness_EachTransactionIsOneDraw :
    ((accWith (reading 0x5F#8)).block Instr.accGetPowerMode.target).device = .oracle [done, byteIs 0x5F#8] ∧
    ∃ t, exec .accGetPowerMode (accWith (reading 0x5F#8)) = .next t ∧ t.acc.history.length = 2 :=
  ⟨rfl, _, rfl, rfl⟩

/-- A burst, a sample with its cache set, and a magnetometer sample; a failed and a hanging transaction, first and second. -/
theorem witness_FirstReadFails :
    firstRead defaultRegMap (.readBurst .mag 0x7F#7 255#8) = some (0xFF#8, 255) ∧
    (cachesSetFor { State.reset with sensAcc := some 0x3C20AC13 } .accReadData ∧
      firstRead defaultRegMap .accReadData = some (0xA8#8, 6)) ∧
    (cachesSetFor { State.reset with sensMagXY := some 0, sensMagZ := some 0 } .magReadData ∧
      firstRead defaultRegMap .magReadData = some (0x83#8, 6)) ∧
    FailuresMet 0xA8#8 6 ∧ Met (accWith (.oracle [.hang])) .acc (addressLog 0x32#8 0x20#8 .hang) ∧
    Met (magWith (.oracle [done, .hang])) .mag (failedReadLog 0x3C#8 0x83#8 6 .hang) :=
  ⟨by decide, ⟨nofun, by decide⟩, ⟨⟨nofun, nofun⟩, by decide⟩, failures_met _ _, met (by decide), met (by decide)⟩

theorem witness_CodecWritesKeepOtherBits :
    (onAcc [(0x23, 0xC0#8)]).params.regMap = defaultRegMap ∧ (Instr.accSetFullScale .g16).isHelper = false ∧
    ∃ t, exec (.accSetFullScale .g16) (onAcc [(0x23, 0xC0#8)]) = .next t ∧ t.acc.history.length = 3 :=
  ⟨rfl, rfl, _, rfl, rfl⟩

/-- The command ends with the outcome, no transaction hanging. -/
def EndsWith (c : Instr) (s : State) (o : Status) : Prop :=
  s.params = defaultParams ∧
    ∃ t, exec c s = .next t ∧ ((t.block c.target).hung == false && (t.block c.target).status == some o) = true

theorem witness_OutcomeSources_ok_and_bus_error :
    EndsWith .accGetOdr (onAcc []) .ok ∧ EndsWith .accGetOdr (accWith (.oracle [.err])) (.busError .write 0x20#8) :=
  ⟨⟨rfl, next_of (by decide)⟩, ⟨rfl, next_of (by decide)⟩⟩

theorem witness_OutcomeSources_init_failed :
    EndsWith (.accInit true) (onAcc [(0x0F, 0x32#8)]) (.initFailed .idMismatch 0x0F#7 0x32#8) ∧
    EndsWith (.magInit true) (onMag [(0x0A, 0x48#8)]) (.initFailed .idMismatch 0x0B#7 0x00#8) :=
  ⟨⟨rfl, next_of (by decide)⟩, ⟨rfl, next_of (by decide)⟩⟩

/-- A device that holds 0x07 in `CTRL1` whatever is written: the readback differs (95_test_vectors.md section 2.3). -/
theorem witness_OutcomeSources_readback :
    EndsWith (.accInit true)
      (accWith (.oracle [done, byteIs 0x33#8, done, byteIs 0#8, done, done, byteIs 0x80#8, done, done, byteIs 0#8, done, done, byteIs 0#8,
        done, done, byteIs 0#8, done, done, byteIs 0#8, done, byteIs 0#8, done, done, byteIs 0x08#8, done, done, byteIs 0#8, done, done,
        byteIs 0x08#8, done, done, byteIs 0x07#8, done, done, byteIs 0#8, done, byteIs 0x07#8, done, byteIs 0x07#8, done, byteIs 0#8,
        done, byteIs 0x07#8, done, done, byteIs 0x07#8]))
      (.initFailed .readbackMismatch 0x20#7 0x00#8) := ⟨rfl, next_of (by decide +kernel)⟩

theorem witness_OutcomeSources_invalid_config :
    EndsWith (.accSetOdr .hz1620LowPower) (onAcc [(0x20, 0x57#8)]) (.invalidConfig (.odr .hz1620LowPower .normal)) ∧
    EndsWith (.accSetFifoWatermark 32#8) (onAcc []) (.invalidConfig (.watermark 32#8)) :=
  ⟨⟨rfl, next_of (by decide)⟩, ⟨rfl, next_of (by decide)⟩⟩

theorem witness_OutcomeSources_unreachable_decode :
    EndsWith .accGetOdr (onAcc [(0x20, 0x87#8)]) (.unreachableDecode 0x20#7 0x87#8) ∧
    EndsWith .accGetFifoMode (onAcc [(0x2E, 0x80#8)]) (.unreachableDecode 0x2E#7 0x80#8) ∧
    EndsWith .magGetFullScale (onMag []) (.unreachableDecode 0x01#7 0x00#8) :=
  ⟨⟨rfl, next_of (by decide)⟩, ⟨rfl, next_of (by decide)⟩, ⟨rfl, next_of (by decide)⟩⟩

theorem witness_OutcomeSources_cache_unset_and_refused :
    EndsWith .accReadData State.reset (.cacheUnset .sensAcc) ∧ EndsWith .magGetSens State.reset (.cacheUnset .sensMag) ∧
    EndsWith (.readBurst .acc 0x28#7 0#8) State.reset (.refused .badArgument) :=
  ⟨⟨rfl, next_of (by decide)⟩, ⟨rfl, next_of (by decide)⟩, ⟨rfl, next_of (by decide)⟩⟩

theorem witness_RegisterFileAnswers :
    ((onAcc [(0x00, 0xBB#8), (0x7F, 0xAA#8)]).block .acc).device = .regFile (file [(0x00, 0xBB#8), (0x7F, 0xAA#8)]) ∧
    (file [(0x00, 0xBB#8), (0x7F, 0xAA#8)]).reg.wf = true := by decide

theorem witness_ReadRegCommands :
    Met (accWith (reading 0xAA#8)) .acc (readOf State.reset .acc 0x7F#7 [0xAA#8]) ∧
    Met (magWith (reading 0x00#8)) .mag (readOf State.reset .mag 0x00#7 [0x00#8]) ∧ FailuresMet 0x7F#8 1 :=
  ⟨met (by decide), met (by decide), failures_met _ _⟩

theorem witness_WriteRegCommand :
    Met (accWith (.oracle [done])) .acc (writeLog 0x32#8 0x20#8 0x97#8) ∧
    Met (magWith (.oracle [.err])) .mag [⟨.write 0x3C#8 [0x02#8, 0x03#8] false, .err, []⟩] := ⟨met (by decide), met (by decide)⟩

theorem witness_UpdateRegMaskedCommand :
    Met (accWith (updating 0x0F#8)) .acc (updateOf State.reset .acc 0x20#7 0x0F#8 0xA5#8 0xF0#8) ∧
    Met (magWith (updating 0x0F#8)) .mag (updateOf State.reset .mag 0x02#7 0x0F#8 0xA5#8 0xFF#8) ∧
    FailuresMet 0x20#8 1 ∧ FailedUpdateMet 0x20#7 0x0F#8 0xA5#8 0xF0#8 :=
  ⟨met (by decide), met (by decide), failures_met _ _, failedUpdate_met _ _ _ _⟩

theorem witness_ReadBurstCommand :
    Met (onAcc [(0x28, 0x5A#8)]) .acc (burstOf State.reset .acc 0x28#7 [0x5A#8]) ∧ (1#8 : Byte) ≠ 0#8 ∧
    Met (onMag []) .mag (burstOf State.reset .mag 0x03#7 (List.replicate 255 0x00#8)) ∧ (255#8 : Byte) ≠ 0#8 ∧ FailuresMet 0xA8#8 6 :=
  ⟨met (by decide), by decide, met (by decide +kernel), by decide, failures_met _ _⟩

theorem witness_EmptyBurstIsRefused : accepts State.reset .acc = true ∧ accepts State.reset .mag = true := by decide

/-- A rate that decodes and one that does not. -/
theorem witness_AccOdrGetters :
    Met (accWith (reading 0x9F#8)) .acc (readOf State.reset .acc 0x20#7 [0x9F#8]) ∧
    Met (accWith (reading 0x87#8)) .acc (readOf State.reset .acc 0x20#7 [0x87#8]) ∧ FailuresMet 0x20#8 1 :=
  ⟨met (by decide), met (by decide), failures_met _ _⟩

theorem witness_AccFieldGetters :
    Met (accWith (reading 0x5F#8)) .acc (readOf State.reset .acc 0x20#7 [0x5F#8]) ∧
    Met (accWith (reading 0x38#8)) .acc (readOf State.reset .acc 0x21#7 [0x38#8]) ∧
    Met (accWith (reading 0x04#8)) .acc (readOf State.reset .acc 0x22#7 [0x04#8]) ∧
    Met (accWith (reading 0x28#8)) .acc (readOf State.reset .acc 0x23#7 [0x28#8]) ∧
    Met (accWith (reading 0x9F#8)) .acc (readOf State.reset .acc 0x2E#7 [0x9F#8]) ∧ FailuresMet 0x21#8 1 :=
  ⟨met (by decide), met (by decide), met (by decide), met (by decide), met (by decide), failures_met _ _⟩

/-- Both modes and a mixed pair. -/
theorem witness_AccFifoModeGetter :
    Met (onAcc []) .acc (readOf State.reset .acc 0x24#7 [0x00#8] ++ readOf State.reset .acc 0x2E#7 [0x00#8]) ∧
    Met (onAcc [(0x24, 0x40#8), (0x2E, 0x80#8)]) .acc
      (readOf State.reset .acc 0x24#7 [0x40#8] ++ readOf State.reset .acc 0x2E#7 [0x80#8]) ∧
    Met (onAcc [(0x24, 0x40#8)]) .acc (readOf State.reset .acc 0x24#7 [0x40#8] ++ readOf State.reset .acc 0x2E#7 [0x00#8]) :=
  ⟨met (by decide), met (by decide), met (by decide)⟩

theorem witness_AccFieldSetters :
    Met (onAcc [(0x20, 0x57#8)]) .acc (updateOf State.reset .acc 0x20#7 0x57#8 0x08#8 0x08#8) ∧
    Met (onAcc [(0x23, 0x28#8)]) .acc (updateOf State.reset .acc 0x23#7 0x28#8 0x00#8 0x08#8) ∧
    Met (onAcc [(0x21, 0xC0#8)]) .acc (updateOf State.reset .acc 0x21#7 0xC0#8 0x38#8 0x38#8) ∧
    FailuresMet 0x21#8 1 ∧ FailedUpdateMet 0x21#7 0x38#8 0x00#8 0x08#8 :=
  ⟨met (by decide), met (by decide), met (by decide), failures_met _ _, failedUpdate_met _ _ _ _⟩

theorem witness_AccSetFullScaleCommand :
    Met (onAcc [(0x23, 0xC0#8)]) .acc (updateOf State.reset .acc 0x23#7 0xC0#8 0x30#8 0x30#8) ∧
    FailuresMet 0x23#8 1 ∧ FailedUpdateMet 0x23#7 0x08#8 0x10#8 0x30#8 :=
  ⟨met (by decide), failures_met _ _, failedUpdate_met _ _ _ _⟩

/-- The last watermark that is written and the first that is rejected. -/
theorem witness_AccSetFifoWatermarkCommand :
    (31 < (32#8 : Byte).toNat ∧ accepts State.reset .acc = true) ∧ (31#8 : Byte).toNat ≤ 31 ∧
    Met (onAcc [(0x2E, 0x80#8)]) .acc (updateOf State.reset .acc 0x2E#7 0x80#8 31#8 0x1F#8) ∧
    FailuresMet 0x2E#8 1 ∧ FailedUpdateMet 0x2E#7 0x80#8 31#8 0x1F#8 :=
  ⟨by decide, by decide, met (by decide), failures_met _ _, failedUpdate_met _ _ _ _⟩

/-- No rate in `CTRL1`; the rate asked for; power-down asked for; a code that is not valid in the mode. -/
theorem witness_AccSetOdrCommand_early :
    (accOdrOfCtrl1 0x87#8 = none ∧ Met (onAcc [(0x20, 0x87#8)]) .acc (readOf State.reset .acc 0x20#7 [0x87#8])) ∧
    (accOdrOfCtrl1 0x57#8 = some .hz100 ∧ Met (onAcc [(0x20, 0x57#8)]) .acc (readOf State.reset .acc 0x20#7 [0x57#8])) ∧
    (AccOdr.hz100 ≠ .powerDown ∧ Met (onAcc [(0x20, 0x57#8)]) .acc
      (readOf State.reset .acc 0x20#7 [0x57#8] ++ updateOf State.reset .acc 0x20#7 0x57#8 0x00#8 0xF0#8)) ∧
    (odrValid .hz1620LowPower .normal = false ∧ AccOdr.hz100 ≠ .hz1620LowPower ∧ Met (onAcc [(0x20, 0x57#8)]) .acc
      (readOf State.reset .acc 0x20#7 [0x57#8] ++ readOf State.reset .acc 0x20#7 [0x57#8])) :=
  ⟨⟨by decide, met (by decide)⟩, ⟨by decide, met (by decide)⟩, ⟨by decide, met (by decide)⟩, ⟨by decide, by decide, met (by decide)⟩⟩

/-- A change of the rate, and leaving power-down, with and without a sample pending. -/
theorem witness_AccSetOdrCommand_writes :
    (odrValid .hz1344Normal .normal = true ∧ AccOdr.hz100 ≠ .hz1344Normal ∧ Met (onAcc [(0x20, 0x57#8)]) .acc
      (readOf State.reset .acc 0x20#7 [0x57#8] ++ readOf State.reset .acc 0x20#7 [0x57#8] ++
        updateOf State.reset .acc 0x20#7 0x57#8 0x97#8 0xF7#8)) ∧
    (accOdrOfCtrl1 0x08#8 = some .powerDown ∧ odrValid .hz1620LowPower .lowPower = true ∧
      DrainLog defaultRegMap 0x32#8 (readOf State.reset .acc 0x27#7 [0x08#8] ++ burstOf State.reset .acc 0x28#7 [0, 0, 0, 0, 0, 0]) ∧
      Met (onAcc [(0x20, 0x08#8), (0x27, 0x08#8)]) .acc
        (readOf State.reset .acc 0x20#7 [0x08#8] ++ readOf State.reset .acc 0x20#7 [0x08#8] ++
          (readOf State.reset .acc 0x27#7 [0x08#8] ++ burstOf State.reset .acc 0x28#7 [0, 0, 0, 0, 0, 0]) ++
          updateOf State.reset .acc 0x20#7 0x08#8 0x87#8 0xF7#8)) ∧
    (DrainLog defaultRegMap 0x32#8 (readOf State.reset .acc 0x27#7 [0x00#8]) ∧
      Met (onAcc [(0x20, 0x08#8)]) .acc
        (readOf State.reset .acc 0x20#7 [0x08#8] ++ readOf State.reset .acc 0x20#7 [0x08#8] ++
          readOf State.reset .acc 0x27#7 [0x00#8] ++ updateOf State.reset .acc 0x20#7 0x08#8 0x87#8 0xF7#8)) :=
  ⟨⟨by decide, by decide, met (by decide)⟩,
    ⟨by decide, by decide, ⟨0x08#8, Or.inr ⟨by decide, _, rfl, rfl⟩⟩, met (by decide)⟩,
    ⟨⟨0x00#8, Or.inl ⟨by decide, rfl⟩⟩, met (by decide)⟩⟩

/-- The transactions of an enabling with no sample pending. -/
def enabling (ctrl5 fifoCtrl old v : Byte) : List Transaction :=
  readOf State.reset .acc 0x27#7 [0x00#8] ++ readOf State.reset .acc 0x24#7 [ctrl5] ++ readOf State.reset .acc 0x2E#7 [fifoCtrl] ++
    updateOf State.reset .acc 0x22#7 old v 0x14#8

theorem enabling_stream : EnableLog defaultRegMap 0x32#8 (enabling 0x40#8 0x80#8 0x10#8 0x04#8) :=
  ⟨_, 0x40#8, 0x80#8, 0x10#8, ⟨0x00#8, Or.inl ⟨by decide, rfl⟩⟩, Or.inl ⟨by decide, rfl⟩⟩

theorem enabling_disabled : EnableLog defaultRegMap 0x32#8 (enabling 0x00#8 0x00#8 0xFF#8 0x10#8) :=
  ⟨_, 0x00#8, 0x00#8, 0xFF#8, ⟨0x00#8, Or.inl ⟨by decide, rfl⟩⟩, Or.inr ⟨by decide, rfl⟩⟩

/-- Disabling; enabling in both FIFO modes; a mixed pair. -/
theorem witness_AccSetDrdyIntCommand :
    Met (onAcc [(0x22, 0xFF#8)]) .acc (updateOf State.reset .acc 0x22#7 0xFF#8 0x00#8 0x14#8) ∧
    (EnableLog defaultRegMap 0x32#8 (enabling 0x40#8 0x80#8 0x10#8 0x04#8) ∧
      Met (onAcc [(0x22, 0x10#8), (0x24, 0x40#8), (0x2E, 0x80#8)]) .acc (enabling 0x40#8 0x80#8 0x10#8 0x04#8)) ∧
    (EnableLog defaultRegMap 0x32#8 (enabling 0x00#8 0x00#8 0xFF#8 0x10#8) ∧
      Met (onAcc [(0x22, 0xFF#8)]) .acc (enabling 0x00#8 0x00#8 0xFF#8 0x10#8)) ∧
    (fifoPair defaultRegMap 0x40#8 0x00#8 = none ∧ DrainLog defaultRegMap 0x32#8 (readOf State.reset .acc 0x27#7 [0x00#8]) ∧
      Met (onAcc [(0x24, 0x40#8)]) .acc (readOf State.reset .acc 0x27#7 [0x00#8] ++ readOf State.reset .acc 0x24#7 [0x40#8] ++
        readOf State.reset .acc 0x2E#7 [0x00#8])) :=
  ⟨met (by decide), ⟨enabling_stream, met (by decide)⟩, ⟨enabling_disabled, met (by decide)⟩,
    ⟨by decide, ⟨0x00#8, Or.inl ⟨by decide, rfl⟩⟩, met (by decide)⟩⟩

/-- The writes of `SET_FIFO_MODE(STREAM)` and the routing query. -/
def streaming (q : Byte) : List Transaction :=
  updateOf State.reset .acc 0x24#7 0x00#8 0x40#8 0x40#8 ++ updateOf State.reset .acc 0x2E#7 0x00#8 0x80#8 0xC0#8 ++
    readOf State.reset .acc 0x22#7 [q]

/-- No routing bit set; one set, and then the stream mode; one set and a device whose fields are a mixed pair afterwards. -/
theorem witness_AccSetFifoModeCommand :
    ((0xEB#8 : Byte) &&& 0x14#8 = 0#8 ∧ Met (onAcc [(0x22, 0xEB#8)]) .acc (streaming 0xEB#8)) ∧
    ((0x10#8 : Byte) &&& 0x14#8 ≠ 0#8 ∧ EnableLog defaultRegMap 0x32#8 (enabling 0x40#8 0x80#8 0x10#8 0x04#8) ∧
      Met (onAcc [(0x22, 0x10#8)]) .acc (streaming 0x10#8 ++ enabling 0x40#8 0x80#8 0x10#8 0x04#8)) ∧
    (fifoPair defaultRegMap 0x00#8 0x80#8 = none ∧ DrainLog defaultRegMap 0x32#8 (readOf State.reset .acc 0x27#7 [0x00#8]) ∧
      Met (accWith (.oracle [done, byteIs 0x00#8, done, done, byteIs 0x00#8, done, done, byteIs 0x10#8, done, byteIs 0x00#8, done,
          byteIs 0x00#8, done, byteIs 0x80#8])) .acc
        (streaming 0x10#8 ++ readOf State.reset .acc 0x27#7 [0x00#8] ++ readOf State.reset .acc 0x24#7 [0x00#8] ++
          readOf State.reset .acc 0x2E#7 [0x80#8])) :=
  ⟨⟨by decide, met (by decide)⟩, ⟨by decide, enabling_stream, met (by decide)⟩,
    ⟨by decide, ⟨0x00#8, Or.inl ⟨by decide, rfl⟩⟩, met (by decide)⟩⟩

theorem witness_AccClearFifoCommand :
    Met (onAcc [(0x2E, 0xDF#8)]) .acc (readOf State.reset .acc 0x2E#7 [0xDF#8] ++
      updateOf State.reset .acc 0x2E#7 0xDF#8 0x00#8 0xC0#8 ++ updateOf State.reset .acc 0x2E#7 0x1F#8 0xC0#8 0xC0#8) :=
  met (by decide)

/-- A state for the statements over the register-file device. -/
def initState : State := onAcc [(0x0F, 0x33#8), (0x20, 0x07#8)]

/-- The rate in `CTRL1` already the one asked for, and another. -/
theorem witness_AccInitCompletes :
    OnRegFile initState .acc (file [(0x0F, 0x33#8), (0x20, 0x07#8)]) ∧ initState.params.regMap = defaultRegMap ∧
    paramsOk initState.params = true ∧ regOf (file [(0x0F, 0x33#8), (0x20, 0x07#8)]) 0x0F#7 = 0x33#8 ∧
    accOdrOfCtrl1 (0x07#8 &&& 0xF7#8) = some .powerDown ∧ accOdrOfCtrl1 (0x5F#8 &&& 0xF7#8) = some .hz100 :=
  ⟨⟨by decide, rfl, by decide⟩, rfl, by decide +kernel, by decide, by decide, by decide⟩

/-- Another identity byte. -/
theorem witness_AccInitCommand_identity :
    Met (onAcc [(0x0F, 0x32#8)]) .acc (readOf State.reset .acc 0x0F#7 [0x32#8]) ∧ (0x32#8 : Byte) ≠ defaultRegMap.accIdValue :=
  ⟨met (by decide), by decide⟩

/-- The log of a `SET_FIFO_MODE(DISABLED)` with no routing bit set. -/
def fifoOff : List Transaction :=
  updateOf State.reset .acc 0x24#7 0x00#8 0x00#8 0x40#8 ++ updateOf State.reset .acc 0x2E#7 0x00#8 0x00#8 0xC0#8 ++
    readOf State.reset .acc 0x22#7 [0x00#8]

theorem fifoOff_log : FifoModeLog defaultRegMap 0x32#8 .disabled fifoOff :=
  ⟨0x00#8, 0x00#8, 0x00#8, [], .inl ⟨by decide, rfl⟩, by decide⟩

/-- The first transactions of init, on a device whose other registers are 0. -/
def initFirst : List Transaction :=
  readOf State.reset .acc 0x0F#7 [0x33#8] ++ updateOf State.reset .acc 0x24#7 0x00#8 0x80#8 0x80#8 ++
    updateOf State.reset .acc 0x24#7 0x80#8 0x00#8 0x80#8 ++ updateOf State.reset .acc 0x22#7 0x00#8 0x00#8 0x14#8 ++ fifoOff ++
    updateOf State.reset .acc 0x2E#7 0x00#8 0x00#8 0x1F#8

theorem initFirst_log : AccInitFirstLog defaultRegMap 0x32#8 initFirst :=
  ⟨0x00#8, 0x80#8, 0x00#8, 0x00#8, fifoOff, fifoOff_log, by decide⟩

/-- The transactions of init up to the rate, with `c1` in `CTRL1` and no sample pending. -/
def initMiddle (c1 : Byte) : List Transaction :=
  initFirst ++ updateOf State.reset .acc 0x23#7 0x00#8 0x00#8 0x30#8 ++ updateOf State.reset .acc 0x21#7 0x00#8 0x00#8 0x08#8 ++
    updateOf State.reset .acc 0x23#7 0x00#8 0x08#8 0x08#8 ++ updateOf State.reset .acc 0x20#7 c1 0x00#8 0x08#8 ++
    readOf State.reset .acc 0x27#7 [0x00#8]

theorem initMiddle_log (c1 : Byte) : AccInitMiddleLog defaultRegMap 0x32#8 (initMiddle c1) :=
  ⟨initFirst, 0x00#8, 0x00#8, 0x00#8, c1, _, initFirst_log, ⟨0x00#8, .inl ⟨by decide, rfl⟩⟩, rfl⟩

/-- All the transactions of an init whose rate is already the one it sets, power-down: the readback gives `f`. -/
def initWhole (f : Byte) : List Transaction :=
  initMiddle 0x07#8 ++ readOf State.reset .acc 0x20#7 [0x07#8] ++ readOf State.reset .acc 0x20#7 [f]

theorem initWhole_log (f : Byte) : AccInitLog defaultParams 0x32#8 false f (initWhole f) :=
  ⟨initMiddle 0x07#8, _, initMiddle_log _, ⟨0x07#8, .powerDown, by decide, .inl ⟨rfl, rfl⟩⟩, rfl⟩

/-- The answers of a device to a log. -/
def replies (log : List Transaction) : Device := .oracle (log.map fun t => .ok t.data)

/-- A failed write of the full scale, a rate that does not decode, the readback of the target, and another one. -/
theorem witness_AccInitCommand :
    (AccInitFirstLog defaultRegMap 0x32#8 initFirst ∧
      Met (accWith (.oracle (initFirst.map (fun t => .ok t.data) ++ [done, byteIs 0x10#8, .err]))) .acc
        (initFirst ++ failedUpdateLog 0x32#8 0x23#7 0x10#8 0x00#8 .err)) ∧
    (AccInitMiddleLog defaultRegMap 0x32#8 (initMiddle 0x87#8) ∧ accOdrOfCtrl1 0x87#8 = none ∧
      Met (onAcc [(0x0F, 0x33#8), (0x20, 0x87#8)]) .acc (initMiddle 0x87#8 ++ readOf State.reset .acc 0x20#7 [0x87#8])) ∧
    (AccInitLog defaultParams 0x32#8 false 0x07#8 (initWhole 0x07#8) ∧ 0x07#8 &&& 0xF0#8 = accOdrCode .powerDown &&& 0xF0#8 ∧
      Met (onAcc [(0x0F, 0x33#8), (0x20, 0x07#8)]) .acc (initWhole 0x07#8)) ∧
    (AccInitLog defaultParams 0x32#8 false 0x17#8 (initWhole 0x17#8) ∧ 0x17#8 &&& 0xF0#8 ≠ accOdrCode .powerDown &&& 0xF0#8 ∧
      Met (accWith (replies (initWhole 0x17#8))) .acc (initWhole 0x17#8)) :=
  ⟨⟨initFirst_log, met (by decide +kernel)⟩, ⟨initMiddle_log _, by decide, met (by decide +kernel)⟩,
    ⟨initWhole_log _, by decide, met (by decide +kernel)⟩, ⟨initWhole_log _, by decide, met (by decide +kernel)⟩⟩

theorem witness_MagFieldGetters :
    Met (magWith (reading 0xFD#8)) .mag (readOf State.reset .mag 0x02#7 [0xFD#8]) ∧
    Met (magWith (reading 0x9C#8)) .mag (readOf State.reset .mag 0x00#7 [0x9C#8]) ∧
    Met (magWith (reading 0x1F#8)) .mag (readOf State.reset .mag 0x01#7 [0x1F#8]) ∧
    Met (magWith (reading 0x20#8)) .mag (readOf State.reset .mag 0x01#7 [0x20#8]) ∧ FailuresMet 0x00#8 1 :=
  ⟨met (by decide), met (by decide), met (by decide), met (by decide), failures_met _ _⟩

theorem witness_MagFieldSetters :
    Met (onMag [(0x02, 0xFF#8)]) .mag (updateOf State.reset .mag 0x02#7 0xFF#8 0x00#8 0x03#8) ∧
    Met (onMag []) .mag (updateOf State.reset .mag 0x02#7 0x00#8 0x03#8 0x03#8) ∧
    Met (onMag [(0x00, 0xFF#8)]) .mag (updateOf State.reset .mag 0x00#7 0xFF#8 (7#8 <<< 2) 0x1C#8) ∧
    Met (onMag [(0x00, 0x10#8)]) .mag (updateOf State.reset .mag 0x00#7 0x10#8 (1#8 <<< 7) 0x80#8) ∧
    FailuresMet 0x02#8 1 ∧ FailedUpdateMet 0x02#7 0x03#8 0x00#8 0x03#8 :=
  ⟨met (by decide), met (by decide), met (by decide), met (by decide), failures_met _ _, failedUpdate_met _ _ _ _⟩

theorem witness_MagSetFullScaleCommand :
    Met (onMag [(0x01, 0x1F#8)]) .mag (updateOf State.reset .mag 0x01#7 0x1F#8 (7#8 <<< 5) 0xE0#8) ∧
    FailuresMet 0x01#8 1 ∧ FailedUpdateMet 0x01#7 0x20#8 (7#8 <<< 5) 0xE0#8 :=
  ⟨met (by decide), failures_met _ _, failedUpdate_met _ _ _ _⟩

/-- The first transactions of `MAG_INIT`, up to the range. -/
def magFirst : List Transaction :=
  readOf State.reset .mag 0x0A#7 [0x48#8] ++ readOf State.reset .mag 0x0B#7 [0x34#8] ++ readOf State.reset .mag 0x0C#7 [0x33#8] ++
    updateOf State.reset .mag 0x00#7 0x10#8 0x80#8 0x80#8 ++ updateOf State.reset .mag 0x00#7 0x90#8 0x10#8 0x1C#8

/-- The log of program P2, a failed write of the range, and the three identities that end init. -/
theorem witness_MagInitCommand :
    Met (onMag [(0x00, 0x10#8), (0x02, 0x03#8), (0x0A, 0x48#8), (0x0B, 0x34#8), (0x0C, 0x33#8)]) .mag
      (magFirst ++ updateOf State.reset .mag 0x01#7 0x00#8 0x20#8 0xE0#8 ++ updateOf State.reset .mag 0x02#7 0x03#8 0x00#8 0x03#8) ∧
    Met (magWith (.oracle (magFirst.map (fun t => .ok t.data) ++ [done, byteIs 0x00#8, .err]))) .mag
      (magFirst ++ failedUpdateLog 0x3C#8 0x01#7 0x00#8 0x20#8 .err) ∧
    Met (onMag []) .mag (readOf State.reset .mag 0x0A#7 [0x00#8]) ∧
    Met (onMag [(0x0A, 0x48#8), (0x0B, 0x35#8)]) .mag
      (readOf State.reset .mag 0x0A#7 [0x48#8] ++ readOf State.reset .mag 0x0B#7 [0x35#8]) ∧
    Met (onMag [(0x0A, 0x48#8), (0x0B, 0x34#8)]) .mag
      (readOf State.reset .mag 0x0A#7 [0x48#8] ++ readOf State.reset .mag 0x0B#7 [0x34#8] ++ readOf State.reset .mag 0x0C#7 [0x00#8]) :=
  ⟨met (by decide), met (by decide), met (by decide), met (by decide), met (by decide)⟩

/-- The caches UNSET and set. -/
theorem witness_SensGetters :
    (accepts State.reset .acc = true ∧ State.reset.sensAcc = none) ∧ (accepts State.reset .mag = true ∧ State.reset.sensMagZ = none) ∧
    accepts { State.reset with sensAcc := some 0x3C20AC13, sensMagXY := some 0x3A6E500F, sensMagZ := some 0x3A85BF37 } .acc = true := by
  decide

/-- The filter on at a rate, off at a rate, on at power-down, and a rate that does not decode. -/
theorem witness_AccGetHpfCutoffCommand :
    (accOdrOfCtrl1 0x77#8 = some .hz400 ∧ Met (onAcc [(0x20, 0x77#8), (0x21, 0x18#8)]) .acc
      (readOf State.reset .acc 0x21#7 [0x18#8] ++ readOf State.reset .acc 0x20#7 [0x77#8])) ∧
    Met (onAcc [(0x20, 0x77#8), (0x21, 0x10#8)]) .acc
      (readOf State.reset .acc 0x21#7 [0x10#8] ++ readOf State.reset .acc 0x20#7 [0x77#8]) ∧
    ((accOdrOfCtrl1 0x07#8 = some .powerDown ∧ (onAcc []).params.accOdrHz.powerDown = 0 ∧ paramsOk (onAcc []).params = true) ∧
      Met (onAcc [(0x20, 0x07#8), (0x21, 0x38#8)]) .acc
        (readOf State.reset .acc 0x21#7 [0x38#8] ++ readOf State.reset .acc 0x20#7 [0x07#8])) ∧
    (accOdrOfCtrl1 0x87#8 = none ∧ Met (onAcc [(0x20, 0x87#8)]) .acc
      (readOf State.reset .acc 0x21#7 [0x00#8] ++ readOf State.reset .acc 0x20#7 [0x87#8])) :=
  ⟨⟨by decide, met (by decide)⟩, met (by decide), ⟨by decide +kernel, met (by decide)⟩, ⟨by decide, met (by decide)⟩⟩

/-- A tie in the default format, 2^25 + 2 units lying midway between two magnitudes, of which the even one is taken, and the same in the
other roundings; a value beyond the largest finite one, rounded toward zero. -/
theorem witness_RoundingIsCorrect :
    (roundMagnitude binary32 false (2 ^ 25 + 2) 1 < infBits binary32 ∧ roundMagnitude binary32 false (2 ^ 25 + 2) 1 % 2 = 0 ∧
      roundMagnitude binary32 false (2 ^ 25 + 2) 1 + 1 < infBits binary32) ∧
    (roundMagnitude ⟨8, 23, .nearestAway⟩ false (2 ^ 25 + 2) 1 = roundMagnitude binary32 false (2 ^ 25 + 2) 1 + 1 ∧
      roundMagnitude ⟨8, 23, .towardPositive⟩ false (2 ^ 25 + 2) 1 = roundMagnitude binary32 false (2 ^ 25 + 2) 1 + 1 ∧
      roundMagnitude ⟨8, 23, .towardNegative⟩ false (2 ^ 25 + 2) 1 = roundMagnitude binary32 false (2 ^ 25 + 2) 1) ∧
    (roundMagnitude ⟨5, 10, .towardZero⟩ false (2 ^ 41) 1 < infBits ⟨5, 10, .towardZero⟩ ∧
      roundMagnitude ⟨5, 10, .nearestEven⟩ false (2 ^ 41) 1 = infBits ⟨5, 10, .nearestEven⟩) := by
  decide +kernel

/-- The ends of the range of a word. -/
theorem witness_WordDecoders :
    le16 0x00#8 0x80#8 = -32768 ∧ just12 (-32768) = -2048 ∧ le16 0xFF#8 0x7F#8 = 32767 ∧ just12 32767 = 2047 ∧
    be16 0xFF#8 0xF0#8 = -16 ∧ just12 (-16) = -1 ∧ just12 15 = 0 ∧ le16 0x0F#8 0xFF#8 = -241 ∧ just12 (-241) = -16 := by decide

theorem witness_AccSamples :
    Met (onAcc [(0x28, 0xF0#8), (0x29, 0x7F#8)]) .acc (burstOf State.reset .acc 0x28#7 [0xF0#8, 0x7F#8, 0, 0, 0, 0]) ∧
    FailuresMet 0xA8#8 6 ∧ (accepts State.reset .acc = true ∧ State.reset.sensAcc = none) ∧
    Met { onAcc [] with sensAcc := some 0x3C20AC13 } .acc (burstOf State.reset .acc 0x28#7 [0, 0, 0, 0, 0, 0]) :=
  ⟨met (by decide), failures_met _ _, by decide, met (by decide)⟩

theorem witness_MagSamples :
    Met (onMag [(0x03, 0x80#8), (0x05, 0x7F#8), (0x06, 0xFF#8)]) .mag (burstOf State.reset .mag 0x03#7 [0x80#8, 0, 0x7F#8, 0xFF#8, 0, 0]) ∧
    FailuresMet 0x83#8 6 ∧ (accepts State.reset .mag = true ∧ State.reset.sensMagXY = none) ∧
    Met { onMag [] with sensMagXY := some 0x3A6E500F, sensMagZ := some 0x3A85BF37 } .mag
      (burstOf State.reset .mag 0x03#7 [0, 0, 0, 0, 0, 0]) :=
  ⟨met (by decide), failures_met _ _, by decide, met (by decide)⟩

theorem witness_TemperatureSamples :
    Met (onMag [(0x31, 0x80#8), (0x32, 0x00#8)]) .mag (burstOf State.reset .mag 0x31#7 [0x80#8, 0x00#8]) ∧ FailuresMet 0xB1#8 2 :=
  ⟨met (by decide), failures_met _ _⟩

/-- The ends of the range: -107 °C and 148.9375 °C (95_test_vectors.md section 2.6). -/
theorem witness_TemperatureIsExact :
    tempCelsius binary32 (-2048) = 0xC2D60000 ∧ tempCelsius binary32 2047 = 0x4314F000 ∧ tempCelsius binary32 0 = 0x41A80000 := by decide +kernel

theorem witness_AccRoundTrip :
    getterOf (.accSetFifoMode .stream) = some (.accGetFifoMode, .code 1#8) ∧
    OnRegFile initState .acc (file [(0x0F, 0x33#8), (0x20, 0x07#8)]) ∧
    ∃ t, exec (.accSetFifoMode .stream) initState = .next t ∧ (t.acc.status == some .ok) = true :=
  ⟨by decide, ⟨by decide, rfl, by decide⟩, next_of (by decide)⟩

theorem witness_MagRoundTrip :
    getterOf (.magSetMode false) = some (.magGetMode, .code 0#8) ∧ (Instr.magSetMode false).target = .mag ∧
    OnRegFile (onMag []) .mag (file []) ∧ (onMag []).params.magSleepPattern.getLsbD 1 = true :=
  ⟨by decide, rfl, ⟨by decide, rfl, by decide⟩, by decide⟩

/-- An init that ends with `OK`, after which the instance accepts, and one of the other instance that ends in `INIT_FAILED`. -/
theorem witness_InitIdempotent :
    (OnRegFile initState .acc (file [(0x0F, 0x33#8), (0x20, 0x07#8)]) ∧ paramsOk initState.params = true ∧
      ∃ t, exec (.accInit true) initState = .next t ∧ (t.acc.status == some .ok && accepts t .acc) = true) ∧
    (OnRegFile (onMag []) .mag (file []) ∧ ∃ t, exec (.magInit true) (onMag []) = .next t) :=
  ⟨⟨⟨by decide, rfl, by decide⟩, by decide +kernel, next_of (by decide +kernel)⟩, ⟨by decide, rfl, by decide⟩, _, rfl⟩

end Sys2Proof.Tests
end

/-! ### The invariant

SUPPORT. Every command is a sub-operation built from the shared operations, so what holds of those and is kept by sequencing holds of
every command (`exec_eq_runCommand`). The invariant is such a property: `Logs` gives what happens to the history and the device, and
`CachesKept` what happens to the caches. -/

namespace Sys2Proof.Machine

/-! #### The operations that commands are made of -/

/-- `P` holds of the shared operations on block `i`, with the cache operations of that block, and is kept by sequencing. -/
structure OpClass (i : InstanceId) (p : Params) (P : (α : Type) → Op α → Prop) : Prop where
  ret : ∀ {α : Type} (a : α), P α (pure a)
  raises : ∀ {α : Type} (o : Status), (∀ d a, o ≠ .busError d a) → P α (raise o)
  bind : ∀ {α β : Type} {op : Op α} {f : α → Op β}, P α op → (∀ a, P β (f a)) → P β (op >>= f)
  readReg : ∀ r, P Byte (readReg i r)
  readBurst : ∀ r n, P (List Byte) (readBurst i r n)
  writeReg : ∀ r v, P Unit (writeReg i r v)
  updateRegMasked : ∀ r v m, P Unit (updateRegMasked i r v m)
  readSensAcc : i = .acc → P FloatVal readSensAcc
  accSetFullScale : i = .acc → ∀ fs, P Unit (accSetFullScale p fs)
  readSensMag : i = .mag → P (FloatVal × FloatVal) readSensMag
  magSetFullScale : i = .mag → ∀ g, P Unit (magSetFullScale p g)

namespace OpClass

variable {i : InstanceId} {p : Params} {P : (α : Type) → Op α → Prop}

theorem map {α β : Type} (h : OpClass i p P) {op : Op α} (f : α → β) (hop : P α op) : P β (op >>= fun a => pure (f a)) :=
  h.bind hop fun _ => h.ret _

/-- A property that both branches have. -/
theorem of_ite {α : Type} {c : Prop} [Decidable c] {op op' : Op α} (h : P α op) (h' : P α op') : P α (if c then op else op') := by
  split <;> assumption

theorem readRegMasked (h : OpClass i p P) (r : RegIdx) (m : Byte) : P Byte (readRegMasked i r m) := h.map _ (h.readReg r)

/-! The sub-operations of the accelerometer (41_accel_codec.md). -/

section Accel

variable (h : OpClass .acc p P)
include h

theorem accGetOdr : P AccOdr (accGetOdr p) := by
  refine h.bind (h.readReg _) fun r => ?_
  split
  · exact h.ret _
  · exact h.raises _ nofun

theorem accGetPowerMode : P PowerMode (accGetPowerMode p) := h.map _ (h.readRegMasked _ _)

theorem accGetHpfMode : P HpfMode (accGetHpfMode p) := h.map _ (h.readReg _)

theorem accGetFifoMode : P FifoMode (accGetFifoMode p) :=
  h.bind (h.readRegMasked _ _) fun _ => h.bind (h.readRegMasked _ _) fun fm =>
    of_ite (h.ret _) (of_ite (h.ret _) (h.raises (.unreachableDecode _ fm) nofun))

theorem accDrain : P Unit (accDrain p) :=
  h.bind (h.readRegMasked _ _) fun _ => of_ite (h.map _ (h.readBurst _ _)) (h.ret _)

theorem accRebootPulse : P Unit (accRebootPulse p) := h.bind (h.updateRegMasked ..) fun _ => h.updateRegMasked ..

theorem irqDisable : P Unit (irqDisable p) := h.updateRegMasked ..

theorem irqEnable : P Unit (irqEnable p) := by
  refine h.bind h.accDrain fun _ => h.bind h.accGetFifoMode fun f => ?_
  cases f <;> exact h.updateRegMasked ..

theorem irqQuery : P Bool (irqQuery p) := h.map _ (h.readRegMasked _ _)

theorem irqRefresh : P Unit (irqRefresh p) := h.bind h.irqQuery fun _ => of_ite h.irqEnable (h.ret _)

theorem drainFrom (cur : AccOdr) : P Unit (drainFrom p cur) := of_ite h.accDrain (h.ret _)

theorem accSetOdr (c : AccOdr) : P Unit (accSetOdr p c) :=
  h.bind h.accGetOdr fun cur => of_ite (h.ret _) <| of_ite (h.updateRegMasked ..) <| h.bind h.accGetPowerMode fun pm =>
    of_ite (h.bind (h.drainFrom cur) fun _ => h.updateRegMasked ..) (h.raises (.invalidConfig (.odr c pm)) nofun)

theorem accSetHpfMode (m : HpfMode) : P Unit (accSetHpfMode p m) := by
  cases m <;> exact h.updateRegMasked ..

theorem accSetDrdyInt (e : Bool) : P Unit (accSetDrdyInt p e) := of_ite h.irqEnable h.irqDisable

theorem accSetFifoMode (f : FifoMode) : P Unit (accSetFifoMode p f) :=
  h.bind (h.updateRegMasked ..) fun _ => h.bind (h.updateRegMasked ..) fun _ => h.irqRefresh

theorem accSetFifoWatermark (w : Byte) : P Unit (accSetFifoWatermark p w) :=
  of_ite (h.raises (.invalidConfig (.watermark w)) nofun) (h.updateRegMasked ..)

theorem accClearFifo : P Unit (accClearFifo p) :=
  h.bind (h.readRegMasked _ _) fun _ => h.bind (h.updateRegMasked ..) fun _ => h.updateRegMasked ..

theorem accInit (start : Bool) : P Unit (accInit p start) :=
  h.bind (h.readReg _) fun id => of_ite (h.raises (.initFailed .idMismatch _ id) nofun) <|
    h.bind h.accRebootPulse fun _ => h.bind h.irqDisable fun _ => h.bind (h.accSetFifoMode _) fun _ =>
    h.bind (h.accSetFifoWatermark _) fun _ => h.bind (h.accSetFullScale rfl _) fun _ => h.bind (h.accSetHpfMode _) fun _ =>
    h.bind (h.updateRegMasked ..) fun _ => h.bind (h.updateRegMasked ..) fun _ => h.bind h.accDrain fun _ =>
    h.bind (h.accSetOdr _) fun _ => h.bind (h.readRegMasked _ _) fun f =>
    of_ite (h.raises (.initFailed .readbackMismatch _ f) nofun) (h.ret _)

theorem accGetHpfCutoff : P FloatVal (accGetHpfCutoff p) := by
  refine h.bind h.accGetHpfMode fun m => h.bind h.accGetOdr fun c => ?_
  cases m <;> exact h.ret _

theorem accReadData16 : P Triple (accReadData16 p) := h.map _ (h.readBurst _ _)

theorem accReadData : P ResultData (accReadData p) := h.bind (h.readSensAcc rfl) fun _ => h.map _ h.accReadData16

end Accel

/-! The sub-operations of the magnetometer (42_mag_codec.md). -/

section Mag

variable (h : OpClass .mag p P)
include h

theorem magGetFullScale : P MagFs (magGetFullScale p) := by
  refine h.bind (h.readRegMasked _ _) fun b => ?_
  split
  · exact h.ret _
  · exact h.raises _ nofun

theorem magSetMode (e : Bool) : P Unit (magSetMode p e) := of_ite (h.updateRegMasked ..) (h.updateRegMasked ..)

theorem magCheckIds : ∀ ids : List (RegIdx × Byte), P Unit (magCheckIds ids)
  | [] => h.ret _
  | (r, _) :: rest => h.bind (h.readReg r) fun b => of_ite (h.raises (.initFailed .idMismatch r b) nofun) (magCheckIds rest)

theorem magInit (start : Bool) : P Unit (magInit p start) :=
  h.bind (h.magCheckIds _) fun _ => h.bind (h.updateRegMasked ..) fun _ => h.bind (h.updateRegMasked ..) fun _ =>
    h.bind (h.magSetFullScale rfl _) fun _ => h.magSetMode start

theorem magReadData16 : P Triple (magReadData16 p) := h.map _ (h.readBurst _ _)

theorem magReadTemp16 : P Int (magReadTemp16 p) := h.map _ (h.readBurst _ _)

theorem magReadData : P ResultData (magReadData p) := h.bind (h.readSensMag rfl) fun _ => h.map _ h.magReadData16

end Mag

end OpClass

/-- Every command runs, on its block, an operation made of the shared ones: whatever holds of those holds of it. -/
theorem exec_eq_runCommand {P : InstanceId → (α : Type) → Op α → Prop} {s : State} (hP : ∀ i, OpClass i s.params (P i)) (c : Instr) :
    ∃ op, exec c s = runCommand c.target op s ∧ P c.target (Option ResultData) op := by
  have h := hP c.target
  cases c with
  | readReg i r => exact ⟨_, rfl, h.map _ (h.readReg r)⟩
  | writeReg i r v => exact ⟨_, rfl, h.map _ (h.writeReg r v)⟩
  | readRegMasked i r m => exact ⟨_, rfl, h.map _ (h.readRegMasked r m)⟩
  | updateRegMasked i r v m => exact ⟨_, rfl, h.map _ (h.updateRegMasked r v m)⟩
  | readBurst i r n =>
    by_cases hn : n = 0#8
    · exact ⟨_, if_pos hn, h.raises (.refused .badArgument) nofun⟩
    · exact ⟨_, if_neg hn, h.map _ (h.readBurst r _)⟩
  | accInit start => exact ⟨_, rfl, h.map _ (h.accInit start)⟩
  | accSetOdr c => exact ⟨_, rfl, h.map _ (h.accSetOdr c)⟩
  | accGetOdr => exact ⟨_, rfl, h.map _ h.accGetOdr⟩
  | accSetPowerMode pm => exact ⟨_, rfl, h.map _ (h.updateRegMasked ..)⟩
  | accGetPowerMode => exact ⟨_, rfl, h.map _ h.accGetPowerMode⟩
  | accSetFullScale fs => exact ⟨_, rfl, h.map _ (h.accSetFullScale rfl fs)⟩
  | accGetFullScale => exact ⟨_, rfl, h.map _ (h.map _ (h.readRegMasked _ _))⟩
  | accSetHighRes e => exact ⟨_, rfl, h.map _ (h.updateRegMasked ..)⟩
  | accGetHighRes => exact ⟨_, rfl, h.map _ (h.map _ (h.readRegMasked _ _))⟩
  | accSetHpfMode m => exact ⟨_, rfl, h.map _ (h.accSetHpfMode m)⟩
  | accGetHpfMode => exact ⟨_, rfl, h.map _ h.accGetHpfMode⟩
  | accSetFifoMode f => exact ⟨_, rfl, h.map _ (h.accSetFifoMode f)⟩
  | accGetFifoMode => exact ⟨_, rfl, h.map _ h.accGetFifoMode⟩
  | accSetFifoWatermark w => exact ⟨_, rfl, h.map _ (h.accSetFifoWatermark w)⟩
  | accGetFifoWatermark => exact ⟨_, rfl, h.map _ (h.readRegMasked _ _)⟩
  | accClearFifo => exact ⟨_, rfl, h.map _ h.accClearFifo⟩
  | accSetDrdyInt e => exact ⟨_, rfl, h.map _ (h.accSetDrdyInt e)⟩
  | accGetDrdyInt => exact ⟨_, rfl, h.map _ h.irqQuery⟩
  | accGetOdrHz => exact ⟨_, rfl, h.map _ h.accGetOdr⟩
  | accGetHpfCutoff => exact ⟨_, rfl, h.map _ h.accGetHpfCutoff⟩
  | accGetSens => exact ⟨_, rfl, h.map _ (h.readSensAcc rfl)⟩
  | accReadData16 => exact ⟨_, rfl, h.map _ h.accReadData16⟩
  | accReadData => exact ⟨_, rfl, h.map _ h.accReadData⟩
  | magInit start => exact ⟨_, rfl, h.map _ (h.magInit start)⟩
  | magSetMode e => exact ⟨_, rfl, h.map _ (h.magSetMode e)⟩
  | magGetMode => exact ⟨_, rfl, h.map _ (h.map _ (h.readRegMasked _ _))⟩
  | magSetOdr d => exact ⟨_, rfl, h.map _ (h.updateRegMasked ..)⟩
  | magGetOdr => exact ⟨_, rfl, h.map _ (h.map _ (h.readRegMasked _ _))⟩
  | magSetFullScale g => exact ⟨_, rfl, h.map _ (h.magSetFullScale rfl g)⟩
  | magGetFullScale => exact ⟨_, rfl, h.map _ h.magGetFullScale⟩
  | magSetTempEn e => exact ⟨_, rfl, h.map _ (h.updateRegMasked ..)⟩
  | magGetTempEn => exact ⟨_, rfl, h.map _ (h.map _ (h.readRegMasked _ _))⟩
  | magGetOdrHz => exact ⟨_, rfl, h.map _ (h.map _ (h.readRegMasked _ _))⟩
  | magGetSens => exact ⟨_, rfl, h.map _ (h.readSensMag rfl)⟩
  | magReadData16 => exact ⟨_, rfl, h.map _ h.magReadData16⟩
  | magReadData => exact ⟨_, rfl, h.map _ h.magReadData⟩
  | magReadTemp16 => exact ⟨_, rfl, h.map _ h.magReadTemp16⟩
  | magReadTemp => exact ⟨_, rfl, h.map _ h.magReadTemp16⟩

/-! #### What one step can do -/

theorem fetch_command {s s' : State} {c : Command} (h : fetch s = .command c s') : ∃ left, s' = { s with pending := left } := by
  unfold fetch at h
  split at h
  · cases h
  · split at h <;> cases h
    exact ⟨_, rfl⟩

/-- A step that answers a next state waits, or runs an operation made of the shared ones on the block of the command it took. -/
theorem step_next_cases {P : InstanceId → (α : Type) → Op α → Prop} {s t : State} (hP : ∀ i, OpClass i s.params (P i))
    (h : step s = .next t) :
    t = s ∨ ∃ i op left, P i (Option ResultData) op ∧ runCommand i op { s with pending := left } = .next t := by
  unfold step at h
  split at h
  · cases h
    exact .inl rfl
  · cases h
  · rename_i c s' hf
    obtain ⟨left, rfl⟩ := fetch_command hf
    refine .inr ?_
    split at h
    · rename_i reason _
      exact ⟨c.target, _, left, (hP _).raises (.refused reason) nofun, h⟩
    · rename_i instr _
      obtain ⟨op, hop, hp⟩ := exec_eq_runCommand (s := { s with pending := left }) hP instr
      exact ⟨instr.target, op, left, hp, hop ▸ h⟩

/-! #### The caches -/

/-- What `MachineInv` says of the caches (10_state.md R21, R23). -/
structure CachesOk (s : State) : Prop where
  acc : ∀ v, s.sensAcc = some v → ∃ fs, v = accSens s.params.floatFmt fs
  mag : (s.sensMagXY = none ∧ s.sensMagZ = none) ∨
    ∃ g, s.sensMagXY = some (magSens s.params.floatFmt s.params.magGains g).1 ∧
      s.sensMagZ = some (magSens s.params.floatFmt s.params.magGains g).2

theorem machineInv_iff {s : State} :
    MachineInv s ↔ paramsOk s.params = true ∧ (∀ i, BlockInv i (s.block i)) ∧ CachesOk s := by
  constructor
  · rintro ⟨hp, ha, hm, hsa, hsm⟩
    exact ⟨hp, fun i => by cases i <;> assumption, hsa, hsm⟩
  · rintro ⟨hp, hb, hsa, hsm⟩
    exact ⟨hp, hb .acc, hb .mag, hsa, hsm⟩

/-- Only the parameters and the caches themselves matter. -/
theorem CachesOk.congr {s t : State} (h : CachesOk s) (hp : t.params = s.params) (ha : t.sensAcc = s.sensAcc)
    (hxy : t.sensMagXY = s.sensMagXY) (hz : t.sensMagZ = s.sensMagZ) : CachesOk t := by
  obtain ⟨hacc, hmag⟩ := h
  constructor
  · rwa [hp, ha]
  · rwa [hp, hxy, hz]

/-- From a state with the parameters `p` and good caches to another one. The parameters belong to it, because a full-scale setter takes
the value it stores from those at the beginning of its command. -/
def CachesKept (p : Params) (s t : State) : Prop := s.params = p ∧ CachesOk s → t.params = p ∧ CachesOk t

theorem cachesKept_refl (p : Params) (s : State) : CachesKept p s s := id

theorem cachesKept_trans (p : Params) (a b c : State) (h : CachesKept p a b) (h' : CachesKept p b c) : CachesKept p a c := h' ∘ h

theorem cachesKept_recorded (p : Params) (i : InstanceId) (req : BusRequest) (r : Response) (s : State) :
    CachesKept p s (recorded i req r s) := by
  rintro ⟨hp, hc⟩
  exact ⟨by simpa using hp, hc.congr (by simp) (by simp) (by simp) (by simp)⟩

theorem cachesKept_unsetSensAcc (p : Params) (s : State) : CachesKept p s (unsetSensAcc s) := by
  rintro ⟨hp, hc⟩
  exact ⟨hp, nofun, hc.mag⟩

theorem cachesKept_unsetSensMag (p : Params) (s : State) : CachesKept p s (unsetSensMag s) := by
  rintro ⟨hp, hc⟩
  exact ⟨hp, hc.acc, .inl ⟨rfl, rfl⟩⟩

theorem cachesKept_setSensAcc (p : Params) (fs : AccFs) (s : State) :
    CachesKept p s { s with sensAcc := some (accSens p.floatFmt fs) } := by
  rintro ⟨rfl, hc⟩
  refine ⟨rfl, ?_, hc.mag⟩
  rintro v hv
  cases hv
  exact ⟨fs, rfl⟩

theorem cachesKept_setSensMag (p : Params) (g : MagFs) (s : State) :
    CachesKept p s { s with
      sensMagXY := some (magSens p.floatFmt p.magGains g).1, sensMagZ := some (magSens p.floatFmt p.magGains g).2 } := by
  rintro ⟨rfl, hc⟩
  exact ⟨rfl, hc.acc, .inr ⟨g, rfl, rfl⟩⟩

/-! #### Every operation is sound -/

section
variable {s : State} {v xy z : FloatVal}

theorem readSensAcc_of_some (h : s.sensAcc = some v) : readSensAcc s = (pure v : Op FloatVal) s := by
  unfold readSensAcc
  rw [op_get_bind, h]

theorem readSensAcc_of_none (h : s.sensAcc = none) : readSensAcc s = (raise (.cacheUnset .sensAcc) : Op FloatVal) s := by
  unfold readSensAcc
  rw [op_get_bind, h]

theorem readSensMag_of_some (hxy : s.sensMagXY = some xy) (hz : s.sensMagZ = some z) :
    readSensMag s = (pure (xy, z) : Op (FloatVal × FloatVal)) s := by
  unfold readSensMag
  rw [op_get_bind, hxy, hz]

theorem readSensMag_of_none (h : s.sensMagXY = none ∨ s.sensMagZ = none) :
    readSensMag s = (raise (.cacheUnset .sensMag) : Op (FloatVal × FloatVal)) s := by
  unfold readSensMag
  rw [op_get_bind]
  rcases h with h | h <;> rw [h]
  cases s.sensMagXY <;> rfl

end

/-- An operation of block `i` that logs what it does to the device, and keeps the caches. -/
def Sound (i : InstanceId) (p : Params) (α : Type) (op : Op α) : Prop :=
  Logs i (fun _ => True) op ∧ Keeps (CachesKept p) op

section
variable {i : InstanceId} {p : Params} {α β : Type}

theorem sound_pure (a : α) : Sound i p α (pure a) := ⟨logs_pure logClass_true a, keeps_pure (cachesKept_refl p) a⟩

theorem sound_raise {o : Status} (ho : ∀ d a, o ≠ .busError d a) : Sound i p α (raise o) :=
  ⟨logs_raise logClass_true ho, keeps_raise (cachesKept_refl p) o⟩

theorem sound_bind {op : Op α} {f : α → Op β} (h : Sound i p α op) (hf : ∀ a, Sound i p β (f a)) : Sound i p β (op >>= f) := by
  obtain ⟨hlogs, hkeeps⟩ := h
  exact ⟨logs_bind logClass_true hlogs fun a => (hf a).1, keeps_bind (cachesKept_trans p) hkeeps fun a => (hf a).2⟩

theorem sound_modify {f : State → State} (hx : ∀ s, Extends i s (f s) []) (hk : ∀ s, CachesKept p s (f s)) :
    Sound i p PUnit (modify f) := ⟨logs_modify logClass_true hx, hk⟩

theorem keeps_memRead (a : Byte) (n : Nat) : Keeps (CachesKept p) (memRead i a n) :=
  keeps_get_bind fun s => keeps_bind (cachesKept_trans p) (keeps_transact (cachesKept_recorded p) _ _ _ _)
    (fun _ => keeps_transact (cachesKept_recorded p) _ _ _ _) s

theorem keeps_writeReg (r : RegIdx) (v : Byte) : Keeps (CachesKept p) (writeReg i r v) :=
  keeps_get_bind fun s => keeps_bind (cachesKept_trans p) (keeps_transact (cachesKept_recorded p) _ _ _ _)
    (fun _ => keeps_pure (cachesKept_refl p) ()) s

theorem sound_readReg (r : RegIdx) : Sound i p Byte (readReg i r) :=
  sound_bind ⟨logs_memRead logClass_true _ _, keeps_memRead _ _⟩ fun _ => sound_pure _

theorem sound_readBurst (r : RegIdx) (n : Nat) : Sound i p (List Byte) (readBurst i r n) :=
  ⟨logs_readBurst logClass_true r n, keeps_memRead _ _⟩

theorem sound_writeReg (r : RegIdx) (v : Byte) : Sound i p Unit (writeReg i r v) :=
  ⟨logs_memWrite _ _ fun _ _ => trivial, keeps_writeReg r v⟩

theorem sound_updateRegMaskedElse (r : RegIdx) (v m : Byte) {f : State → State} (hx : ∀ s, Extends i s (f s) [])
    (hk : ∀ s, CachesKept p s (f s)) : Sound i p Unit (updateRegMaskedElse i r v m f) :=
  ⟨logs_updateRegMaskedElse logClass_true r v m hx fun _ _ _ => trivial,
    keeps_bind (cachesKept_trans p) (sound_readReg r).2 fun _ => keeps_onOutcome (cachesKept_trans p) (keeps_writeReg r _) hk⟩

/-- It suffices that each run is that of a sound operation. -/
theorem sound_of_runs {op : Op α} (h : ∀ s, ∃ op', op s = op' s ∧ Sound i p α op') : Sound i p α op := by
  constructor <;> intro s <;> obtain ⟨op', hs, hlogs, hkeeps⟩ := h s <;> rw [hs]
  · exact hlogs s
  · exact hkeeps s

theorem sound_readSensAcc : Sound i p FloatVal readSensAcc := by
  refine sound_of_runs fun s => ?_
  cases hs : s.sensAcc with
  | none => exact ⟨_, readSensAcc_of_none hs, sound_raise nofun⟩
  | some v => exact ⟨_, readSensAcc_of_some hs, sound_pure v⟩

theorem sound_readSensMag : Sound i p (FloatVal × FloatVal) readSensMag := by
  refine sound_of_runs fun s => ?_
  cases hxy : s.sensMagXY with
  | none => exact ⟨_, readSensMag_of_none (.inl hxy), sound_raise nofun⟩
  | some xy =>
    cases hz : s.sensMagZ with
    | none => exact ⟨_, readSensMag_of_none (.inr hz), sound_raise nofun⟩
    | some z => exact ⟨_, readSensMag_of_some hxy hz, sound_pure (xy, z)⟩

theorem extends_of_caches {s : State} (a xy z : Option FloatVal) :
    Extends i s { s with sensAcc := a, sensMagXY := xy, sensMagZ := z } [] where
  params := rfl
  pending := rfl
  others j _ := by cases j <;> rfl
  history := by cases i <;> simp
  rest := by cases i <;> rfl
  addressed _ he := by cases he
  canonical hc := by cases i <;> exact hc

theorem opClass_sound (i : InstanceId) (p : Params) : OpClass i p (Sound i p) where
  ret := sound_pure
  raises _ := sound_raise
  bind := sound_bind
  readReg := sound_readReg
  readBurst := sound_readBurst
  writeReg := sound_writeReg
  updateRegMasked r v m := sound_updateRegMaskedElse r v m (extends_refl i) (cachesKept_refl p)
  readSensAcc _ := sound_readSensAcc
  accSetFullScale := by
    rintro rfl fs
    refine sound_bind (sound_updateRegMaskedElse _ _ _ (fun s => extends_of_caches _ _ _) (cachesKept_unsetSensAcc p)) fun _ => ?_
    exact sound_modify (fun s => extends_of_caches _ _ _) (cachesKept_setSensAcc p fs)
  readSensMag _ := sound_readSensMag
  magSetFullScale := by
    rintro rfl g
    refine sound_bind (sound_updateRegMaskedElse _ _ _ (fun s => extends_of_caches _ _ _) (cachesKept_unsetSensMag p)) fun _ => ?_
    exact sound_modify (fun s => extends_of_caches _ _ _) (cachesKept_setSensMag p g)

end

/-! #### The blocks -/

theorem accepts_iff {s : State} {i : InstanceId} :
    accepts s i = true ↔ (s.block i).faulted = false ∧ (s.block i).refused = false ∧ (s.block i).hung = false := by
  unfold accepts stuckReason
  cases (s.block i).faulted <;> cases (s.block i).refused <;> cases (s.block i).hung <;> simp

theorem AllOk.not_hang {log : List Transaction} (h : AllOk log) : ¬ ∃ x ∈ log, x.status = .hang := by
  rintro ⟨x, hx, hs⟩
  rw [h x hx] at hs
  cases hs

/-- The last transaction of a log that ends in a bus error was answered `err`. -/
theorem ReportsLast.eq_append {log : List Transaction} {d : Dir} {a : Byte} (h : ReportsLast log d a) :
    ∃ l x, log = l ++ [x] ∧ x.status = .err := by
  cases d with
  | write =>
    obtain ⟨l, dev8, rest, noStop, rfl⟩ := h
    exact ⟨l, _, rfl, rfl⟩
  | read =>
    obtain ⟨l, dev8, n, rfl⟩ := h
    exact ⟨l ++ [⟨.write dev8 [a] true, .ok, []⟩], ⟨.read dev8 n, .err, []⟩, by simp, rfl⟩

theorem not_hang_of_reportsLast {log : List Transaction} {d : Dir} {a : Byte} (h : OnlyLastFails log) (hl : ReportsLast log d a) :
    ¬ ∃ x ∈ log, x.status = .hang := by
  obtain ⟨l, y, rfl, hy⟩ := ReportsLast.eq_append hl
  rintro ⟨x, hx, hs⟩
  rcases List.mem_append.mp hx with hx | hx
  · obtain ⟨before, after, rfl⟩ := List.append_of_mem hx
    rw [h before x (after ++ [y]) (by simp) (by simp)] at hs
    cases hs
  · rw [List.mem_singleton.mp hx, hy] at hs
    cases hs

/-- A log has a transaction that never completed exactly when its operation hung. -/
theorem EndsAs.hang_iff {log : List Transaction} {e : Ending} (h : EndsAs log e) :
    (∃ x ∈ log, x.status = .hang) ↔ e = .hang := by
  rcases e with o | _
  · refine iff_of_false ?_ nofun
    cases o with
    | busError d a => exact not_hang_of_reportsLast h.1 h.2
    | ok | initFailed | invalidConfig | unreachableDecode | cacheUnset | refused => exact AllOk.not_hang h
  · obtain ⟨l, x, rfl, -, hx⟩ := h
    exact iff_of_true ⟨x, by simp, hx⟩ rfl

section
variable {i : InstanceId} {s t : State} {log : List Transaction}

theorem Extends.status (x : Extends i s t log) : (t.block i).status = (s.block i).status := (congrArg Block.status x.rest :)
theorem Extends.result (x : Extends i s t log) : (t.block i).result = (s.block i).result := (congrArg Block.result x.rest :)
theorem Extends.faulted (x : Extends i s t log) : (t.block i).faulted = (s.block i).faulted := (congrArg Block.faulted x.rest :)
theorem Extends.refused (x : Extends i s t log) : (t.block i).refused = (s.block i).refused := (congrArg Block.refused x.rest :)
theorem Extends.hung (x : Extends i s t log) : (t.block i).hung = (s.block i).hung := (congrArg Block.hung x.rest :)
theorem Extends.dev7 (x : Extends i s t log) : (t.block i).dev7 = (s.block i).dev7 := (congrArg Block.dev7 x.rest :)

/-- A log keeps the invariant of its block, with the hang mark that belongs to it. -/
theorem BlockInv.logged (hb : BlockInv i (s.block i)) (x : Extends i s t log) {hung : Bool}
    (hh : hung = true ↔ (s.block i).hung = true ∨ ∃ e ∈ log, e.status = .hang) : BlockInv i { t.block i with hung := hung } where
  binding := x.dev7.trans hb.binding
  result_only_after_ok := by simpa only [x.result, x.status] using hb.result_only_after_ok
  faulted_iff_fatal := by simpa only [x.faulted, x.status] using hb.faulted_iff_fatal
  refused_iff_refusal := by simpa only [x.refused, x.status] using hb.refused_iff_refusal
  hung_iff_hang := by
    simp only [hh, hb.hung_iff_hang, x.history, List.mem_append, or_and_right, exists_or]
  addressed := by
    intro e he
    change e ∈ (t.block i).history at he
    change _ = (t.block i).dev8
    rw [x.history, List.mem_append] at he
    rw [x.dev8]
    exact he.elim (hb.addressed e) (x.addressed e)
  canonical := x.canonical hb.canonical

/-- A log in which every transaction completed keeps the invariant of its block. -/
theorem BlockInv.logged_of_no_hang (hb : BlockInv i (s.block i)) (x : Extends i s t log) (hl : ¬ ∃ e ∈ log, e.status = .hang) :
    BlockInv i (t.block i) :=
  hb.logged (hung := (t.block i).hung) x (by rw [x.hung]; simp only [hl, or_false])

variable {b : Block}

/-- An `OK` keeps the invariant of an block without marks. -/
theorem BlockInv.ended_ok (hb : BlockInv i b) (hf : b.faulted = false) (hr : b.refused = false) (d : Option ResultData) :
    BlockInv i { b with status := some .ok, result := d } where
  binding := hb.binding
  result_only_after_ok _ := rfl
  faulted_iff_fatal := by simp [hf, isFatal]
  refused_iff_refusal := by simp [hr, isRefusal]
  hung_iff_hang := hb.hung_iff_hang
  addressed := hb.addressed
  canonical := hb.canonical

/-- Outcome entry (60_exceptions.md R209) keeps the invariant of an block without marks. -/
theorem BlockInv.ended_outcome (hb : BlockInv i b) (hf : b.faulted = false) (hr : b.refused = false) (o : Status) :
    BlockInv i { b with
      status := some o, result := none, faulted := b.faulted || isFatal o, refused := b.refused || isRefusal o } where
  binding := hb.binding
  result_only_after_ok hne := absurd rfl hne
  faulted_iff_fatal := by simp [hf]
  refused_iff_refusal := by simp [hr]
  hung_iff_hang := hb.hung_iff_hang
  addressed := hb.addressed
  canonical := hb.canonical

end

/-! #### The end of a command -/

section
variable {i : InstanceId} (r : EStateM.Result Ending State (Option ResultData))

theorem finish_block_ne {j : InstanceId} (hj : j ≠ i) : (finish i r).block j = (stateOf r).block j := by
  rcases r with ⟨d, t⟩ | ⟨o | _, t⟩
  · exact endOk_block_ne t i d hj
  · exact takeOutcome_block_ne t i o hj
  · exact hangUp_block_ne t i hj

theorem finish_params : (finish i r).params = (stateOf r).params := by
  rcases r with ⟨d, t⟩ | ⟨o | _, t⟩ <;> simp [finish, stateOf]

theorem CachesOk.finish (h : CachesOk (stateOf r)) : CachesOk (finish i r) := by
  refine h.congr (finish_params r) ?_ ?_ ?_ <;> rcases r with ⟨d, t⟩ | ⟨o | _, t⟩ <;> simp [Machine.finish, stateOf]

end

/-- A sound operation extends the log of its block, however it ends. -/
theorem Logs.extends_stateOf {α : Type} {i : InstanceId} {C : List Transaction → Prop} {op : Op α} (h : Logs i C op) (s : State) :
    ∃ log, Extends i s (stateOf (op s)) log := by
  cases hop : op s with
  | ok a t =>
    obtain ⟨log, x, -⟩ := (h s).1 a t hop
    exact ⟨log, x⟩
  | error e t =>
    obtain ⟨log, x, -⟩ := (h s).2 e t hop
    exact ⟨log, x⟩

/-- A command keeps the invariant of its own block. -/
theorem BlockInv.finish {i : InstanceId} {s : State} {C : List Transaction → Prop} {op : Op (Option ResultData)}
    (hb : BlockInv i (s.block i)) (ha : accepts s i = true) (hop : Logs i C op) : BlockInv i ((finish i (op s)).block i) := by
  obtain ⟨hf, hr, -⟩ := accepts_iff.mp ha
  obtain ⟨hok, herr⟩ := hop s
  rcases hres : op s with ⟨d, t⟩ | ⟨o | _, t⟩
  · obtain ⟨log, x, -, hall⟩ := hok d t hres
    rw [Machine.finish, endOk_block]
    exact (hb.logged_of_no_hang x hall.not_hang).ended_ok (x.faulted.trans hf) (x.refused.trans hr) d
  · obtain ⟨log, x, -, hend⟩ := herr _ t hres
    rw [Machine.finish, takeOutcome_block]
    have hl : ¬ ∃ e ∈ log, e.status = .hang := by rw [hend.hang_iff]; nofun
    exact (hb.logged_of_no_hang x hl).ended_outcome (x.faulted.trans hf) (x.refused.trans hr) o
  · obtain ⟨log, x, -, hend⟩ := herr _ t hres
    rw [Machine.finish, hangUp_block]
    exact hb.logged x (iff_of_true rfl (.inr (hend.hang_iff.mpr rfl)))

/-- A command made of a sound operation keeps the invariant of the machine. -/
theorem machineInv_runCommand {i : InstanceId} {s t : State} {op : Op (Option ResultData)} (hs : MachineInv s)
    (hop : Sound i s.params _ op) (h : runCommand i op s = .next t) : MachineInv t := by
  obtain ⟨hp, hb, hc⟩ := machineInv_iff.mp hs
  obtain ⟨hlogs, hkeeps⟩ := hop
  obtain ⟨ha, rfl⟩ := runCommand_next_iff.mp h
  obtain ⟨hp', hc'⟩ := hkeeps s ⟨rfl, hc⟩
  obtain ⟨log, x⟩ := hlogs.extends_stateOf s
  refine machineInv_iff.mpr ⟨by rw [finish_params, hp']; exact hp, fun j => ?_, hc'.finish⟩
  by_cases hj : j = i
  · subst hj
    exact (hb j).finish ha hlogs
  · rw [finish_block_ne _ hj, x.others j hj]
    exact hb j

/-- Which commands wait is no part of the invariant. -/
theorem machineInv_pending {s : State} (h : MachineInv s) (left : List Command) : MachineInv { s with pending := left } := by
  obtain ⟨hp, ha, hm, hsa, hsm⟩ := h
  exact ⟨hp, ha, hm, hsa, hsm⟩

/-- Settles O3: a step waits, or runs one command, which is made of the shared operations; each of them logs what it does and keeps the
caches. -/
theorem stepKeepsInvariant : Obligations.StepKeepsInvariant := by
  intro s t hs h
  obtain rfl | ⟨i, op, left, hop, hrun⟩ := step_next_cases (fun i => opClass_sound i s.params) h
  · exact hs
  · exact machineInv_runCommand (machineInv_pending hs left) hop hrun

end Sys2Proof.Machine

/-! ### Reset, and how an accepted command ends

SUPPORT. O1, O2 and O15: what the two blocks hold at construction, and what the end of a command sets in its block. -/

namespace Sys2Proof.Machine

/-- Settles O1: the fields of the two constructed blocks. -/
theorem resetIsConstruction : Obligations.ResetIsConstruction :=
  ⟨⟨rfl, by decide, rfl, by decide⟩, rfl, rfl, rfl, fun i => by cases i <;> exact ⟨rfl, rfl, rfl, rfl, rfl⟩⟩

/-- A block right after construction has no outcome, no mark, no history, and an oracle behind it. -/
theorem blockInv_constructed (i : InstanceId) : BlockInv i (Block.constructed (boundAddress i)) where
  binding := rfl
  result_only_after_ok h := absurd rfl h
  faulted_iff_fatal := by simp [Block.constructed]
  refused_iff_refusal := by simp [Block.constructed]
  hung_iff_hang := by simp [Block.constructed]
  addressed _ h := nomatch h
  canonical _ h := nomatch h

theorem paramsOk_defaultParams : paramsOk defaultParams = true := by decide +kernel

/-- Settles O2: the default parameters meet their constraints, and both blocks are constructed with no cache set. -/
theorem resetMeetsInvariant : Obligations.ResetMeetsInvariant where
  params_ok := paramsOk_defaultParams
  acc_block := blockInv_constructed .acc
  mag_block := blockInv_constructed .mag
  sens_acc _ h := nomatch h
  sens_mag := .inl ⟨rfl, rfl⟩

/-- Settles O15: the end of a command sets STATUS, RESULT and the marks of a block that had no mark, and the operation before it left them
alone. -/
theorem acceptedCommandEnds : Obligations.AcceptedCommandEnds := by
  intro c s ha
  obtain ⟨op, hop, hlogs, -⟩ := exec_eq_runCommand (fun i => opClass_sound i s.params) c
  obtain ⟨log, x⟩ := hlogs.extends_stateOf s
  obtain ⟨hf, hr, hh⟩ := accepts_iff.mp ha
  refine ⟨_, hop.trans (runCommand_of_accepts ha op), ?_⟩
  rcases hres : op s with ⟨d, t⟩ | ⟨o | _, t⟩ <;> rw [hres, stateOf] at x
  · rw [finish, endOk_block]
    exact .inl ⟨.ok, rfl, x.faulted.trans hf, x.refused.trans hr, x.hung.trans hh, fun hne => absurd rfl hne⟩
  · rw [finish, takeOutcome_block]
    exact .inl ⟨o, rfl, by simp [x.faulted, hf], by simp [x.refused, hr], x.hung.trans hh, fun _ => rfl⟩
  · rw [finish, hangUp_block]
    exact .inr ⟨x.status, x.result, x.faulted.trans hf, x.refused.trans hr, rfl⟩

end Sys2Proof.Machine

/-! ### Which shared operations a command uses

SUPPORT. `OpClass` asks that a property hold of every shared operation. The statements about the caches and about the bits that a codec
command writes rest on which of them a given command uses: `CommandClass` asks only for those, and `exec_eq_runCommand_of_class` says that
the property then holds of the command. -/

namespace Sys2Proof.Machine

/-- The commands that write the caches of a block (10_state.md R21, R23). -/
def SetsCaches : InstanceId → Instr → Prop
  | .acc, c => (∃ fs, c = .accSetFullScale fs) ∨ ∃ start, c = .accInit start
  | .mag, c => (∃ g, c = .magSetFullScale g) ∨ ∃ start, c = .magInit start

/-- The commands that read the caches of a block (10_state.md R21, R23). -/
def ReadsCaches : InstanceId → Instr → Prop
  | .acc, c => c = .accReadData ∨ c = .accGetSens
  | .mag, c => c = .magReadData ∨ c = .magGetSens

/-- The registers that the codec commands of a block update, with the masks they do it under (41_accel_codec.md, 42_mag_codec.md). -/
def codecMasks (m : RegMap) : InstanceId → List (RegIdx × Byte)
  | .acc => [(m.accCtrl1, m.accOdrMask), (m.accCtrl1, m.accOdrMask ||| m.accAxesMask), (m.accCtrl1, m.accLpenMask),
      (m.accCtrl2, m.accHpfEnMask), (m.accCtrl2, m.accHpfEnMask ||| m.accHpcfMask), (m.accCtrl3, routeMask m),
      (m.accCtrl4, m.accFsMask), (m.accCtrl4, m.accHrMask), (m.accCtrl5, m.accBootMask), (m.accCtrl5, m.accFifoEnMask),
      (m.accFifoCtrl, m.accFmMask), (m.accFifoCtrl, m.accFthMask)]
  | .mag => [(m.magCra, m.magTempEnMask), (m.magCra, m.magDoMask), (m.magCrb, m.magGnMask), (m.magMr, m.magMdMask)]

/-- `P` holds of the shared operations on block `i` that the command `c` may use, and is kept by sequencing: only a helper command writes
what it is told to, and the cache operations belong to the commands of 10_state.md R21 and R23. -/
structure CommandClass (c : Instr) (i : InstanceId) (p : Params) (P : (α : Type) → Op α → Prop) : Prop where
  ret : ∀ {α : Type} (a : α), P α (pure a)
  raises : ∀ {α : Type} (o : Status), (∀ d a, o ≠ .busError d a) → P α (raise o)
  bind : ∀ {α β : Type} {op : Op α} {f : α → Op β}, P α op → (∀ a, P β (f a)) → P β (op >>= f)
  readReg : ∀ r, P Byte (readReg i r)
  readBurst : ∀ r n, P (List Byte) (readBurst i r n)
  writeReg : c.isHelper = true → ∀ r v, P Unit (writeReg i r v)
  updateRegMasked : ∀ r v m, c.isHelper = true ∨ (r, m) ∈ codecMasks p.regMap i → P Unit (updateRegMasked i r v m)
  readSensAcc : i = .acc → ReadsCaches i c → P FloatVal readSensAcc
  accSetFullScale : i = .acc → SetsCaches i c → ∀ fs, P Unit (accSetFullScale p fs)
  readSensMag : i = .mag → ReadsCaches i c → P (FloatVal × FloatVal) readSensMag
  magSetFullScale : i = .mag → SetsCaches i c → ∀ g, P Unit (magSetFullScale p g)

namespace CommandClass

variable {c : Instr} {i : InstanceId} {p : Params} {P : (α : Type) → Op α → Prop}

theorem map {α β : Type} (h : CommandClass c i p P) {op : Op α} (f : α → β) (hop : P α op) : P β (op >>= fun a => pure (f a)) :=
  h.bind hop fun _ => h.ret _

theorem update (h : CommandClass c i p P) {r : RegIdx} {m : Byte} (v : Byte) (hm : (r, m) ∈ codecMasks p.regMap i) :
    P Unit (Machine.updateRegMasked i r v m) := h.updateRegMasked r v m (.inr hm)

theorem readRegMasked (h : CommandClass c i p P) (r : RegIdx) (m : Byte) : P Byte (readRegMasked i r m) := h.map _ (h.readReg r)

/-! The sub-operations of the accelerometer (41_accel_codec.md). -/

section Accel

variable (h : CommandClass c .acc p P)
include h

theorem accGetOdr : P AccOdr (accGetOdr p) := by
  refine h.bind (h.readReg _) fun r => ?_
  split
  · exact h.ret _
  · exact h.raises _ nofun

theorem accGetPowerMode : P PowerMode (accGetPowerMode p) := h.map _ (h.readRegMasked _ _)

theorem accGetHpfMode : P HpfMode (accGetHpfMode p) := h.map _ (h.readReg _)

theorem accGetFifoMode : P FifoMode (accGetFifoMode p) :=
  h.bind (h.readRegMasked _ _) fun _ => h.bind (h.readRegMasked _ _) fun fm =>
    OpClass.of_ite (h.ret _) (OpClass.of_ite (h.ret _) (h.raises (.unreachableDecode _ fm) nofun))

theorem accDrain : P Unit (accDrain p) :=
  h.bind (h.readRegMasked _ _) fun _ => OpClass.of_ite (h.map _ (h.readBurst _ _)) (h.ret _)

theorem accRebootPulse : P Unit (accRebootPulse p) :=
  h.bind (h.update _ (by simp [codecMasks])) fun _ => h.update _ (by simp [codecMasks])

theorem irqDisable : P Unit (irqDisable p) := h.update _ (by simp [codecMasks])

theorem irqEnable : P Unit (irqEnable p) := by
  refine h.bind h.accDrain fun _ => h.bind h.accGetFifoMode fun f => ?_
  cases f <;> exact h.update _ (by simp [codecMasks])

theorem irqQuery : P Bool (irqQuery p) := h.map _ (h.readRegMasked _ _)

theorem irqRefresh : P Unit (irqRefresh p) := h.bind h.irqQuery fun _ => OpClass.of_ite h.irqEnable (h.ret _)

theorem drainFrom (cur : AccOdr) : P Unit (drainFrom p cur) := OpClass.of_ite h.accDrain (h.ret _)

theorem accSetOdr (o : AccOdr) : P Unit (accSetOdr p o) :=
  h.bind h.accGetOdr fun cur => OpClass.of_ite (h.ret _) <| OpClass.of_ite (h.update _ (by simp [codecMasks])) <|
    h.bind h.accGetPowerMode fun pm =>
      OpClass.of_ite (h.bind (h.drainFrom cur) fun _ => h.update _ (by simp [codecMasks])) (h.raises (.invalidConfig (.odr o pm)) nofun)

theorem accSetPowerMode (pm : PowerMode) : P Unit (accSetPowerMode p pm) := h.update _ (by simp [codecMasks])

theorem accSetHighRes (e : Bool) : P Unit (accSetHighRes p e) := h.update _ (by simp [codecMasks])

theorem accSetHpfMode (m : HpfMode) : P Unit (accSetHpfMode p m) := by
  cases m <;> exact h.update _ (by simp [codecMasks])

theorem accSetDrdyInt (e : Bool) : P Unit (accSetDrdyInt p e) := OpClass.of_ite h.irqEnable h.irqDisable

theorem accSetFifoMode (f : FifoMode) : P Unit (accSetFifoMode p f) :=
  h.bind (h.update _ (by simp [codecMasks])) fun _ => h.bind (h.update _ (by simp [codecMasks])) fun _ => h.irqRefresh

theorem accSetFifoWatermark (w : Byte) : P Unit (accSetFifoWatermark p w) :=
  OpClass.of_ite (h.raises (.invalidConfig (.watermark w)) nofun) (h.update _ (by simp [codecMasks]))

theorem accClearFifo : P Unit (accClearFifo p) :=
  h.bind (h.readRegMasked _ _) fun _ => h.bind (h.update _ (by simp [codecMasks])) fun _ => h.update _ (by simp [codecMasks])

theorem accInit (hc : SetsCaches .acc c) (start : Bool) : P Unit (accInit p start) :=
  h.bind (h.readReg _) fun id => OpClass.of_ite (h.raises (.initFailed .idMismatch _ id) nofun) <|
    h.bind h.accRebootPulse fun _ => h.bind h.irqDisable fun _ => h.bind (h.accSetFifoMode _) fun _ =>
    h.bind (h.accSetFifoWatermark _) fun _ => h.bind (h.accSetFullScale rfl hc _) fun _ => h.bind (h.accSetHpfMode _) fun _ =>
    h.bind (h.accSetHighRes _) fun _ => h.bind (h.accSetPowerMode _) fun _ => h.bind h.accDrain fun _ =>
    h.bind (h.accSetOdr _) fun _ => h.bind (h.readRegMasked _ _) fun f =>
    OpClass.of_ite (h.raises (.initFailed .readbackMismatch _ f) nofun) (h.ret _)

theorem accGetHpfCutoff : P FloatVal (accGetHpfCutoff p) := by
  refine h.bind h.accGetHpfMode fun m => h.bind h.accGetOdr fun _ => ?_
  cases m <;> exact h.ret _

theorem accReadData16 : P Triple (accReadData16 p) := h.map _ (h.readBurst _ _)

theorem accReadData (hc : ReadsCaches .acc c) : P ResultData (accReadData p) :=
  h.bind (h.readSensAcc rfl hc) fun _ => h.map _ h.accReadData16

end Accel

/-! The sub-operations of the magnetometer (42_mag_codec.md). -/

section Mag

variable (h : CommandClass c .mag p P)
include h

theorem magGetFullScale : P MagFs (magGetFullScale p) := by
  refine h.bind (h.readRegMasked _ _) fun b => ?_
  split
  · exact h.ret _
  · exact h.raises _ nofun

theorem magSetMode (e : Bool) : P Unit (magSetMode p e) :=
  OpClass.of_ite (h.update _ (by simp [codecMasks])) (h.update _ (by simp [codecMasks]))

theorem magSetOdr (d : MagOdr) : P Unit (magSetOdr p d) := h.update _ (by simp [codecMasks])

theorem magSetTempEn (e : Bool) : P Unit (magSetTempEn p e) := h.update _ (by simp [codecMasks])

theorem magCheckIds : ∀ ids : List (RegIdx × Byte), P Unit (magCheckIds ids)
  | [] => h.ret _
  | (r, _) :: rest => h.bind (h.readReg r) fun b =>
      OpClass.of_ite (h.raises (.initFailed .idMismatch r b) nofun) (magCheckIds rest)

theorem magInit (hc : SetsCaches .mag c) (start : Bool) : P Unit (magInit p start) :=
  h.bind (h.magCheckIds _) fun _ => h.bind (h.magSetTempEn _) fun _ => h.bind (h.magSetOdr _) fun _ =>
    h.bind (h.magSetFullScale rfl hc _) fun _ => h.magSetMode start

theorem magReadData16 : P Triple (magReadData16 p) := h.map _ (h.readBurst _ _)

theorem magReadTemp16 : P Int (magReadTemp16 p) := h.map _ (h.readBurst _ _)

theorem magReadData (hc : ReadsCaches .mag c) : P ResultData (magReadData p) :=
  h.bind (h.readSensMag rfl hc) fun _ => h.map _ h.magReadData16

end Mag

end CommandClass

/-- Every command runs, on its block, one operation made of the shared operations it may use, the same in all states with the same
parameters: whatever holds of those holds of it. -/
theorem exec_eq_runCommand_of_class {P : (α : Type) → Op α → Prop} {c : Instr} {s : State} (h : CommandClass c c.target s.params P) :
    ∃ op, exec c s = runCommand c.target op s ∧ (∀ s', s'.params = s.params → exec c s' = runCommand c.target op s') ∧
      P (Option ResultData) op := by
  cases c with
  | readReg i r => exact ⟨_, rfl, fun _ _ => rfl, h.map _ (h.readReg r)⟩
  | writeReg i r v => exact ⟨_, rfl, fun _ _ => rfl, h.map _ (h.writeReg rfl r v)⟩
  | readRegMasked i r m => exact ⟨_, rfl, fun _ _ => rfl, h.map _ (h.readRegMasked r m)⟩
  | updateRegMasked i r v m => exact ⟨_, rfl, fun _ _ => rfl, h.map _ (h.updateRegMasked r v m (.inl rfl))⟩
  | readBurst i r n =>
    by_cases hn : n = 0#8
    · exact ⟨_, if_pos hn, fun _ _ => if_pos hn, h.raises (.refused .badArgument) nofun⟩
    · exact ⟨_, if_neg hn, fun _ _ => if_neg hn, h.map _ (h.readBurst r _)⟩
  | accInit start => exact ⟨_, rfl, fun _ hs => hs ▸ rfl, h.map _ (h.accInit (.inr ⟨start, rfl⟩) start)⟩
  | accSetOdr o => exact ⟨_, rfl, fun _ hs => hs ▸ rfl, h.map _ (h.accSetOdr o)⟩
  | accGetOdr => exact ⟨_, rfl, fun _ hs => hs ▸ rfl, h.map _ h.accGetOdr⟩
  | accSetPowerMode pm => exact ⟨_, rfl, fun _ hs => hs ▸ rfl, h.map _ (h.accSetPowerMode pm)⟩
  | accGetPowerMode => exact ⟨_, rfl, fun _ hs => hs ▸ rfl, h.map _ h.accGetPowerMode⟩
  | accSetFullScale fs => exact ⟨_, rfl, fun _ hs => hs ▸ rfl, h.map _ (h.accSetFullScale rfl (.inl ⟨fs, rfl⟩) fs)⟩
  | accGetFullScale => exact ⟨_, rfl, fun _ hs => hs ▸ rfl, h.map _ (h.map _ (h.readRegMasked _ _))⟩
  | accSetHighRes e => exact ⟨_, rfl, fun _ hs => hs ▸ rfl, h.map _ (h.accSetHighRes e)⟩
  | accGetHighRes => exact ⟨_, rfl, fun _ hs => hs ▸ rfl, h.map _ (h.map _ (h.readRegMasked _ _))⟩
  | accSetHpfMode m => exact ⟨_, rfl, fun _ hs => hs ▸ rfl, h.map _ (h.accSetHpfMode m)⟩
  | accGetHpfMode => exact ⟨_, rfl, fun _ hs => hs ▸ rfl, h.map _ h.accGetHpfMode⟩
  | accSetFifoMode f => exact ⟨_, rfl, fun _ hs => hs ▸ rfl, h.map _ (h.accSetFifoMode f)⟩
  | accGetFifoMode => exact ⟨_, rfl, fun _ hs => hs ▸ rfl, h.map _ h.accGetFifoMode⟩
  | accSetFifoWatermark w => exact ⟨_, rfl, fun _ hs => hs ▸ rfl, h.map _ (h.accSetFifoWatermark w)⟩
  | accGetFifoWatermark => exact ⟨_, rfl, fun _ hs => hs ▸ rfl, h.map _ (h.readRegMasked _ _)⟩
  | accClearFifo => exact ⟨_, rfl, fun _ hs => hs ▸ rfl, h.map _ h.accClearFifo⟩
  | accSetDrdyInt e => exact ⟨_, rfl, fun _ hs => hs ▸ rfl, h.map _ (h.accSetDrdyInt e)⟩
  | accGetDrdyInt => exact ⟨_, rfl, fun _ hs => hs ▸ rfl, h.map _ h.irqQuery⟩
  | accGetOdrHz => exact ⟨_, rfl, fun _ hs => hs ▸ rfl, h.map _ h.accGetOdr⟩
  | accGetHpfCutoff => exact ⟨_, rfl, fun _ hs => hs ▸ rfl, h.map _ h.accGetHpfCutoff⟩
  | accGetSens => exact ⟨_, rfl, fun _ _ => rfl, h.map _ (h.readSensAcc rfl (.inr rfl))⟩
  | accReadData16 => exact ⟨_, rfl, fun _ hs => hs ▸ rfl, h.map _ h.accReadData16⟩
  | accReadData => exact ⟨_, rfl, fun _ hs => hs ▸ rfl, h.map _ (h.accReadData (.inl rfl))⟩
  | magInit start => exact ⟨_, rfl, fun _ hs => hs ▸ rfl, h.map _ (h.magInit (.inr ⟨start, rfl⟩) start)⟩
  | magSetMode e => exact ⟨_, rfl, fun _ hs => hs ▸ rfl, h.map _ (h.magSetMode e)⟩
  | magGetMode => exact ⟨_, rfl, fun _ hs => hs ▸ rfl, h.map _ (h.map _ (h.readRegMasked _ _))⟩
  | magSetOdr d => exact ⟨_, rfl, fun _ hs => hs ▸ rfl, h.map _ (h.magSetOdr d)⟩
  | magGetOdr => exact ⟨_, rfl, fun _ hs => hs ▸ rfl, h.map _ (h.map _ (h.readRegMasked _ _))⟩
  | magSetFullScale g => exact ⟨_, rfl, fun _ hs => hs ▸ rfl, h.map _ (h.magSetFullScale rfl (.inl ⟨g, rfl⟩) g)⟩
  | magGetFullScale => exact ⟨_, rfl, fun _ hs => hs ▸ rfl, h.map _ h.magGetFullScale⟩
  | magSetTempEn e => exact ⟨_, rfl, fun _ hs => hs ▸ rfl, h.map _ (h.magSetTempEn e)⟩
  | magGetTempEn => exact ⟨_, rfl, fun _ hs => hs ▸ rfl, h.map _ (h.map _ (h.readRegMasked _ _))⟩
  | magGetOdrHz => exact ⟨_, rfl, fun _ hs => hs ▸ rfl, h.map _ (h.map _ (h.readRegMasked _ _))⟩
  | magGetSens => exact ⟨_, rfl, fun _ _ => rfl, h.map _ (h.readSensMag rfl (.inr rfl))⟩
  | magReadData16 => exact ⟨_, rfl, fun _ hs => hs ▸ rfl, h.map _ h.magReadData16⟩
  | magReadData => exact ⟨_, rfl, fun _ hs => hs ▸ rfl, h.map _ (h.magReadData (.inl rfl))⟩
  | magReadTemp16 => exact ⟨_, rfl, fun _ hs => hs ▸ rfl, h.map _ h.magReadTemp16⟩
  | magReadTemp => exact ⟨_, rfl, fun _ hs => hs ▸ rfl, h.map _ h.magReadTemp16⟩

/-! #### Reading the caches -/

/-- A cache is set, and its value is read, or it is not, and the command ends (10_state.md R25). -/
theorem readSensAcc_cases (s : State) : (∃ v, readSensAcc s = (pure v : Op FloatVal) s) ∨
    readSensAcc s = (raise (.cacheUnset .sensAcc) : Op FloatVal) s := by
  cases h : s.sensAcc with
  | none => exact .inr (readSensAcc_of_none h)
  | some v => exact .inl ⟨v, readSensAcc_of_some h⟩

theorem readSensMag_cases (s : State) : (∃ v, readSensMag s = (pure v : Op (FloatVal × FloatVal)) s) ∨
    readSensMag s = (raise (.cacheUnset .sensMag) : Op (FloatVal × FloatVal)) s := by
  cases hxy : s.sensMagXY with
  | none => exact .inr (readSensMag_of_none (.inl hxy))
  | some xy =>
    cases hz : s.sensMagZ with
    | none => exact .inr (readSensMag_of_none (.inr hz))
    | some z => exact .inl ⟨(xy, z), readSensMag_of_some hxy hz⟩

/-! #### Who writes the caches -/

/-- The caches of a block (10_state.md R21, R23) are in `t` as in `s`. -/
def SameCaches : InstanceId → State → State → Prop
  | .acc, s, t => t.sensAcc = s.sensAcc
  | .mag, s, t => t.sensMagXY = s.sensMagXY ∧ t.sensMagZ = s.sensMagZ

/-- The caches of a block are UNSET or hold what its full-scale setter stores (10_state.md R21, R23). -/
def CachesStored (p : Params) : InstanceId → State → Prop
  | .acc, t => t.sensAcc = none ∨ ∃ fs, t.sensAcc = some (accSens p.floatFmt fs)
  | .mag, t => (t.sensMagXY = none ∧ t.sensMagZ = none) ∨
      ∃ g, t.sensMagXY = some (magSens p.floatFmt p.magGains g).1 ∧ t.sensMagZ = some (magSens p.floatFmt p.magGains g).2

/-- The caches of `j` stay as they are, or the command `c` is one that writes them and stores values of theirs. -/
def CachesWritten (c : Instr) (p : Params) (j : InstanceId) (s t : State) : Prop :=
  SameCaches j s t ∨ SetsCaches j c ∧ CachesStored p j t

section
variable {c : Instr} {p : Params} {j : InstanceId}

theorem sameCaches_refl (s : State) : SameCaches j s s := by
  cases j
  · exact rfl
  · exact ⟨rfl, rfl⟩

theorem CachesStored.congr {s t : State} (hs : CachesStored p j s) (h : SameCaches j s t) : CachesStored p j t := by
  cases j
  · change t.sensAcc = s.sensAcc at h
    rwa [CachesStored, h]
  · obtain ⟨hxy, hz⟩ := h
    rwa [CachesStored, hxy, hz]

theorem SameCaches.trans {a b d : State} (h : SameCaches j a b) (h' : SameCaches j b d) : SameCaches j a d := by
  cases j
  · exact Eq.trans h' h
  · exact ⟨h'.1.trans h.1, h'.2.trans h.2⟩

theorem cachesWritten_refl (s : State) : CachesWritten c p j s s := .inl (sameCaches_refl s)

theorem cachesWritten_trans (a b d : State) (h : CachesWritten c p j a b) (h' : CachesWritten c p j b d) : CachesWritten c p j a d := by
  obtain h' | h' := h'
  · obtain h | ⟨hc, h⟩ := h
    · exact .inl (h.trans h')
    · exact .inr ⟨hc, h.congr h'⟩
  · exact .inr h'

theorem sameCaches_recorded (i : InstanceId) (req : BusRequest) (r : Response) (s : State) : SameCaches j s (recorded i req r s) := by
  cases j
  · exact recorded_sensAcc s i req r
  · exact ⟨recorded_sensMagXY s i req r, recorded_sensMagZ s i req r⟩

theorem sameCaches_finish (i : InstanceId) (r : EStateM.Result Ending State (Option ResultData)) :
    SameCaches j (stateOf r) (finish i r) := by
  cases j <;> rcases r with ⟨d, t⟩ | ⟨o | _, t⟩ <;> simp [SameCaches, finish, stateOf]

theorem cachesWritten_setSensAcc (hc : SetsCaches .acc c) {v : Option FloatVal}
    (hv : v = none ∨ ∃ fs, v = some (accSens p.floatFmt fs)) (s : State) : CachesWritten c p j s { s with sensAcc := v } := by
  cases j
  · exact .inr ⟨hc, hv⟩
  · exact .inl ⟨rfl, rfl⟩

theorem cachesWritten_setSensMag (hc : SetsCaches .mag c) {x z : Option FloatVal}
    (hv : (x = none ∧ z = none) ∨
      ∃ g, x = some (magSens p.floatFmt p.magGains g).1 ∧ z = some (magSens p.floatFmt p.magGains g).2) (s : State) :
    CachesWritten c p j s { s with sensMagXY := x, sensMagZ := z } := by
  cases j
  · exact .inl rfl
  · exact .inr ⟨hc, hv⟩

end

/-! What every transaction keeps, the register operations keep. -/

section
variable {R : State → State → Prop} (ht : ∀ a b d, R a b → R b d → R a d) (hrec : ∀ i req r s, R s (recorded i req r s))
  (hr : ∀ s, R s s) {i : InstanceId}
include ht hrec

theorem keeps_memRead_of_recorded (a : Byte) (n : Nat) : Keeps R (memRead i a n) :=
  keeps_get_bind fun s => keeps_bind ht (keeps_transact hrec _ _ _ _) (fun _ => keeps_transact hrec _ _ _ _) s

include hr

theorem keeps_readReg_of_recorded (r : RegIdx) : Keeps R (readReg i r) :=
  keeps_bind ht (keeps_memRead_of_recorded ht hrec _ _) fun _ => keeps_pure hr _

theorem keeps_writeReg_of_recorded (r : RegIdx) (v : Byte) : Keeps R (writeReg i r v) :=
  keeps_get_bind fun s => keeps_bind ht (keeps_transact hrec _ _ _ _) (fun _ => keeps_pure hr ()) s

theorem keeps_updateRegMaskedElse_of_recorded (r : RegIdx) (v m : Byte) {f : State → State} (hf : ∀ s, R s (f s)) :
    Keeps R (updateRegMaskedElse i r v m f) :=
  keeps_bind ht (keeps_readReg_of_recorded ht hrec hr r) fun _ => keeps_onOutcome ht (keeps_writeReg_of_recorded ht hrec hr r _) hf

end

theorem keeps_readSensAcc {R : State → State → Prop} (hr : ∀ s, R s s) : Keeps R readSensAcc := by
  intro s
  obtain ⟨v, h⟩ | h := readSensAcc_cases s <;> rw [h] <;> exact hr s

theorem keeps_readSensMag {R : State → State → Prop} (hr : ∀ s, R s s) : Keeps R readSensMag := by
  intro s
  obtain ⟨v, h⟩ | h := readSensMag_cases s <;> rw [h] <;> exact hr s

/-- Only the full-scale setters write the caches, each those of its own block. -/
theorem commandClass_cachesWritten (c : Instr) (i : InstanceId) (p : Params) (j : InstanceId) :
    CommandClass c i p (fun _ => Keeps (CachesWritten c p j)) := by
  have hrec (i req r s) : CachesWritten c p j s (recorded i req r s) := .inl (sameCaches_recorded i req r s)
  have hupdate (i r v m) {f : State → State} (hf : ∀ s, CachesWritten c p j s (f s)) :=
    keeps_updateRegMaskedElse_of_recorded cachesWritten_trans hrec cachesWritten_refl (i := i) r v m hf
  exact {
    ret := keeps_pure cachesWritten_refl
    raises := fun o _ => keeps_raise cachesWritten_refl o
    bind := keeps_bind cachesWritten_trans
    readReg := keeps_readReg_of_recorded cachesWritten_trans hrec cachesWritten_refl
    readBurst := fun _ => keeps_memRead_of_recorded cachesWritten_trans hrec _
    writeReg := fun _ => keeps_writeReg_of_recorded cachesWritten_trans hrec cachesWritten_refl
    updateRegMasked := fun r v m _ => hupdate i r v m cachesWritten_refl
    readSensAcc := fun _ _ => keeps_readSensAcc cachesWritten_refl
    accSetFullScale := by
      rintro rfl hc fs
      exact keeps_bind cachesWritten_trans (hupdate _ _ _ _ (cachesWritten_setSensAcc hc (.inl rfl))) fun _ =>
        cachesWritten_setSensAcc hc (.inr ⟨fs, rfl⟩)
    readSensMag := fun _ _ => keeps_readSensMag cachesWritten_refl
    magSetFullScale := by
      rintro rfl hc g
      exact keeps_bind cachesWritten_trans (hupdate _ _ _ _ (cachesWritten_setSensMag hc (.inl ⟨rfl, rfl⟩))) fun _ =>
        cachesWritten_setSensMag hc (.inr ⟨g, rfl, rfl⟩) }

theorem exec_cachesWritten {c : Instr} {s t : State} (j : InstanceId) (h : exec c s = .next t) : CachesWritten c s.params j s t := by
  obtain ⟨op, hop, -, hkeeps⟩ := exec_eq_runCommand_of_class (commandClass_cachesWritten c c.target s.params j)
  obtain ⟨-, rfl⟩ := runCommand_next_iff.mp (hop ▸ h)
  exact cachesWritten_trans _ _ _ (hkeeps s) (.inl (sameCaches_finish _ _))

/-! #### Who reads the caches -/

/-- The state with the caches of a block forgotten: two states that differ in these alone become one. -/
def forgetCaches : InstanceId → State → State
  | .acc => unsetSensAcc
  | .mag => unsetSensMag

section
variable (j i : InstanceId) (s : State)

theorem forgetCaches_block : (forgetCaches j s).block i = s.block i := by cases j <;> simp [forgetCaches]
theorem forgetCaches_params : (forgetCaches j s).params = s.params := by cases j <;> rfl
theorem forgetCaches_draws : (forgetCaches j s).draws = s.draws := by cases j <;> rfl
theorem forgetCaches_recorded (req : BusRequest) (r : Response) :
    forgetCaches j (recorded i req r s) = recorded i req r (forgetCaches j s) := by cases j <;> cases i <;> rfl

end

theorem block_of_forgetCaches {j : InstanceId} {s s' : State} (h : forgetCaches j s = forgetCaches j s') (i : InstanceId) :
    s.block i = s'.block i := by
  rw [← forgetCaches_block j i s, h, forgetCaches_block]

theorem eq_of_unsetSensAcc {s t : State} (h : unsetSensAcc s = unsetSensAcc t) : s = { t with sensAcc := s.sensAcc } := by
  cases s
  cases t
  simp_all [unsetSensAcc]

theorem eq_of_unsetSensMag {s t : State} (h : unsetSensMag s = unsetSensMag t) :
    s = { t with sensMagXY := s.sensMagXY, sensMagZ := s.sensMagZ } := by
  cases s
  cases t
  simp_all [unsetSensMag]

/-- A result with `f` applied to the state it leaves. -/
def mapState {α : Type} (f : State → State) : EStateM.Result Ending State α → EStateM.Result Ending State α
  | .ok a t => .ok a (f t)
  | .error e t => .error e (f t)

/-- Two results are the same but for what `f` forgets: they end alike, in states that `f` makes one. -/
theorem mapState_eq_cases {α : Type} {f : State → State} {r r' : EStateM.Result Ending State α} (h : mapState f r = mapState f r') :
    ∃ t t', f t = f t' ∧ ((∃ a, r = .ok a t ∧ r' = .ok a t') ∨ ∃ e, r = .error e t ∧ r' = .error e t') := by
  rcases r with ⟨a, t⟩ | ⟨e, t⟩ <;> rcases r' with ⟨a', t'⟩ | ⟨e', t'⟩ <;> simp [mapState] at h
  · obtain ⟨rfl, ht⟩ := h
    exact ⟨t, t', ht, .inl ⟨a, rfl, rfl⟩⟩
  · obtain ⟨rfl, ht⟩ := h
    exact ⟨t, t', ht, .inr ⟨e, rfl, rfl⟩⟩

theorem forgetCaches_finish (j i : InstanceId) (r : EStateM.Result Ending State (Option ResultData)) :
    forgetCaches j (finish i r) = finish i (mapState (forgetCaches j) r) := by
  rcases r with ⟨d, t⟩ | ⟨o | _, t⟩ <;> cases j <;> cases i <;> rfl

/-- What `op` answers and does, but for the caches of `j`, is the same whatever they hold. -/
def Blind (j : InstanceId) {α : Type} (op : Op α) : Prop :=
  ∀ s s', forgetCaches j s = forgetCaches j s' → mapState (forgetCaches j) (op s) = mapState (forgetCaches j) (op s')

section
variable {j i : InstanceId} {α β : Type}

theorem blind_pure (a : α) : Blind j (pure a : Op α) := by
  intro s s' h
  rw [op_pure, op_pure, mapState, mapState, h]

theorem blind_raise (o : Status) : Blind j (raise o : Op α) := by
  intro s s' h
  rw [raise_apply, raise_apply, mapState, mapState, h]

theorem blind_bind {op : Op α} {f : α → Op β} (h : Blind j op) (hf : ∀ a, Blind j (f a)) : Blind j (op >>= f) := by
  intro s s' hs
  obtain ⟨t, t', ht, ⟨a, h1, h2⟩ | ⟨e, h1, h2⟩⟩ := mapState_eq_cases (h s s' hs)
  · rw [op_bind_ok h1, op_bind_ok h2]
    exact hf a t t' ht
  · rw [op_bind_error h1, op_bind_error h2, mapState, mapState, ht]

theorem blind_onOutcome {op : Op α} {f : State → State} (h : Blind j op)
    (hf : ∀ s s', forgetCaches j s = forgetCaches j s' → forgetCaches j (f s) = forgetCaches j (f s')) : Blind j (onOutcome op f) := by
  intro s s' hs
  obtain ⟨t, t', ht, ⟨a, h1, h2⟩ | ⟨o | _, h1, h2⟩⟩ := mapState_eq_cases (h s s' hs) <;>
    simp only [onOutcome, h1, h2, mapState, ht, hf t t' ht]

theorem blind_modify {f : State → State}
    (hf : ∀ s s', forgetCaches j s = forgetCaches j s' → forgetCaches j (f s) = forgetCaches j (f s')) :
    Blind j (modify f : Op PUnit) := by
  intro s s' hs
  rw [op_modify, op_modify, mapState, mapState, hf s s' hs]

/-- The caches have no part in a transaction. -/
theorem mapState_transact (req : BusRequest) (dir : Dir) (a : Byte) (s : State) :
    mapState (forgetCaches j) (transact i req dir a s) = transact i req dir a (forgetCaches j s) := by
  simp only [transact, forgetCaches_block, forgetCaches_draws, ← forgetCaches_recorded]
  split <;> rfl

theorem blind_transact (req : BusRequest) (dir : Dir) (a : Byte) : Blind j (transact i req dir a) := by
  intro s s' h
  rw [mapState_transact, mapState_transact, h]

/-- An operation that does not look at the caches of `j` in the state it reads. -/
theorem blind_get_bind {f : State → Op β} (hget : ∀ s s', forgetCaches j s = forgetCaches j s' → f s = f s')
    (hf : ∀ s, Blind j (f s)) : Blind j (get >>= f) := by
  intro s s' h
  rw [op_get_bind, op_get_bind, hget s s' h]
  exact hf s' s s' h

theorem blind_memRead (a : Byte) (n : Nat) : Blind j (memRead i a n) :=
  blind_get_bind (fun _ _ h => by simp only [block_of_forgetCaches h]) fun _ =>
    blind_bind (blind_transact _ _ _) fun _ => blind_transact _ _ _

theorem blind_readReg (r : RegIdx) : Blind j (readReg i r) := blind_bind (blind_memRead _ _) fun _ => blind_pure _

theorem blind_writeReg (r : RegIdx) (v : Byte) : Blind j (writeReg i r v) :=
  blind_get_bind (fun _ _ h => by simp only [block_of_forgetCaches h]) fun _ => blind_bind (blind_transact _ _ _) fun _ => blind_pure _

theorem blind_updateRegMaskedElse (r : RegIdx) (v m : Byte) {f : State → State}
    (hf : ∀ s s', forgetCaches j s = forgetCaches j s' → forgetCaches j (f s) = forgetCaches j (f s')) :
    Blind j (updateRegMaskedElse i r v m f) :=
  blind_bind (blind_readReg r) fun _ => blind_onOutcome (blind_writeReg r _) hf

end

theorem forgetCaches_setSensAcc (j : InstanceId) (v : Option FloatVal) (s s' : State) (h : forgetCaches j s = forgetCaches j s') :
    forgetCaches j { s with sensAcc := v } = forgetCaches j { s' with sensAcc := v } := by
  cases j
  · exact h
  · exact congrArg (fun t : State => { t with sensAcc := v }) h

theorem forgetCaches_setSensMag (j : InstanceId) (x z : Option FloatVal) (s s' : State) (h : forgetCaches j s = forgetCaches j s') :
    forgetCaches j { s with sensMagXY := x, sensMagZ := z } = forgetCaches j { s' with sensMagXY := x, sensMagZ := z } := by
  cases j
  · exact congrArg (fun t : State => { t with sensMagXY := x, sensMagZ := z }) h
  · exact h

/-- The accelerometer cache is not one of the other block. -/
theorem sensAcc_of_forgetCaches {j : InstanceId} (hj : j ≠ .acc) {s s' : State} (h : forgetCaches j s = forgetCaches j s') :
    s.sensAcc = s'.sensAcc := by
  cases j with
  | acc => exact absurd rfl hj
  | mag => exact (congrArg State.sensAcc h :)

theorem sensMag_of_forgetCaches {j : InstanceId} (hj : j ≠ .mag) {s s' : State} (h : forgetCaches j s = forgetCaches j s') :
    s.sensMagXY = s'.sensMagXY ∧ s.sensMagZ = s'.sensMagZ := by
  cases j with
  | mag => exact absurd rfl hj
  | acc => exact ⟨(congrArg State.sensMagXY h :), (congrArg State.sensMagZ h :)⟩

theorem blind_readSensAcc {j : InstanceId} (hj : j ≠ .acc) : Blind j readSensAcc := by
  refine blind_get_bind (fun s s' h => by simp only [sensAcc_of_forgetCaches hj h]) fun s => ?_
  split
  · exact blind_pure _
  · exact blind_raise _

theorem blind_readSensMag {j : InstanceId} (hj : j ≠ .mag) : Blind j readSensMag := by
  refine blind_get_bind (fun s s' h => ?_) fun s => ?_
  · obtain ⟨hxy, hz⟩ := sensMag_of_forgetCaches hj h
    simp only [hxy, hz]
  · split
    · exact blind_pure _
    · exact blind_raise _

/-- Only two commands of `j` look at its caches. -/
theorem commandClass_blind {c : Instr} {j : InstanceId} (hc : ¬ ReadsCaches j c) (i : InstanceId) (p : Params) :
    CommandClass c i p (fun _ => Blind j) where
  ret := blind_pure
  raises o _ := blind_raise o
  bind := blind_bind
  readReg := blind_readReg
  readBurst _ := blind_memRead _
  writeReg _ := blind_writeReg
  updateRegMasked r v m _ := blind_updateRegMaskedElse r v m fun _ _ h => h
  readSensAcc := by
    rintro rfl hr
    exact blind_readSensAcc fun hj => hc (hj ▸ hr)
  accSetFullScale := by
    rintro rfl - fs
    exact blind_bind (blind_updateRegMaskedElse _ _ _ (forgetCaches_setSensAcc j none)) fun _ =>
      blind_modify (forgetCaches_setSensAcc j _)
  readSensMag := by
    rintro rfl hr
    exact blind_readSensMag fun hj => hc (hj ▸ hr)
  magSetFullScale := by
    rintro rfl - g
    exact blind_bind (blind_updateRegMaskedElse _ _ _ (forgetCaches_setSensMag j none none)) fun _ =>
      blind_modify (forgetCaches_setSensMag j _ _)

/-- A command that does not read the caches of `j` does the same, but for those caches, whatever they hold. -/
theorem exec_blind {c : Instr} {j : InstanceId} {s s' t : State} (hc : ¬ ReadsCaches j c) (hs : forgetCaches j s' = forgetCaches j s)
    (h : exec c s = .next t) : ∃ t', exec c s' = .next t' ∧ forgetCaches j t' = forgetCaches j t := by
  obtain ⟨op, hop, hop', hblind⟩ := exec_eq_runCommand_of_class (commandClass_blind hc c.target s.params)
  obtain ⟨ha, rfl⟩ := runCommand_next_iff.mp (hop ▸ h)
  have hp : s'.params = s.params := by rw [← forgetCaches_params j, hs, forgetCaches_params]
  have ha' : accepts s' c.target = true := by rw [accepts, block_of_forgetCaches hs]; exact ha
  refine ⟨_, (hop' s' hp).trans (runCommand_of_accepts ha' op), ?_⟩
  rw [forgetCaches_finish, forgetCaches_finish, hblind s' s hs]

/-- Settles O18: what a command does to `SENS_ACC`, and that it does not look at it, hold of the shared operations it may use. -/
theorem sensAccAccess : Obligations.SensAccAccess := by
  intro c s t h
  refine ⟨exec_cachesWritten .acc h, fun hread hget v => ?_⟩
  obtain ⟨t', ht', hforget⟩ := exec_blind (j := .acc) (s := s) (s' := { s with sensAcc := v }) (not_or.mpr ⟨hread, hget⟩) rfl h
  exact ⟨t'.sensAcc, ht'.trans (congrArg _ (eq_of_unsetSensAcc hforget))⟩

/-- Settles O19: what a command does to the magnetometer caches, and that it does not look at them, hold of the shared operations it may
use. -/
theorem sensMagAccess : Obligations.SensMagAccess := by
  intro c s t h
  refine ⟨exec_cachesWritten .mag h, fun hread hget x z => ?_⟩
  obtain ⟨t', ht', hforget⟩ :=
    exec_blind (j := .mag) (s := s) (s' := { s with sensMagXY := x, sensMagZ := z }) (not_or.mpr ⟨hread, hget⟩) rfl h
  exact ⟨t'.sensMagXY, t'.sensMagZ, ht'.trans (congrArg _ (eq_of_unsetSensMag hforget))⟩

/-! #### Which fields the codec commands write -/

/-- With the default register map, the masks of the codec commands lie within the fields of 30_encoding.md R71 to R78. -/
theorem codecMasks_default (i : InstanceId) : ∀ x ∈ codecMasks defaultRegMap i,
    ∃ f, codecFields i (singleAddr x.1) = some f ∧ x.2 &&& ~~~f = 0#8 := by
  cases i <;> simp [codecMasks, codecFields, defaultRegMap, routeMask, singleAddr]

section
variable {i : InstanceId} {C : List Transaction → Prop}

theorem logs_readSensAcc (hC : LogClass C) : Logs i C readSensAcc := by
  intro s
  obtain ⟨v, h⟩ | h := readSensAcc_cases s <;> rw [h]
  · exact logs_pure hC v s
  · exact logs_raise hC (o := .cacheUnset _) nofun s

theorem logs_readSensMag (hC : LogClass C) : Logs i C readSensMag := by
  intro s
  obtain ⟨v, h⟩ | h := readSensMag_cases s <;> rw [h]
  · exact logs_pure hC v s
  · exact logs_raise hC (o := .cacheUnset _) nofun s

end

/-- A masked update of the codec commands writes only fields, whatever it does besides when its write fails. -/
theorem logs_codec_update {i : InstanceId} {r : RegIdx} {m : Byte} (v : Byte) (hm : (r, m) ∈ codecMasks defaultRegMap i)
    {f : State → State} (hf : ∀ s, Extends i s (f s) []) : Logs i (CodecLog i) (updateRegMaskedElse i r v m f) := by
  obtain ⟨fields, hfields, hmask⟩ := codecMasks_default i _ hm
  exact logs_updateRegMaskedElse (logClass_codec i) r v m hf (codecLog_update hfields hmask)

/-- With the default register map, a command that is no helper command is made of operations that write only fields. -/
theorem commandClass_codec {c : Instr} {p : Params} (i : InstanceId) (hp : p.regMap = defaultRegMap) (hc : c.isHelper = false) :
    CommandClass c i p (fun _ => Logs i (CodecLog i)) where
  ret := logs_pure (logClass_codec i)
  raises _ := logs_raise (logClass_codec i)
  bind := logs_bind (logClass_codec i)
  readReg := logs_readReg (logClass_codec i)
  readBurst := logs_readBurst (logClass_codec i)
  writeReg hh := by rw [hc] at hh; cases hh
  updateRegMasked r v m hm := by
    rw [hc, hp] at hm
    exact logs_codec_update v (hm.resolve_left nofun) (extends_refl i)
  readSensAcc _ _ := logs_readSensAcc (logClass_codec i)
  accSetFullScale := by
    rintro rfl - fs
    refine logs_bind (logClass_codec _) ?_ fun _ => logs_modify (logClass_codec _) fun s => extends_of_caches _ _ _
    rw [hp]
    exact logs_codec_update _ (by simp [codecMasks]) fun s => extends_of_caches _ _ _
  readSensMag _ _ := logs_readSensMag (logClass_codec i)
  magSetFullScale := by
    rintro rfl - g
    refine logs_bind (logClass_codec _) ?_ fun _ => logs_modify (logClass_codec _) fun s => extends_of_caches _ _ _
    rw [hp]
    exact logs_codec_update _ (by simp [codecMasks]) fun s => extends_of_caches _ _ _

/-- The log of a run, however it ends, with its class. -/
theorem Logs.exists_log {α : Type} {i : InstanceId} {C : List Transaction → Prop} {op : Op α} (h : Logs i C op) (s : State) :
    ∃ log, Extends i s (stateOf (op s)) log ∧ C log := by
  cases hop : op s with
  | ok a t =>
    obtain ⟨log, x, hc, -⟩ := (h s).1 a t hop
    exact ⟨log, x, hc⟩
  | error e t =>
    obtain ⟨log, x, hc, -⟩ := (h s).2 e t hop
    exact ⟨log, x, hc⟩

/-- The end of a command adds nothing to the history. -/
theorem finish_history (i : InstanceId) (r : EStateM.Result Ending State (Option ResultData)) :
    ((finish i r).block i).history = ((stateOf r).block i).history := by
  rcases r with ⟨d, t⟩ | ⟨o | _, t⟩
  · rw [finish, endOk_block, stateOf]
  · rw [finish, takeOutcome_block, stateOf]
  · rw [finish, hangUp_block, stateOf]

/-- Settles O24: such a command is made of register reads and of masked updates whose masks lie within the fields. -/
theorem codecWritesKeepOtherBits : Obligations.CodecWritesKeepOtherBits := by
  intro c s t hp hc h
  obtain ⟨op, hop, -, hlogs⟩ := exec_eq_runCommand_of_class (s := s) (commandClass_codec c.target hp hc)
  obtain ⟨-, rfl⟩ := runCommand_next_iff.mp (hop ▸ h)
  obtain ⟨log, x, hcodec⟩ := hlogs.exists_log s
  exact ⟨log, (finish_history _ _).trans x.history, hcodec⟩

end Sys2Proof.Machine

/-! ### The transactions of a command

SUPPORT. O20, O21, O22 and O26: how a command's log is framed, that it is what the device answered, and what the register-file device
answers. `opClass_logs` and `opClass_keeps` say of which properties of logs and of states it suffices to look at single transactions. -/

namespace Sys2Proof.Machine

/-! #### Framing -/

section
variable {i : InstanceId} {C : List Transaction → Prop}

/-- A class of logs with every register write in it is one of the logs of all commands. -/
theorem opClass_logs (hC : LogClass C) (hw : ∀ d a v st, C [⟨.write d [a, v] false, st, []⟩]) (p : Params) :
    OpClass i p (fun _ => Logs i C) := by
  have hupdate (r v m) {f : State → State} (hf : ∀ s, Extends i s (f s) []) : Logs i C (updateRegMaskedElse i r v m f) :=
    logs_updateRegMaskedElse hC r v m hf fun _ _ _ => hC.append _ _ (hC.read ..) (hw ..)
  exact {
    ret := logs_pure hC
    raises := fun _ => logs_raise hC
    bind := logs_bind hC
    readReg := logs_readReg hC
    readBurst := logs_readBurst hC
    writeReg := fun _ _ => logs_memWrite _ _ fun d st => hw d _ _ st
    updateRegMasked := fun r v m => hupdate r v m (extends_refl i)
    readSensAcc := fun _ => logs_readSensAcc hC
    accSetFullScale := by
      rintro rfl fs
      exact logs_bind hC (hupdate _ _ _ (f := unsetSensAcc) fun s => extends_of_caches _ _ _) fun _ =>
        logs_modify hC fun s => extends_of_caches _ _ _
    readSensMag := fun _ => logs_readSensMag hC
    magSetFullScale := by
      rintro rfl g
      exact logs_bind hC (hupdate _ _ _ (f := unsetSensMag) fun s => extends_of_caches _ _ _) fun _ =>
        logs_modify hC fun s => extends_of_caches _ _ _ }

end

/-- A log that ends in an outcome: the last transaction failed and is the one a bus error reports, or none failed. -/
theorem EndsAs.outcome_cases {log : List Transaction} {o : Status} (h : EndsAs log (.outcome o)) :
    (∃ d a, o = .busError d a ∧ OnlyLastFails log ∧ ReportsLast log d a) ∨ (∀ d a, o ≠ .busError d a) ∧ AllOk log := by
  cases o with
  | busError d a => exact .inl ⟨d, a, rfl, h⟩
  | ok | initFailed | invalidConfig | unreachableDecode | cacheUnset | refused => exact .inr ⟨nofun, h⟩

/-- Settles O21: the shared operations log framed accesses and stop at the first transaction that fails, and the end of the command turns
how its operation ended into STATUS or the hang mark. -/
theorem transactionDiscipline : Obligations.TransactionDiscipline := by
  intro c s t h
  obtain ⟨op, hop, hlogs⟩ := exec_eq_runCommand (fun _ => opClass_logs logClass_framed framedLog_write s.params) c
  obtain ⟨ha, rfl⟩ := runCommand_next_iff.mp (hop ▸ h)
  obtain ⟨-, -, hh⟩ := accepts_iff.mp ha
  obtain ⟨hok, herr⟩ := hlogs s
  rw [finish_history]
  rcases hres : op s with ⟨d, t⟩ | ⟨o | _, t⟩
  · obtain ⟨log, x, hframed, hall⟩ := hok d t hres
    rw [finish, endOk_block]
    exact ⟨log, x.history, x.addressed, hframed, onlyLastFails_of_allOk hall, .inl ⟨hall, x.hung.trans hh, nofun⟩⟩
  · obtain ⟨log, x, hframed, hend⟩ := herr _ t hres
    rw [finish, takeOutcome_block]
    obtain ⟨d, a, rfl, hlast, hreports⟩ | ⟨hne, hall⟩ := hend.outcome_cases
    · exact ⟨log, x.history, x.addressed, hframed, hlast, .inr (.inl ⟨d, a, rfl, x.hung.trans hh, hreports⟩)⟩
    · exact ⟨log, x.history, x.addressed, hframed, onlyLastFails_of_allOk hall,
        .inl ⟨hall, x.hung.trans hh, fun d a heq => hne d a (Option.some.inj heq)⟩⟩
  · obtain ⟨log, x, hframed, l, e, rfl, hall, hhang⟩ := herr _ t hres
    rw [finish, hangUp_block]
    exact ⟨l ++ [e], x.history, x.addressed, hframed, onlyLastFails_of_init hall, .inr (.inr ⟨rfl, l, e, rfl, hhang⟩)⟩

/-! #### The log of a command is what its device answered -/

section
variable {R : State → State → Prop} {i : InstanceId} (hr : ∀ s, R s s) (ht : ∀ a b d, R a b → R b d → R a d)
  (hx : ∀ req dir a, Keeps R (transact i req dir a)) (hc : ∀ s a xy z, R s { s with sensAcc := a, sensMagXY := xy, sensMagZ := z })
include ht hx

theorem keeps_memRead_of_transact (a : Byte) (n : Nat) : Keeps R (memRead i a n) :=
  keeps_get_bind fun s => keeps_bind ht (hx _ _ _) (fun _ => hx _ _ _) s

include hr

theorem keeps_memWrite_of_transact (a v : Byte) : Keeps R (memWrite i a v) :=
  keeps_get_bind fun s => keeps_bind ht (hx _ _ _) (fun _ => keeps_pure hr ()) s

include hc

/-- What the transactions of a block and the updates of the caches keep, every command keeps. -/
theorem opClass_keeps (p : Params) : OpClass i p (fun _ => Keeps R) := by
  have hread (r) : Keeps R (readReg i r) := keeps_bind ht (keeps_memRead_of_transact ht hx _ _) fun _ => keeps_pure hr _
  have hupdate (r v m) {f : State → State} (hf : ∀ s, R s (f s)) : Keeps R (updateRegMaskedElse i r v m f) :=
    keeps_bind ht (hread r) fun _ => keeps_onOutcome ht (keeps_memWrite_of_transact hr ht hx _ _) hf
  exact {
    ret := keeps_pure hr
    raises := fun o _ => keeps_raise hr o
    bind := keeps_bind ht
    readReg := hread
    readBurst := fun _ => keeps_memRead_of_transact ht hx _
    writeReg := fun _ => keeps_memWrite_of_transact hr ht hx _
    updateRegMasked := fun r v m => hupdate r v m hr
    readSensAcc := fun _ => keeps_readSensAcc hr
    accSetFullScale := by
      rintro rfl fs
      exact keeps_bind ht (hupdate _ _ _ (f := unsetSensAcc) fun s => hc s _ _ _) fun _ s => hc s _ _ _
    readSensMag := fun _ => keeps_readSensMag hr
    magSetFullScale := by
      rintro rfl g
      exact keeps_bind ht (hupdate _ _ _ (f := unsetSensMag) fun s => hc s _ _ _) fun _ s => hc s _ _ _ }

end

/-- `t` has more in the history of block `i` than `s`, and that is what the device of `s` answered on the way to the device and the
draw counter of `t`. -/
def Answered (i : InstanceId) (s t : State) : Prop :=
  ∃ log, (t.block i).history = (s.block i).history ++ log ∧ Answers s i log (t.block i).device t.draws

section
variable {i : InstanceId}

theorem Answered.refl (s : State) : Answered i s s := ⟨[], (List.append_nil _).symm, rfl⟩

theorem Answered.trans (a b c : State) (h : Answered i a b) (h' : Answered i b c) : Answered i a c := by
  obtain ⟨l, hl, ha⟩ := h
  obtain ⟨l', hl', ha'⟩ := h'
  refine ⟨l ++ l', by rw [hl', hl, List.append_assoc], ?_⟩
  unfold Answers at ha ha' ⊢
  rw [answersFrom_append, ha, ← hl]
  exact ha'

theorem Answered.setCaches (s : State) (a xy z : Option FloatVal) :
    Answered i s { s with sensAcc := a, sensMagXY := xy, sensMagZ := z } :=
  ⟨[], by cases i <;> exact (List.append_nil _).symm, by cases i <;> rfl⟩

/-- A transaction is recorded with the device's own response to it. -/
theorem answered_recorded (req : BusRequest) (s : State) :
    Answered i s (recorded i req (respond (s.block i).device s.draws (s.block i).history req) s) := by
  refine ⟨_, by rw [recorded_block], ?_⟩
  rw [recorded_block, recorded_draws]
  simp [Answers, answersFrom]

theorem keeps_transact_answered (req : BusRequest) (dir : Dir) (a : Byte) : Keeps (Answered i) (transact i req dir a) := by
  intro s
  obtain ⟨_, rfl, ⟨-, h⟩ | ⟨-, h⟩ | ⟨-, h⟩⟩ := transact_cases i req dir a s <;> rw [h] <;> exact answered_recorded req s

theorem keeps_memRead_answered (a : Byte) (n : Nat) : Keeps (Answered i) (memRead i a n) :=
  keeps_memRead_of_transact Answered.trans keeps_transact_answered a n

theorem keeps_memWrite_answered (a v : Byte) : Keeps (Answered i) (memWrite i a v) :=
  keeps_memWrite_of_transact Answered.refl Answered.trans keeps_transact_answered a v

end

theorem finish_device (i : InstanceId) (r : EStateM.Result Ending State (Option ResultData)) :
    ((finish i r).block i).device = ((stateOf r).block i).device := by
  rcases r with ⟨d, t⟩ | ⟨o | _, t⟩
  · rw [finish, endOk_block, stateOf]
  · rw [finish, takeOutcome_block, stateOf]
  · rw [finish, hangUp_block, stateOf]

theorem finish_draws (i : InstanceId) (r : EStateM.Result Ending State (Option ResultData)) :
    (finish i r).draws = (stateOf r).draws := by
  rcases r with ⟨d, t⟩ | ⟨o | _, t⟩ <;> simp [finish, stateOf]

/-- What a command adds to the history is what its device answered, and leaves that device as the answers do. -/
theorem exec_answered {c : Instr} {s t : State} (h : exec c s = .next t) : Answered c.target s t := by
  obtain ⟨op, hop, hkeeps⟩ := exec_eq_runCommand (s := s) (P := fun i _ => Keeps (Answered i))
    (fun _ => opClass_keeps Answered.refl Answered.trans keeps_transact_answered Answered.setCaches s.params) c
  obtain ⟨-, rfl⟩ := runCommand_next_iff.mp (hop ▸ h)
  rw [Answered, finish_history, finish_device, finish_draws]
  exact hkeeps s

/-! #### What an oracle answers -/

section
variable (listed : List Answer) (a : Answer) (draw : Nat) (history : List Transaction) (req : BusRequest)

theorem respond_oracle_device : (respond (.oracle listed) draw history req).device = .oracle (listed.drop 1) := by
  cases listed <;> rfl

theorem respond_oracle_draws : (respond (.oracle listed) draw history req).draws = draw + 1 := by
  cases listed <;> rfl

theorem respond_oracle_status : (respond (.oracle (a :: listed)) draw history req).status = a.status := rfl

end

/-- An oracle draws once for each request, and the answers it lists come first and in order. -/
theorem answersFrom_oracle : ∀ {log : List Transaction} {listed : List Answer} {n k : Nat} {history : List Transaction} {dev : Device},
    answersFrom (.oracle listed) n history log = some (dev, k) →
      dev = .oracle (listed.drop log.length) ∧ k = n + log.length ∧
        ∀ j (h : j < log.length) (h' : j < listed.length), (log[j]).status = (listed[j]).status
  | [], listed, n, k, history, dev, h => by
    cases h
    exact ⟨rfl, rfl, nofun⟩
  | e :: rest, listed, n, k, history, dev, h => by
    simp only [answersFrom, respond_oracle_device, respond_oracle_draws] at h
    split at h
    case isFalse => cases h
    case isTrue he =>
      obtain ⟨hdev, hk, hstatus⟩ := answersFrom_oracle h
      refine ⟨by rw [hdev, List.drop_drop, List.length_cons, Nat.add_comm], by rw [hk, List.length_cons]; omega, fun j hj hj' => ?_⟩
      cases listed with
      | nil => cases hj'
      | cons a as =>
        cases j with
        | zero => exact he.1.symm.trans (respond_oracle_status ..)
        | succ j => exact hstatus j (Nat.lt_of_succ_lt_succ hj) (Nat.lt_of_succ_lt_succ hj')

/-- Settles O22: the log of a command is what its oracle answered, and an oracle draws once for each request. -/
theorem eachTransactionIsOneDraw : Obligations.EachTransactionIsOneDraw := by
  intro c s t listed h hdev
  obtain ⟨log, hlog, hanswers⟩ := exec_answered h
  rw [Answers, hdev] at hanswers
  exact ⟨log, hlog, answersFrom_oracle hanswers⟩

/-! #### What the register-file device answers -/

section
variable {s : State} {i : InstanceId} {rf : RegFile}

/-- What an operation adds to the history on the register-file device is what that device answers. -/
theorem answers_of_afterLog {α : Type} {op : Op α} {a : α} {log : List Transaction} (hop : Keeps (Answered i) op)
    (h : op s = .ok a (afterLog s i log rf)) : Answers s i log (.regFile rf) s.draws := by
  have hs := hop s
  rw [h, stateOf, afterLog_eq_answered] at hs
  obtain ⟨log', hlog, hanswers⟩ := hs
  rw [answered_history, List.append_cancel_left_eq] at hlog
  rwa [← hlog, answered_device, answered_draws] at hanswers

/-- Without the increment every byte of a read is that of one register. -/
theorem regFileBytes_pointed_false (rf : RegFile) (r : RegIdx) (n : Nat) :
    regFileBytes (rf.pointed r false) n = List.replicate n (regOf rf r) := by
  simp [regFileBytes, RegFile.pointed, regOf, Nat.mod_eq_of_lt r.isLt]

theorem memRead_single_regFile (h : (s.block i).device = .regFile rf) (r : RegIdx) (n : Nat) :
    memRead i (singleAddr r) n s = .ok (List.replicate n (regOf rf r))
      (afterLog s i (readLog (s.block i).dev8 (singleAddr r) (List.replicate n (regOf rf r))) (rf.pointed r false)) := by
  rw [memRead_regFile h, addrIndex_single, addrInc_single, regFileBytes_pointed_false]

theorem memWrite_regFile (h : (s.block i).device = .regFile rf) (a v : Byte) :
    memWrite i a v s = .ok () (afterLog s i (writeLog (s.block i).dev8 a v) (rf.written (addrIndex a) v)) := by
  unfold memWrite
  rw [op_get_bind, op_bind_ok (transact_regFile h _ _ _)]
  rfl

end

/-- Settles O26: what a register read, a burst and a register write do on the register-file device is what that device answers. -/
theorem registerFileAnswers : Obligations.RegisterFileAnswers := by
  intro s i rf hdev hwf
  refine ⟨fun r n => ⟨rf.pointed r false, fun _ => rfl, rfl, rfl, ?_⟩, fun r n => ⟨rf.pointed r true, fun _ => rfl, rfl, rfl, ?_⟩,
    fun a v => ⟨rf.written (addrIndex a) v, fun k => regOf_written hwf (addrIndex a) k v, written_wf hwf _ v, ?_⟩⟩
  · exact answers_of_afterLog (keeps_memRead_answered _ n) (memRead_single_regFile hdev r n)
  · exact answers_of_afterLog (keeps_memRead_answered _ n) (readBurst_regFile hdev r n)
  · exact answers_of_afterLog (keeps_memWrite_answered a v) (memWrite_regFile hdev a v)

/-! #### One register read, one register write -/

/-- A register write ends as its one transaction is answered. -/
theorem memWrite_answers {s : State} {i : InstanceId} {a v : Byte} {st : BusStatus} {dev : Device} {k : Nat}
    (h : Answers s i [⟨.write (s.block i).dev8 [a, v] false, st, []⟩] dev k) :
    memWrite i a v s = match st with
      | .ok => .ok () (answered s i [⟨.write (s.block i).dev8 [a, v] false, st, []⟩] dev k)
      | .err => .error (.outcome (.busError .write a)) (answered s i [⟨.write (s.block i).dev8 [a, v] false, st, []⟩] dev k)
      | .hang => .error .hang (answered s i [⟨.write (s.block i).dev8 [a, v] false, st, []⟩] dev k) := by
  have hx := transact_answers h .write a
  unfold memWrite
  rw [op_get_bind]
  cases st
  · rw [op_bind_ok hx]; rfl
  · rw [op_bind_error hx]
  · rw [op_bind_error hx]

/-- Settles O20: a register read and a register write, by how each of their transactions is answered. -/
theorem accessFraming : Obligations.AccessFraming := by
  intro i a v n s dev k
  refine ⟨?_, fun h => ?_, fun h => ?_, fun h => ?_, fun h => ?_⟩
  · rintro bs rfl h
    exact ⟨_, memRead_answers h, answered_history .., answered_device ..⟩
  · exact ⟨_, memRead_address_err h, answered_history ..⟩
  · exact ⟨_, memRead_read_not_ok (st := .err) nofun h, answered_history ..⟩
  · exact ⟨_, memWrite_answers h, answered_history .., answered_device ..⟩
  · exact ⟨_, memWrite_answers h, answered_history ..⟩

end Sys2Proof.Machine

/-! ### Encoding

SUPPORT. O4 to O9, O13 and O31: the checks of the decoder said as one `↔` each, its table of forms against the bounds and masks that
30_encoding.md R61 to R65 write out, and the operands of each code against its encoder. -/

namespace Sys2Proof

open Sys2Proof.Machine

/-! #### The fields and the reserved bits of a word -/

theorem opField_toNat (w : Word) : (opField w).toNat = w.toNat / 2 ^ 24 := by
  have := w.isLt
  simp only [opField, BitVec.extractLsb'_toNat, Nat.shiftRight_eq_div_pow]
  omega

theorem aField_toNat (w : Word) : (aField w).toNat = w.toNat / 2 ^ 16 % 256 := by
  simp [aField, BitVec.extractLsb'_toNat, Nat.shiftRight_eq_div_pow]

theorem vField_toNat (w : Word) : (vField w).toNat = w.toNat / 2 ^ 8 % 256 := by
  simp [vField, BitVec.extractLsb'_toNat, Nat.shiftRight_eq_div_pow]

theorem commandWord_eq_zero_iff {op a v m : Byte} :
    commandWord op a v m = 0#32 ↔ op = 0#8 ∧ a = 0#8 ∧ v = 0#8 ∧ m = 0#8 := by
  constructor
  · intro h
    exact ⟨opField_commandWord op a v m ▸ congrArg opField h, aField_commandWord op a v m ▸ congrArg aField h,
      vField_commandWord op a v m ▸ congrArg vField h, mField_commandWord op a v m ▸ congrArg mField h⟩
  · rintro ⟨rfl, rfl, rfl, rfl⟩
    rfl

/-- The bits of `A` that must be zero (30_encoding.md R62). -/
def AUse.zeroMask : AUse → Byte
  | .unused => 0xFF#8
  | .index => 0x80#8
  | .argument => 0x00#8

/-- The bits of a word that a form wants to be zero (30_encoding.md R62). -/
def Form.zeroMask (f : Form) : Word :=
  commandWord 0#8 f.a.zeroMask (if f.usesV then 0x00#8 else 0xFF#8) (if f.usesM then 0x00#8 else 0xFF#8)

/-- The masks that 30_encoding.md R62 and R63 give by code are those of the table's forms. -/
theorem zeroBits_of_formOf {op : Byte} {f : Form} (h : formOf op = some f) : zeroBits op.toNat = f.zeroMask := by
  have key : ∀ op : Byte, (formOf op).all (fun f => zeroBits op.toNat == f.zeroMask) = true := by decide
  have := key op
  rw [h] at this
  simpa using this

theorem getElem_seven_eq_false_iff {a : Byte} : a[7] = false ↔ a &&& 0x80#8 = 0#8 := by revert a; decide

theorem byte_and_ones (b : Byte) : b &&& 0xFF#8 = b := BitVec.and_allOnes

/-- Nothing reserved is set: unused fields are zero, and so is bit 7 of a register index. -/
theorem Form.reservedNonzero_eq_false_iff {f : Form} {a v m : Byte} : f.reservedNonzero a v m = false ↔
    (f.usesV = false → v = 0#8) ∧ (f.usesM = false → m = 0#8) ∧ a &&& f.a.zeroMask = 0#8 := by
  obtain ⟨-, use, usesV, usesM⟩ := f
  cases use <;> simp [Form.reservedNonzero, AUse.zeroMask, getElem_seven_eq_false_iff, byte_and_ones, and_assoc]

theorem Form.and_zeroMask_eq_zero_iff {f : Form} {op a v m : Byte} :
    commandWord op a v m &&& f.zeroMask = 0#32 ↔ f.reservedNonzero a v m = false := by
  rw [Form.reservedNonzero_eq_false_iff, Form.zeroMask, Laws.OpcodeRow.commandWord_and, commandWord_eq_zero_iff]
  cases f.usesV <;> cases f.usesM <;> simp [byte_and_ones, and_comm, and_assoc]

/-! #### The checks of the decoder (30_encoding.md R62) -/

section
variable {i : InstanceId} {w : Word}

theorem decode_eq_unknownOp_iff : decode i w = .error .unknownOp ↔ formOf (opField w) = none := by
  unfold decode
  cases formOf (opField w) with
  | none => simp
  | some f => repeat' split <;> simp_all

theorem decode_eq_wrongInstance_iff :
    decode i w = .error .wrongInstance ↔ ∃ f, formOf (opField w) = some f ∧ f.validOn i = false := by
  unfold decode
  cases formOf (opField w) with
  | none => simp
  | some f => repeat' split <;> simp_all

theorem decode_eq_reservedNonzero_iff : decode i w = .error .reservedNonzero ↔
    ∃ f, formOf (opField w) = some f ∧ f.validOn i = true ∧ f.reservedNonzero (aField w) (vField w) (mField w) = true := by
  unfold decode
  cases formOf (opField w) with
  | none => simp
  | some f => repeat' split <;> simp_all

theorem decode_eq_badArgument_iff : decode i w = .error .badArgument ↔
    ∃ f, formOf (opField w) = some f ∧ f.validOn i = true ∧ f.reservedNonzero (aField w) (vField w) (mField w) = false ∧
      buildInstr i (opField w) (aField w) (vField w) (mField w) = none := by
  unfold decode
  cases formOf (opField w) with
  | none => simp
  | some f => repeat' split <;> simp_all

theorem decode_eq_ok_iff {c : Instr} : decode i w = .ok c ↔
    ∃ f, formOf (opField w) = some f ∧ f.validOn i = true ∧ f.reservedNonzero (aField w) (vField w) (mField w) = false ∧
      buildInstr i (opField w) (aField w) (vField w) (mField w) = some c := by
  unfold decode
  cases formOf (opField w) with
  | none => simp
  | some f => repeat' split <;> simp_all

end

/-! #### The table of operation codes (30_encoding.md R63 to R65) -/

theorem formOf_isSome (op : Byte) : (formOf op).isSome = opAssigned op.toNat := by revert op; decide

theorem formOf_any_validOn (i : InstanceId) (op : Byte) : (formOf op).any (·.validOn i) = opOn i op.toNat := by
  revert op; cases i <;> decide

/-! #### The arguments a code admits (30_encoding.md R61, R66 to R69, R80) -/

theorem boolOfCode_isSome (a : Byte) : (boolOfCode a).isSome = decide (a.toNat ≤ 1) := by revert a; decide
theorem powerModeOfCode_isSome (a : Byte) : (powerModeOfCode a).isSome = decide (a.toNat ≤ 1) := by revert a; decide
theorem fifoModeOfCode_isSome (a : Byte) : (fifoModeOfCode a).isSome = decide (a.toNat ≤ 1) := by revert a; decide
theorem accFsOfCode_isSome (a : Byte) : (accFsOfCode a).isSome = decide (a.toNat ≤ 3) := by revert a; decide
theorem hpfOfCode_isSome (a : Byte) : (hpfOfCode a).isSome = decide (a.toNat ≤ 4) := by revert a; decide
theorem magOdrOfCode_isSome (a : Byte) : (magOdrOfCode a).isSome = decide (a.toNat ≤ 7) := by revert a; decide
theorem magFsOfCode_isSome (a : Byte) : (magFsOfCode a).isSome = (decide (1 ≤ a.toNat) && decide (a.toNat ≤ 7)) := by
  revert a; decide
theorem accOdrOfCode_isSome (a : Byte) : (accOdrOfCode a).isSome =
    [0x00, 0x13, 0x23, 0x33, 0x43, 0x53, 0x63, 0x73, 0x82, 0x91, 0x92].contains a.toNat := by revert a; decide

/-- The arguments that the decoder turns down are those that 30_encoding.md R61 does not admit. -/
theorem buildInstr_isSome {i : InstanceId} {op a v m : Byte} (hop : opAssigned op.toNat = true) :
    (buildInstr i op a v m).isSome = argumentOk op.toNat a.toNat v.toNat := by
  unfold buildInstr
  split <;> rename_i heq
  case h_44 => -- an unassigned code
    rw [← formOf_isSome] at hop
    simp_all [formOf]
  all_goals rw [heq]
  case h_5 => -- the length of a burst
    have : v.toNat = 0 ↔ v = 0#8 := by bv_omega
    by_cases hv : v = 0#8 <;> simp [argumentOk, hv, this]
  case h_6 | h_13 | h_22 | h_29 | h_30 | h_36 => exact Option.isSome_map.trans (boolOfCode_isSome a)
  case h_7 => exact Option.isSome_map.trans (accOdrOfCode_isSome a)
  case h_9 => exact Option.isSome_map.trans (powerModeOfCode_isSome a)
  case h_11 => exact Option.isSome_map.trans (accFsOfCode_isSome a)
  case h_15 => exact Option.isSome_map.trans (hpfOfCode_isSome a)
  case h_17 => exact Option.isSome_map.trans (fifoModeOfCode_isSome a)
  case h_32 => exact Option.isSome_map.trans (magOdrOfCode_isSome a)
  case h_34 => exact Option.isSome_map.trans (magFsOfCode_isSome a)
  all_goals rfl -- every other code admits all its operands

/-- Settles O7: the checks of the decoder, one after another, are those on the code, on the instance, on the bits that must be zero and
on the argument. -/
theorem refusalReasons : Obligations.RefusalReasons := by
  intro i w
  rw [← opField_toNat, ← aField_toNat, ← vField_toNat, decode_eq_unknownOp_iff, decode_eq_wrongInstance_iff,
    decode_eq_reservedNonzero_iff, decode_eq_badArgument_iff]
  dsimp only
  rw [← formOf_isSome, ← formOf_any_validOn]
  cases hf : formOf (opField w) with
  | none => simp
  | some f =>
    have reserved : w &&& zeroBits (opField w).toNat = 0#32 ↔ f.reservedNonzero (aField w) (vField w) (mField w) = false := by
      rw [zeroBits_of_formOf hf, ← Form.and_zeroMask_eq_zero_iff, commandWord_fields]
    have argument : buildInstr i (opField w) (aField w) (vField w) (mField w) = none ↔
        argumentOk (opField w).toNat (aField w).toNat (vField w).toNat = false := by
      rw [← buildInstr_isSome (i := i) (m := mField w) (formOf_isSome _ ▸ hf ▸ rfl), Option.isSome_eq_false_iff,
        Option.isNone_iff_eq_none]
    simp [reserved, argument]

/-! #### A command and its word -/

/-- A word whose fields pass the checks decodes to the command they build. -/
theorem decode_commandWord {i : InstanceId} {op a v m : Byte} {f : Form} {c : Instr} (hf : formOf op = some f)
    (hi : f.validOn i = true) (hr : f.reservedNonzero a v m = false) (hb : buildInstr i op a v m = some c) :
    decode i (commandWord op a v m) = .ok c := by
  rw [decode_eq_ok_iff, opField_commandWord, aField_commandWord, vField_commandWord, mField_commandWord]
  exact ⟨f, hf, hi, hr, hb⟩

/-- The word of a helper command. -/
theorem decode_indexed {i : InstanceId} {op v m : Byte} {f : Form} (ctor : RegIdx → Instr) (r : RegIdx) (hf : formOf op = some f)
    (hi : f.validOn i = true) (ha : f.a = .index) (hv : f.usesV = false → v = 0#8) (hm : f.usesM = false → m = 0#8)
    (hb : ∀ a, buildInstr i op a v m = some (ctor (indexOf a))) : decode i (commandWord op (indexField r) v m) = .ok (ctor r) := by
  refine decode_commandWord hf hi (Form.reservedNonzero_eq_false_iff.mpr ⟨hv, hm, ?_⟩) ?_
  · rw [ha]
    exact Laws.OpcodeRow.indexField_and r
  · rw [hb, indexOf_indexField]

/-- The word of a command with one argument. -/
theorem decode_argument {α : Type} {i : InstanceId} {op a : Byte} {f : Form} {parse : Byte → Option α} {x : α}
    (hparse : parse a = some x) (ctor : α → Instr) (hf : formOf op = some f) (hi : f.validOn i = true)
    (hr : f.reservedNonzero a 0#8 0#8 = false) (hb : buildInstr i op a 0#8 0#8 = (parse a).map ctor) :
    decode i (commandWord op a 0#8 0#8) = .ok (ctor x) := by
  rw [hparse] at hb
  exact decode_commandWord hf hi hr hb

/-- Settles O4: each command's fields pass the checks of its code, and its operands are read back from their codes. -/
theorem decodeOfEncode : Obligations.DecodeOfEncode := by
  intro c hwf
  cases c with
  | readReg i r => exact decode_indexed (.readReg i) r rfl rfl rfl (fun _ => rfl) (fun _ => rfl) fun _ => rfl
  | writeReg i r v => exact decode_indexed (.writeReg i · v) r rfl rfl rfl nofun (fun _ => rfl) fun _ => rfl
  | readRegMasked i r m => exact decode_indexed (.readRegMasked i · m) r rfl rfl rfl (fun _ => rfl) nofun fun _ => rfl
  | updateRegMasked i r v m => exact decode_indexed (.updateRegMasked i · v m) r rfl rfl rfl nofun nofun fun _ => rfl
  | readBurst i r n =>
    have hn : n ≠ 0#8 := by simpa [Instr.wf] using hwf
    exact decode_indexed (.readBurst i · n) r rfl rfl rfl nofun (fun _ => rfl) fun _ => if_neg hn
  | accInit start => exact decode_argument (boolOfCode_boolCode start) .accInit rfl rfl rfl rfl
  | accSetOdr c => exact decode_argument (accOdrOfCode_accOdrCode c) .accSetOdr rfl rfl rfl rfl
  | accSetPowerMode pm => exact decode_argument (powerModeOfCode_powerModeCode pm) .accSetPowerMode rfl rfl rfl rfl
  | accSetFullScale fs => exact decode_argument (accFsOfCode_accFsCode fs) .accSetFullScale rfl rfl rfl rfl
  | accSetHighRes e => exact decode_argument (boolOfCode_boolCode e) .accSetHighRes rfl rfl rfl rfl
  | accSetHpfMode h => exact decode_argument (hpfOfCode_hpfCode h) .accSetHpfMode rfl rfl rfl rfl
  | accSetFifoMode f => exact decode_argument (fifoModeOfCode_fifoModeCode f) .accSetFifoMode rfl rfl rfl rfl
  | accSetDrdyInt e => exact decode_argument (boolOfCode_boolCode e) .accSetDrdyInt rfl rfl rfl rfl
  | magInit start => exact decode_argument (boolOfCode_boolCode start) .magInit rfl rfl rfl rfl
  | magSetMode e => exact decode_argument (boolOfCode_boolCode e) .magSetMode rfl rfl rfl rfl
  | magSetOdr d => exact decode_argument (magOdrOfCode_magOdrCode d) .magSetOdr rfl rfl rfl rfl
  | magSetFullScale g => exact decode_argument (magFsOfCode_magFsCode g) .magSetFullScale rfl rfl rfl rfl
  | magSetTempEn e => exact decode_argument (boolOfCode_boolCode e) .magSetTempEn rfl rfl rfl rfl
  | _ => exact decode_commandWord rfl rfl rfl rfl

theorem eq_ofNat_of_toNat {op : Byte} {n : Nat} (h : op.toNat = n) : op = BitVec.ofNat 8 n := by
  rw [← h, BitVec.ofNat_toNat, BitVec.setWidth_eq]

theorem Form.eq_of_validOn {f : Form} {i j : InstanceId} (hi : f.validOn i = true) (hj : f.only = some j) : j = i := by
  simpa [Form.validOn, hj] using hi

/-- `c` is a command of instance `i` with the word `w`. -/
def IsWordOf (i : InstanceId) (w : Word) (c : Instr) : Prop := encode c = w ∧ c.target = i ∧ c.wf = true

/-- A command with one argument, read from a field `A` that holds a code of it. -/
theorem isWordOf_argument {α : Type} {i : InstanceId} {op a v m : Byte} {parse : Byte → Option α} {code : α → Byte}
    {ctor : α → Instr} {c : Instr} (hv : v = 0#8) (hm : m = 0#8) (hcode : ∀ {x}, parse a = some x → code x = a)
    (hb : (parse a).map ctor = some c) (h : ∀ x, IsWordOf i (commandWord op (code x) 0#8 0#8) (ctor x)) :
    IsWordOf i (commandWord op a v m) c := by
  obtain ⟨x, hx, rfl⟩ := Option.map_eq_some_iff.mp hb
  rw [hv, hm, ← hcode hx]
  exact h x

/-- A helper command, read from a field `A` that holds an index. -/
theorem isWordOf_indexed {i : InstanceId} {op a v m : Byte} {ctor : RegIdx → Instr} (ha : a &&& 0x80#8 = 0#8)
    (h : ∀ r, IsWordOf i (commandWord op (indexField r) v m) (ctor r)) : IsWordOf i (commandWord op a v m) (ctor (indexOf a)) := by
  have := h (indexOf a)
  rwa [indexField_indexOf (getElem_seven_eq_false_iff.mpr ha)] at this

/-- A command without operands, read from a word whose other fields are zero. -/
theorem isWordOf_plain {i : InstanceId} {op a v m : Byte} {c : Instr} (hv : v = 0#8) (hm : m = 0#8) (ha : a &&& 0xFF#8 = 0#8)
    (h : IsWordOf i (commandWord op 0#8 0#8 0#8) c) : IsWordOf i (commandWord op a v m) c := by
  rw [byte_and_ones] at ha
  rwa [ha, hv, hm]

/-- What the decoder builds from fields that pass its checks is a command with those fields. -/
theorem isWordOf_of_buildInstr {i : InstanceId} {op a v m : Byte} {c : Instr} {f : Form} (hf : formOf op = some f)
    (hi : f.validOn i = true) (hr : f.reservedNonzero a v m = false) (hb : buildInstr i op a v m = some c) :
    IsWordOf i (commandWord op a v m) c := by
  obtain ⟨hv, hm, ha⟩ := Form.reservedNonzero_eq_false_iff.mp hr
  have target {j : InstanceId} (hj : f.only = some j) : j = i := f.eq_of_validOn hi hj
  unfold buildInstr at hb
  split at hb <;> rename_i hop
  case h_44 => cases hb -- an unassigned code builds nothing
  all_goals
    obtain rfl := eq_ofNat_of_toNat hop
    obtain rfl := Option.some.inj hf
  -- the helper commands
  case h_1 =>
    cases hb
    rw [hv rfl, hm rfl]
    exact isWordOf_indexed (ctor := .readReg i) ha fun _ => ⟨rfl, rfl, rfl⟩
  case h_2 =>
    cases hb
    rw [hm rfl]
    exact isWordOf_indexed (ctor := (.writeReg i · v)) ha fun _ => ⟨rfl, rfl, rfl⟩
  case h_3 =>
    cases hb
    rw [hv rfl]
    exact isWordOf_indexed (ctor := (.readRegMasked i · m)) ha fun _ => ⟨rfl, rfl, rfl⟩
  case h_4 =>
    cases hb
    exact isWordOf_indexed (ctor := (.updateRegMasked i · v m)) ha fun _ => ⟨rfl, rfl, rfl⟩
  case h_5 =>
    obtain ⟨hn, hb⟩ := Option.ite_none_left_eq_some.mp hb
    cases hb
    rw [hm rfl]
    exact isWordOf_indexed (ctor := (.readBurst i · v)) ha fun _ => ⟨rfl, rfl, by simpa [Instr.wf] using hn⟩
  -- the commands with one argument
  case h_6 | h_13 | h_22 | h_29 | h_30 | h_36 =>
    exact isWordOf_argument (hv rfl) (hm rfl) boolCode_of hb fun _ => ⟨rfl, target rfl, rfl⟩
  case h_7 => exact isWordOf_argument (hv rfl) (hm rfl) accOdrCode_of hb fun _ => ⟨rfl, target rfl, rfl⟩
  case h_9 => exact isWordOf_argument (hv rfl) (hm rfl) powerModeCode_of hb fun _ => ⟨rfl, target rfl, rfl⟩
  case h_11 => exact isWordOf_argument (hv rfl) (hm rfl) accFsCode_of hb fun _ => ⟨rfl, target rfl, rfl⟩
  case h_15 => exact isWordOf_argument (hv rfl) (hm rfl) hpfCode_of hb fun _ => ⟨rfl, target rfl, rfl⟩
  case h_17 => exact isWordOf_argument (hv rfl) (hm rfl) fifoModeCode_of hb fun _ => ⟨rfl, target rfl, rfl⟩
  case h_32 => exact isWordOf_argument (hv rfl) (hm rfl) magOdrCode_of hb fun _ => ⟨rfl, target rfl, rfl⟩
  case h_34 => exact isWordOf_argument (hv rfl) (hm rfl) magFsCode_of hb fun _ => ⟨rfl, target rfl, rfl⟩
  case h_19 => -- a watermark is its own code
    cases hb
    rw [hv rfl, hm rfl]
    exact ⟨rfl, target rfl, rfl⟩
  -- the commands without operands
  all_goals
    cases hb
    exact isWordOf_plain (hv rfl) (hm rfl) ha ⟨rfl, target rfl, rfl⟩

/-- Settles O5: the fields of a word that decodes pass the checks, and the command they build has those fields. -/
theorem encodeOfDecode : Obligations.EncodeOfDecode := by
  intro i w c h
  obtain ⟨f, hf, hi, hr, hb⟩ := decode_eq_ok_iff.mp h
  have := isWordOf_of_buildInstr hf hi hr hb
  rwa [commandWord_fields] at this

/-! #### Written words, rates, lines and presented words -/

/-- Settles O6: twelve written words, each read by the decoder. -/
theorem decodeExamples : Obligations.DecodeExamples := by
  unfold Obligations.DecodeExamples
  decide

/-- Settles O8: power-down is valid in both modes, and any other rate where its code has the bit of the mode. -/
theorem odrValidity : Obligations.OdrValidity := by
  intro c
  by_cases h : accOdrCode c = 0x00#8 <;> simp [odrValid, h]

/-- Settles O9: the pseudo-commands are masked updates, and the lines of 30_encoding.md R82 and R83 give their words. -/
theorem assemblerLines : Obligations.AssemblerLines :=
  ⟨fun _ _ _ _ => ⟨rfl, rfl⟩, by decide, by decide, by decide, by decide⟩

/-- A word of the opcode table is presented to the instance it was decoded for. -/
theorem decode_tableCommand {nbits w : Nat} {c : Instr} (h : decodeTableWord nbits w = some c) :
    decode (tableCommand nbits w).target (tableCommand nbits w).word = .ok c := by
  change (decode (tableCommand nbits w).target (tableCommand nbits w).word).toOption = some c at h
  cases hd : decode (tableCommand nbits w).target (tableCommand nbits w).word with
  | error reason =>
    rw [hd] at h
    cases h
  | ok d =>
    rw [hd] at h
    cases h
    rfl

/-- A step with an accepted command first in line runs what its word decodes to. -/
theorem step_of_first {s : State} {c : Command} {rest : List Command} {d : Instr} (hp : s.pending = c :: rest)
    (ha : accepts s c.target = true) (hd : decode c.target c.word = .ok d) : step s = exec d { s with pending := rest } := by
  unfold step
  rw [fetch_first hp ha]
  simp only [hd]

/-- Settles O13: the presented word is first in line, and its instance is that of the command it decodes to. -/
theorem presentedWordRuns : Obligations.PresentedWordRuns := by
  intro s nbits w c hw ha
  have hd := decode_tableCommand hw
  obtain ⟨-, ht, -⟩ := encodeOfDecode _ _ _ hd
  rw [ht] at ha
  exact step_of_first rfl ha hd

/-- Settles O31: an empty burst is refused, which issues no transaction. -/
theorem emptyBurstIsRefused : Obligations.EmptyBurstIsRefused := by
  intro s i r ha
  calc exec (.readBurst i r 0#8) s
    _ = refuseCommand i .badArgument s := by rw [exec, execReadBurst, if_pos rfl]
    _ = .next (takeOutcome i (.refused .badArgument) s) := refuseCommand_of_accepts ha _
    _ = .next (afterOutcome s i (.refused .badArgument) [] (s.block i).device s.draws) := by
      rw [← takeOutcome_answered, answered_nil]

end Sys2Proof

/-! ### Commands of one read, one write or one masked update

SUPPORT. O27 to O30: how a command ends by its log, from what its operation answers (`Ends`) and what it begins with
(`BeginsWithRead`). -/

namespace Sys2Proof.Machine

/-! #### Both ends of a chain -/

section
variable {α β : Type} {i : InstanceId} {d8 : Byte}

/-- From any state of an instance with the address `d8` whose device answers `log`, `op` answers the value of `e` or ends in its
outcome, and has done no more than that. -/
def Ends (i : InstanceId) (d8 : Byte) (log : List Transaction) (op : Op α) : Except Status α → Prop
  | .ok a => Yields i d8 log op a
  | .error o => EndsIn i d8 log op (.outcome o)

theorem runCommand_ends {s : State} {log : List Transaction} {op : Op (Option ResultData)} {e : Except Status (Option ResultData)}
    {dev : Device} {k : Nat} (ha : accepts s i = true) (h : Ends i (s.block i).dev8 log op e) (hl : Answers s i log dev k) :
    runCommand i op s = .next (ended s i e log dev k) := by
  cases e with
  | ok d => exact runCommand_yields ha h hl
  | error o => exact runCommand_endsIn ha h hl

/-! #### Operations that begin with a read -/

/-- Whatever `op` does, it does after a read of `n` bytes at the address byte `a`. -/
def BeginsWithRead (i : InstanceId) (a : Byte) (n : Nat) (op : Op α) : Prop := ∃ f : List Byte → Op α, op = memRead i a n >>= f

theorem beginsWithRead_memRead_bind (a : Byte) (n : Nat) (f : List Byte → Op α) : BeginsWithRead i a n (memRead i a n >>= f) := ⟨f, rfl⟩

theorem BeginsWithRead.bind {a : Byte} {n : Nat} {op : Op α} (h : BeginsWithRead i a n op) (f : α → Op β) :
    BeginsWithRead i a n (op >>= f) := by
  obtain ⟨g, rfl⟩ := h
  exact ⟨_, op_bind_assoc ..⟩

theorem beginsWithRead_readReg (r : RegIdx) : BeginsWithRead i (0#1 ++ r) 1 (readReg i r) := beginsWithRead_memRead_bind ..

theorem beginsWithRead_readRegMasked (r : RegIdx) (m : Byte) : BeginsWithRead i (0#1 ++ r) 1 (readRegMasked i r m) :=
  (beginsWithRead_readReg r).bind _

theorem beginsWithRead_updateRegMaskedElse (r : RegIdx) (v m : Byte) (f : State → State) :
    BeginsWithRead i (0#1 ++ r) 1 (updateRegMaskedElse i r v m f) := (beginsWithRead_readReg r).bind _

variable {a : Byte} {n : Nat} {op : Op α}

theorem BeginsWithRead.endsIn_address_err (h : BeginsWithRead i a n op) :
    EndsIn i d8 (addressLog d8 a .err) op (.outcome (.busError .write a)) := by
  obtain ⟨f, rfl⟩ := h
  refine endsIn_bind_first fun s dev k hd hl => ?_
  subst hd
  exact memRead_address_err hl

theorem BeginsWithRead.endsIn_read_err (h : BeginsWithRead i a n op) :
    EndsIn i d8 (failedReadLog d8 a n .err) op (.outcome (.busError .read a)) := by
  obtain ⟨f, rfl⟩ := h
  refine endsIn_bind_first fun s dev k hd hl => ?_
  subst hd
  exact memRead_read_not_ok (st := .err) nofun hl

end

/-! #### Register writes, and the write of a masked update -/

section
variable {i : InstanceId} {d8 : Byte}

theorem yields_writeReg (r : RegIdx) (v : Byte) : Yields i d8 (writeLog d8 (0#1 ++ r) v) (writeReg i r v) () := by
  intro s dev k hd h
  subst hd
  exact writeReg_answers h

theorem endsIn_writeReg_err (r : RegIdx) (v : Byte) :
    EndsIn i d8 [⟨.write d8 [0#1 ++ r, v] false, .err, []⟩] (writeReg i r v) (.outcome (.busError .write (0#1 ++ r))) := by
  intro s dev k hd h
  subst hd
  exact writeReg_answers h

theorem endsIn_updateRegMasked_write_err (r : RegIdx) (old v m : Byte) :
    EndsIn i d8 (failedUpdateLog d8 r old (merged old v m) .err) (updateRegMasked i r v m)
      (.outcome (.busError .write (0#1 ++ r))) := by
  intro s dev k hd h
  subst hd
  exact updateRegMaskedElse_write_not_ok (f := id) (st := .err) nofun h

end

/-! #### How such a command ends -/

section
variable {c : Instr} {s : State} {op : Op (Option ResultData)}

theorem readFails_of_beginsWithRead {a : Byte} {n : Nat} (ha : accepts s c.target = true)
    (hc : exec c s = runCommand c.target op s) (hop : BeginsWithRead c.target a n op) : ReadFails c s a n :=
  ⟨fun _ _ h => hc.trans (runCommand_endsIn ha hop.endsIn_address_err h),
    fun _ _ h => hc.trans (runCommand_endsIn ha hop.endsIn_read_err h)⟩

theorem endsAfterRead_of_ends {a : Byte} {n : Nat} {f : List Byte → Except Status (Option ResultData)}
    (ha : accepts s c.target = true) (hc : exec c s = runCommand c.target op s) (hop : BeginsWithRead c.target a n op)
    (hends : ∀ bs, bs.length = n → Ends c.target (s.block c.target).dev8 (readLog (s.block c.target).dev8 a bs) op (f bs)) :
    EndsAfterRead c s a n f :=
  ⟨fun bs _ _ hn h => hc.trans (runCommand_ends ha (hends bs hn) h), readFails_of_beginsWithRead ha hc hop⟩

theorem endsAfterByte_of_ends {r : RegIdx} {f : Byte → Except Status (Option ResultData)} (ha : accepts s c.target = true)
    (hc : exec c s = runCommand c.target op s) (hop : BeginsWithRead c.target (0#1 ++ r) 1 op)
    (hends : ∀ b, Ends c.target (s.block c.target).dev8 (readLog (s.block c.target).dev8 (0#1 ++ r) [b]) op (f b)) :
    EndsAfterByte c s r f := by
  refine endsAfterRead_of_ends ha hc hop fun bs hn => ?_
  obtain ⟨b, rfl⟩ := List.length_eq_one_iff.mp hn
  exact hends b

/-- A command that is one masked update and has no result. -/
theorem endsAfterUpdate_of_exec {r : RegIdx} {v m : Byte} (ha : accepts s c.target = true)
    (hc : exec c s = runCommand c.target (updateRegMasked c.target r v m >>= fun _ => pure none) s) :
    EndsAfterUpdate c s r v m id id :=
  ⟨fun old _ _ h => hc.trans (runCommand_yields ha (yields_map _ (yields_updateRegMasked r old v m)) h),
    readFails_of_beginsWithRead ha hc ((beginsWithRead_updateRegMaskedElse r v m id).bind _),
    fun old _ _ h => hc.trans (runCommand_endsIn ha (endsIn_bind_first (endsIn_updateRegMasked_write_err r old v m)) h)⟩

end

/-! #### The commands of the register access helper -/

theorem exec_readBurst_of_ne {n : Byte} (hn : n ≠ 0#8) (i : InstanceId) (r : RegIdx) (s : State) :
    exec (.readBurst i r n) s = runCommand i (readBurst i r n.toNat >>= fun bs => pure (some (.bytes bs))) s := if_neg hn

/-- Settles O27: both commands are one register read, whose byte the second one masks. -/
theorem readRegCommands : Obligations.ReadRegCommands := by
  intro s i r m ha
  refine ⟨rfl, rfl, ?_, ?_⟩
  · exact endsAfterByte_of_ends ha rfl ((beginsWithRead_readReg r).bind _) fun b => yields_map _ (yields_readReg r b)
  · exact endsAfterByte_of_ends ha rfl ((beginsWithRead_readRegMasked r m).bind _) fun b => yields_map _ (yields_readRegMasked r b m)

/-- Settles O28: the command is one register write, by how its transaction is answered. -/
theorem writeRegCommand : Obligations.WriteRegCommand := by
  intro s i r v ha
  refine ⟨rfl, fun dev k h => ?_, fun dev k h => ?_⟩
  · exact runCommand_yields ha (yields_map _ (yields_writeReg r v)) h
  · exact runCommand_endsIn ha (endsIn_bind_first (endsIn_writeReg_err r v)) h

/-- Settles O29: the command is one masked update. -/
theorem updateRegMaskedCommand : Obligations.UpdateRegMaskedCommand := by
  intro s i r v m ha
  exact ⟨rfl, endsAfterUpdate_of_exec ha rfl⟩

/-- Settles O30: the command is one read at the address byte of a burst. -/
theorem readBurstCommand : Obligations.ReadBurstCommand := by
  intro s i r n ha hn
  refine ⟨rfl, endsAfterRead_of_ends ha (exec_readBurst_of_ne hn i r s) (beginsWithRead_memRead_bind ..) fun bs hbs => ?_⟩
  rw [← hbs]
  exact yields_map _ (yields_readBurst r bs)

end Sys2Proof.Machine

/-! ### The accelerometer codec, one operation at a time

SUPPORT. O32 to O41: what each sub-operation of 41_accel_codec.md answers once its device answers a log, said once as a lemma about
`Yields`, `EndsIn` or `Ends`; a command's statement is then its operation's lemma. -/

namespace Sys2Proof.Machine

/-! #### Sequencing -/

section
variable {α β : Type} {i : InstanceId} {d8 : Byte} {l l' : List Transaction} {op : Op α} {f : α → Op β} {a : α}
  {e : Except Status β}

theorem ends_bind (h : Yields i d8 l op a) (h' : Ends i d8 l' (f a) e) : Ends i d8 (l ++ l') (op >>= f) e := by
  cases e with
  | ok b => exact yields_bind h h'
  | error o => exact endsIn_bind h h'

/-- What follows without a transaction adds nothing to the log. -/
theorem ends_bind_nil (h : Yields i d8 l op a) (h' : Ends i d8 [] (f a) e) : Ends i d8 l (op >>= f) e := by
  have := ends_bind h h'
  rwa [List.append_nil] at this

/-- A value returned after a chain, which may have ended early. -/
theorem ends_map {e : Except Status α} (f : α → β) (h : Ends i d8 l op e) : Ends i d8 l (op >>= fun a => pure (f a)) (e.map f) := by
  cases e with
  | ok a => exact yields_map f h
  | error o => exact endsIn_bind_first h

end

section
variable {c : Instr} {s : State} {α : Type} {op : Op α} {r : RegIdx}

/-- A command that makes one register read and returns what it makes of the answer. -/
theorem endsAfterByte_of_getter {f : α → Option ResultData} {g : Byte → Except Status α}
    {d : Byte → Except Status (Option ResultData)} (ha : accepts s c.target = true)
    (hc : exec c s = runCommand c.target (op >>= fun a => pure (f a)) s) (hop : BeginsWithRead c.target (0#1 ++ r) 1 op)
    (hends : ∀ b, Ends c.target (s.block c.target).dev8 (readLog (s.block c.target).dev8 (0#1 ++ r) [b]) op (g b))
    (hd : ∀ b, d b = (g b).map f) : EndsAfterByte c s r d := by
  refine endsAfterByte_of_ends ha hc (hop.bind _) fun b => ?_
  rw [hd]
  exact ends_map f (hends b)

end

/-! #### The getters -/

section
variable {d8 : Byte} (p : Params)

/-- What `ACC_GET_ODR` makes of `CTRL1` (41_accel_codec.md R114). -/
def odrRead (m : RegMap) (r : Byte) : Except Status AccOdr :=
  match accOdrOfCtrl1 r with
  | some c => .ok c
  | none => .error (.unreachableDecode m.accCtrl1 r)

theorem ends_accGetOdr (r : Byte) :
    Ends .acc d8 (readLog d8 (0#1 ++ p.regMap.accCtrl1) [r]) (accGetOdr p) (odrRead p.regMap r) := by
  refine ends_bind_nil (yields_readReg _ r) ?_
  unfold odrRead
  cases accOdrOfCtrl1 r with
  | some c => exact yields_pure c
  | none => exact endsIn_raise _

theorem yields_accGetOdr {r : Byte} {c : AccOdr} (h : accOdrOfCtrl1 r = some c) :
    Yields .acc d8 (readLog d8 (0#1 ++ p.regMap.accCtrl1) [r]) (accGetOdr p) c := by
  have := ends_accGetOdr (d8 := d8) p r
  rwa [odrRead, h] at this

theorem endsIn_accGetOdr {r : Byte} (h : accOdrOfCtrl1 r = none) :
    EndsIn .acc d8 (readLog d8 (0#1 ++ p.regMap.accCtrl1) [r]) (accGetOdr p) (.outcome (.unreachableDecode p.regMap.accCtrl1 r)) := by
  have := ends_accGetOdr (d8 := d8) p r
  rwa [odrRead, h] at this

/-- The power mode that `CTRL1` holds (41_accel_codec.md R116). -/
def powerModeRead (m : RegMap) (r : Byte) : PowerMode := if r &&& m.accLpenMask ≠ 0#8 then .lowPower else .normal

theorem yields_accGetPowerMode (r : Byte) :
    Yields .acc d8 (readLog d8 (0#1 ++ p.regMap.accCtrl1) [r]) (accGetPowerMode p) (powerModeRead p.regMap r) :=
  yields_map _ (yields_readRegMasked _ r _)

theorem yields_accGetFullScale (r : Byte) : Yields .acc d8 (readLog d8 (0#1 ++ p.regMap.accCtrl4) [r]) (accGetFullScale p)
    (accFsOfField (r &&& p.regMap.accFsMask)) :=
  yields_map _ (yields_readRegMasked _ r _)

theorem yields_accGetHighRes (r : Byte) : Yields .acc d8 (readLog d8 (0#1 ++ p.regMap.accCtrl4) [r]) (accGetHighRes p)
    (r &&& p.regMap.accHrMask != 0#8) :=
  yields_map _ (yields_readRegMasked _ r _)

theorem yields_accGetHpfMode (r : Byte) : Yields .acc d8 (readLog d8 (0#1 ++ p.regMap.accCtrl2) [r]) (accGetHpfMode p)
    (if r &&& p.regMap.accHpfEnMask = 0#8 then .off else .cutoff (hpcfField r)) :=
  yields_map _ (yields_readReg _ r)

theorem yields_accGetFifoWatermark (r : Byte) :
    Yields .acc d8 (readLog d8 (0#1 ++ p.regMap.accFifoCtrl) [r]) (accGetFifoWatermark p) (r &&& p.regMap.accFthMask) :=
  yields_readRegMasked _ r _

theorem yields_irqQuery (r : Byte) : Yields .acc d8 (readLog d8 (0#1 ++ p.regMap.accCtrl3) [r]) (irqQuery p)
    (r &&& routeMask p.regMap != 0#8) :=
  yields_map _ (yields_readRegMasked _ r _)

/-- What `ACC_GET_FIFO_MODE` makes of its two registers (41_accel_codec.md R127). -/
def fifoModeRead (m : RegMap) (ctrl5 fifoCtrl : Byte) : Except Status FifoMode :=
  match fifoPair m ctrl5 fifoCtrl with
  | some f => .ok f
  | none => .error (.unreachableDecode m.accFifoCtrl (fifoCtrl &&& m.accFmMask))

/-- The transactions of `ACC_GET_FIFO_MODE` (41_accel_codec.md R127). -/
def fifoReadLog (m : RegMap) (d8 ctrl5 fifoCtrl : Byte) : List Transaction :=
  readLog d8 (0#1 ++ m.accCtrl5) [ctrl5] ++ readLog d8 (0#1 ++ m.accFifoCtrl) [fifoCtrl]

theorem ends_accGetFifoMode (ctrl5 fifoCtrl : Byte) : Ends .acc d8 (fifoReadLog p.regMap d8 ctrl5 fifoCtrl) (accGetFifoMode p)
    (fifoModeRead p.regMap ctrl5 fifoCtrl) := by
  refine ends_bind (yields_readRegMasked _ ctrl5 _) (ends_bind_nil (yields_readRegMasked _ fifoCtrl _) ?_)
  unfold fifoModeRead fifoPair
  split_ifs
  · exact yields_pure _
  · exact yields_pure _
  · exact endsIn_raise _

theorem yields_accGetFifoMode {ctrl5 fifoCtrl : Byte} {f : FifoMode} (h : fifoPair p.regMap ctrl5 fifoCtrl = some f) :
    Yields .acc d8 (fifoReadLog p.regMap d8 ctrl5 fifoCtrl) (accGetFifoMode p) f := by
  have := ends_accGetFifoMode (d8 := d8) p ctrl5 fifoCtrl
  rwa [fifoModeRead, h] at this

theorem endsIn_accGetFifoMode {ctrl5 fifoCtrl : Byte} (h : fifoPair p.regMap ctrl5 fifoCtrl = none) :
    EndsIn .acc d8 (fifoReadLog p.regMap d8 ctrl5 fifoCtrl) (accGetFifoMode p)
      (.outcome (.unreachableDecode p.regMap.accFifoCtrl (fifoCtrl &&& p.regMap.accFmMask))) := by
  have := ends_accGetFifoMode (d8 := d8) p ctrl5 fifoCtrl
  rwa [fifoModeRead, h] at this

end

theorem beginsWithRead_accGetOdr (p : Params) : BeginsWithRead .acc (0#1 ++ p.regMap.accCtrl1) 1 (accGetOdr p) :=
  (beginsWithRead_readReg _).bind _

/-- Settles O32: both commands are the rate getter, whose branches are those of the field and the mode. -/
theorem accOdrGetters : Obligations.AccOdrGetters := by
  intro s ha code
  have hcode : ∀ r, code r = (accOdrOfCtrl1 r).map accOdrCode := by decide
  refine ⟨rfl, rfl, ?_, ?_⟩
  · refine endsAfterByte_of_getter ha rfl (beginsWithRead_accGetOdr s.params) (ends_accGetOdr s.params) fun r => ?_
    rw [hcode, odrRead]
    cases accOdrOfCtrl1 r <;> rfl
  · refine endsAfterByte_of_getter ha rfl (beginsWithRead_accGetOdr s.params) (ends_accGetOdr s.params) fun r => ?_
    rw [hcode, odrRead]
    cases accOdrOfCtrl1 r with
    | none => rfl
    | some c => simp only [Option.map_some, Option.bind_some, accOdrOfCode_accOdrCode]; rfl

theorem powerModeCode_powerModeRead (m : RegMap) (r : Byte) :
    powerModeCode (powerModeRead m r) = if r &&& m.accLpenMask ≠ 0#8 then 1#8 else 0#8 := by
  unfold powerModeRead
  split <;> rfl

theorem accFsCode_accFsOfField (b : Byte) : accFsCode (accFsOfField b) = (b.extractLsb' 4 2).setWidth 8 := by
  unfold accFsOfField
  generalize b.extractLsb' 4 2 = f
  revert f
  decide

/-- Settles O33: each command is one register read, whose byte its getter masks and decodes. -/
theorem accFieldGetters : Obligations.AccFieldGetters := by
  intro s ha m
  have hmasked (r : RegIdx) (v : Byte) {β : Type} (f : Byte → β) :
      BeginsWithRead .acc (0#1 ++ r) 1 (readRegMasked .acc r v >>= fun b => pure (f b)) := (beginsWithRead_readRegMasked r v).bind _
  refine ⟨⟨rfl, rfl, rfl, rfl, rfl, rfl⟩, ?_, ?_, ?_, ?_, ?_, ?_⟩
  · refine endsAfterByte_of_getter (g := fun r => .ok _) ha rfl (hmasked ..) (yields_accGetPowerMode s.params) fun r => ?_
    rw [← powerModeCode_powerModeRead]
    rfl
  · refine endsAfterByte_of_getter (g := fun r => .ok _) ha rfl (hmasked ..) (yields_accGetFullScale s.params) fun r => ?_
    rw [← accFsCode_accFsOfField]
    rfl
  · refine endsAfterByte_of_getter (g := fun r => .ok _) ha rfl (hmasked ..) (yields_accGetHighRes s.params) fun r => ?_
    rw [decide_not, ← Bool.beq_eq_decide_eq]
    rfl
  · refine endsAfterByte_of_getter (g := fun r => .ok _) ha rfl ((beginsWithRead_readReg _).bind _) (yields_accGetHpfMode s.params)
      fun r => ?_
    dsimp only [Except.map]
    split <;> rfl
  · exact endsAfterByte_of_getter (g := fun r => .ok _) ha rfl (beginsWithRead_readRegMasked ..)
      (yields_accGetFifoWatermark s.params) fun _ => rfl
  · refine endsAfterByte_of_getter (g := fun r => .ok _) ha rfl (hmasked ..) (yields_irqQuery s.params) fun r => ?_
    rw [decide_not, ← Bool.beq_eq_decide_eq]
    rfl

/-- Settles O34: the mode is read and decoded by its getter, and its code returned. -/
theorem accFifoModeGetter : Obligations.AccFifoModeGetter := by
  intro s e f dev k ha m log h
  refine (runCommand_ends ha (ends_map _ (ends_accGetFifoMode s.params e f)) h).trans ?_
  unfold fifoModeRead fifoPair
  split_ifs <;> rfl

/-! #### The setters of one field -/

/-- Settles O35: each command is one masked update. -/
theorem accFieldSetters : Obligations.AccFieldSetters := by
  intro s pm e c ha m
  exact ⟨⟨rfl, rfl, rfl, rfl⟩, endsAfterUpdate_of_exec ha rfl, endsAfterUpdate_of_exec ha rfl, endsAfterUpdate_of_exec ha rfl,
    endsAfterUpdate_of_exec ha rfl⟩

theorem answers_nil (s : State) (i : InstanceId) : Answers s i [] (s.block i).device s.draws := rfl

theorem accSetFifoWatermark_of_gt {w : Byte} (hw : 31 < w.toNat) (p : Params) :
    accSetFifoWatermark p w = raise (.invalidConfig (.watermark w)) := if_pos hw

theorem accSetFifoWatermark_of_le {w : Byte} (hw : w.toNat ≤ 31) (p : Params) :
    accSetFifoWatermark p w = updateRegMasked .acc p.regMap.accFifoCtrl w p.regMap.accFthMask := if_neg (Nat.not_lt.mpr hw)

theorem exec_accSetFifoWatermark (w : Byte) (s : State) :
    exec (.accSetFifoWatermark w) s = runCommand .acc (accSetFifoWatermark s.params w >>= fun _ => pure none) s := rfl

/-- Settles O37: a watermark above 31 is rejected at once, and any other is one masked update. -/
theorem accSetFifoWatermarkCommand : Obligations.AccSetFifoWatermarkCommand := by
  intro s w ha
  refine ⟨rfl, fun hw => ?_, fun hw => ?_⟩
  · rw [exec_accSetFifoWatermark, accSetFifoWatermark_of_gt hw]
    exact runCommand_endsIn ha (endsIn_bind_first (endsIn_raise _)) (answers_nil s .acc)
  · refine endsAfterUpdate_of_exec ha ?_
    rw [exec_accSetFifoWatermark, accSetFifoWatermark_of_le hw]
    rfl

end Sys2Proof.Machine

/-! ### The full scale, the rate, the interrupt and the FIFO

SUPPORT. O36 and O38 to O41. The full-scale setter is the only operation of the accelerometer that writes the cache: `EndsStoring` says
what `Ends` says, and what the cache holds afterwards. -/

namespace Sys2Proof.Machine

/-! #### Operations that store the cache -/

/-- The result of an operation that answers the value of `e`, or ends in its outcome, in the state `t`. -/
def resultOf {α : Type} : Except Status α → State → EStateM.Result Ending State α
  | .ok a, t => .ok a t
  | .error o, t => .error (.outcome o) t

/-- From any state of ACC with the address `d8` whose device answers `log`, `op` answers the value of `e` or ends in its outcome, and has
done that, left `v` in `SENS_ACC`, and no more. -/
def EndsStoring (d8 : Byte) (log : List Transaction) (v : Option FloatVal) {α : Type} (op : Op α) (e : Except Status α) : Prop :=
  ∀ s dev k, s.acc.dev8 = d8 → Answers s .acc log dev k → op s = resultOf e { answered s .acc log dev k with sensAcc := v }

section
variable {α β : Type} {d8 : Byte} {l l' : List Transaction} {v : Option FloatVal} {op : Op α} {f : α → Op β}

theorem ends_iff {i : InstanceId} {e : Except Status α} : Ends i d8 l op e ↔
    ∀ s dev k, (s.block i).dev8 = d8 → Answers s i l dev k → op s = resultOf e (answered s i l dev k) := by
  cases e <;> rfl

theorem endsStoring_bind_of_yields {a : α} {e : Except Status β} (h : Yields .acc d8 l op a) (h' : EndsStoring d8 l' v (f a) e) :
    EndsStoring d8 (l ++ l') v (op >>= f) e := by
  intro s dev k hd hl
  obtain ⟨d, n, ha, hb⟩ := answers_append hl
  rw [op_bind_ok (h s d n hd ha), h' (answered s .acc l d n) dev k hd hb, answered_answered]

/-- Operations that leave the cache alone keep what was stored before them. -/
theorem endsStoring_bind_of_ends {a : α} {e : Except Status β} (h : EndsStoring d8 l v op (.ok a)) (h' : Ends .acc d8 l' (f a) e) :
    EndsStoring d8 (l ++ l') v (op >>= f) e := by
  intro s dev k hd hl
  obtain ⟨d, n, ha, hb⟩ := answers_append hl
  rw [op_bind_ok (h s d n hd ha), ends_iff.mp h' { answered s .acc l d n with sensAcc := v } dev k hd hb, ← answered_answered]
  rfl

theorem endsStoring_bind_error {o : Status} (h : EndsStoring d8 l v op (.error o)) : EndsStoring d8 l v (op >>= f) (.error o) := by
  intro s dev k hd hl
  rw [op_bind_error (h s dev k hd hl)]
  rfl

/-- A value returned after such an operation. -/
theorem endsStoring_map {e : Except Status α} (g : α → β) (h : EndsStoring d8 l v op e) :
    EndsStoring d8 l v (op >>= fun a => pure (g a)) (e.map g) := by
  cases e with
  | ok a =>
    have := endsStoring_bind_of_ends (f := fun a => pure (g a)) (e := .ok (g a)) h (yields_pure (g a))
    rwa [List.append_nil] at this
  | error o => exact endsStoring_bind_error h

theorem runCommand_endsStoring {s : State} {op : Op (Option ResultData)} {e : Except Status (Option ResultData)} {dev : Device} {k : Nat}
    (ha : accepts s .acc = true) (h : EndsStoring s.acc.dev8 l v op e) (hl : Answers s .acc l dev k) :
    runCommand .acc op s = .next { ended s .acc e l dev k with sensAcc := v } := by
  rw [runCommand_of_accepts ha, h s dev k rfl hl]
  cases e <;> rfl

end

/-! #### The full scale -/

section
variable {d8 : Byte} (p : Params) (fs : AccFs)

theorem endsStoring_accSetFullScale (old : Byte) :
    EndsStoring d8 (updateLog d8 p.regMap.accCtrl4 old (merged old (accFsCode fs <<< 4) p.regMap.accFsMask))
      (some (accSens p.floatFmt fs)) (accSetFullScale p fs) (.ok ()) := by
  intro s dev k hd hl
  exact op_bind_ok (yields_updateRegMaskedElse _ old _ _ unsetSensAcc s dev k hd hl)

theorem endsStoring_accSetFullScale_write_err (old : Byte) :
    EndsStoring d8 (failedUpdateLog d8 p.regMap.accCtrl4 old (merged old (accFsCode fs <<< 4) p.regMap.accFsMask) .err)
      none (accSetFullScale p fs) (.error (.busError .write (0#1 ++ p.regMap.accCtrl4))) := by
  intro s dev k hd hl
  subst hd
  exact op_bind_error (updateRegMaskedElse_write_not_ok (f := unsetSensAcc) (st := .err) nofun hl)

end

/-- Settles O36: the cache is stored after a completed update and made UNSET after a failed write; the read before does not touch it. -/
theorem accSetFullScaleCommand : Obligations.AccSetFullScaleCommand := by
  intro s fs ha
  refine ⟨rfl, fun old dev k h => ?_, ?_, fun old dev k h => ?_⟩
  · exact runCommand_endsStoring ha (endsStoring_map _ (endsStoring_accSetFullScale s.params fs old)) h
  · exact readFails_of_beginsWithRead ha rfl (((beginsWithRead_updateRegMaskedElse ..).bind _).bind _)
  · exact runCommand_endsStoring ha (endsStoring_bind_error (endsStoring_accSetFullScale_write_err s.params fs old)) h

/-! #### The drain and the rate -/

section
variable {d8 : Byte} (p : Params) {log drain : List Transaction}

theorem yields_accDrain (h : DrainLog p.regMap d8 log) : Yields .acc d8 log (accDrain p) () := by
  obtain ⟨st, ⟨hst, rfl⟩ | ⟨hst, bs, hbs, rfl⟩⟩ := h
  · refine ends_bind_nil (e := .ok ()) (yields_readRegMasked _ st _) ?_
    rw [if_neg (not_not.mpr hst)]
    exact yields_pure ()
  · refine yields_bind (yields_readRegMasked _ st _) ?_
    rw [if_pos hst, ← hbs]
    exact yields_map _ (yields_readBurst _ bs)

theorem yields_drainFrom {cur : AccOdr} (h : cur ≠ .powerDown ∧ drain = [] ∨ cur = .powerDown ∧ DrainLog p.regMap d8 drain) :
    Yields .acc d8 drain (drainFrom p cur) () := by
  obtain ⟨hcur, rfl⟩ | ⟨rfl, hd⟩ := h
  · rw [drainFrom, if_neg hcur]
    exact yields_pure ()
  · exact yields_accDrain p hd

variable {c cur : AccOdr} {r1 : Byte}

/-- What `ACC_SET_ODR` does once it has read the rate (41_accel_codec.md R113). -/
def setOdrFrom (c cur : AccOdr) : Op Unit :=
  if cur = c then pure ()
  else if c = .powerDown then updateRegMasked .acc p.regMap.accCtrl1 0x00#8 p.regMap.accOdrMask
  else accGetPowerMode p >>= fun pm =>
    if odrValid c pm then
      drainFrom p cur >>= fun _ => updateRegMasked .acc p.regMap.accCtrl1 ((accOdrCode c &&& 0xF0#8) ||| p.regMap.accAxesMask)
        (p.regMap.accOdrMask ||| p.regMap.accAxesMask)
    else raise (.invalidConfig (.odr c pm))

theorem accSetOdr_eq (c : AccOdr) : accSetOdr p c = accGetOdr p >>= setOdrFrom p c := rfl

/-- The rate is already the one asked for. -/
theorem yields_setOdrFrom_same (c : AccOdr) : Yields .acc d8 [] (setOdrFrom p c c) () := by
  rw [setOdrFrom, if_pos rfl]
  exact yields_pure ()

theorem yields_setOdrFrom_powerDown (hne : cur ≠ .powerDown) (r : Byte) :
    Yields .acc d8 (updateLog d8 p.regMap.accCtrl1 r (merged r 0x00#8 p.regMap.accOdrMask)) (setOdrFrom p .powerDown cur) () := by
  rw [setOdrFrom, if_neg hne, if_pos rfl]
  exact yields_updateRegMasked _ r _ _

theorem yields_setOdrFrom_active (hne : cur ≠ c) (hc : c ≠ .powerDown) {r2 : Byte} (r3 : Byte)
    (hv : odrValid c (powerModeRead p.regMap r2) = true)
    (hd : cur ≠ .powerDown ∧ drain = [] ∨ cur = .powerDown ∧ DrainLog p.regMap d8 drain) :
    Yields .acc d8 (readLog d8 (0#1 ++ p.regMap.accCtrl1) [r2] ++ (drain ++ updateLog d8 p.regMap.accCtrl1 r3
      (merged r3 ((accOdrCode c &&& 0xF0#8) ||| p.regMap.accAxesMask) (p.regMap.accOdrMask ||| p.regMap.accAxesMask))))
      (setOdrFrom p c cur) () := by
  rw [setOdrFrom, if_neg hne, if_neg hc]
  refine yields_bind (yields_accGetPowerMode p r2) ?_
  rw [if_pos hv]
  exact yields_bind (yields_drainFrom p hd) (yields_updateRegMasked _ r3 _ _)

theorem endsIn_setOdrFrom_invalid (hne : cur ≠ c) (hc : c ≠ .powerDown) {r2 : Byte}
    (hv : odrValid c (powerModeRead p.regMap r2) = false) :
    EndsIn .acc d8 (readLog d8 (0#1 ++ p.regMap.accCtrl1) [r2]) (setOdrFrom p c cur)
      (.outcome (.invalidConfig (.odr c (powerModeRead p.regMap r2)))) := by
  rw [setOdrFrom, if_neg hne, if_neg hc]
  refine ends_bind_nil (e := .error _) (yields_accGetPowerMode p r2) ?_
  rw [if_neg (Bool.eq_false_iff.mp hv)]
  exact endsIn_raise _

theorem yields_accSetOdr (h : SetOdrLog p.regMap d8 c log) : Yields .acc d8 log (accSetOdr p c) () := by
  obtain ⟨r1, cur, hcur, ⟨rfl, rfl⟩ | ⟨hne, rfl, r, rfl⟩ | ⟨hne, hc, r2, r3, drain, hv, hd, rfl⟩⟩ := h <;> rw [accSetOdr_eq]
  · exact ends_bind_nil (e := .ok ()) (yields_accGetOdr p hcur) (yields_setOdrFrom_same p cur)
  · exact yields_bind (yields_accGetOdr p hcur) (yields_setOdrFrom_powerDown p hne r)
  · simp only [List.append_assoc]
    exact yields_bind (yields_accGetOdr p hcur) (yields_setOdrFrom_active p hne hc r3 hv hd)

theorem endsIn_accSetOdr_undecodable (h : accOdrOfCtrl1 r1 = none) (c : AccOdr) :
    EndsIn .acc d8 (readLog d8 (0#1 ++ p.regMap.accCtrl1) [r1]) (accSetOdr p c)
      (.outcome (.unreachableDecode p.regMap.accCtrl1 r1)) := endsIn_bind_first (endsIn_accGetOdr p h)

theorem endsIn_accSetOdr_invalid (h : accOdrOfCtrl1 r1 = some cur) (hne : cur ≠ c) (hc : c ≠ .powerDown) {r2 : Byte}
    (hv : odrValid c (powerModeRead p.regMap r2) = false) :
    EndsIn .acc d8 (readLog d8 (0#1 ++ p.regMap.accCtrl1) [r1] ++ readLog d8 (0#1 ++ p.regMap.accCtrl1) [r2]) (accSetOdr p c)
      (.outcome (.invalidConfig (.odr c (powerModeRead p.regMap r2)))) :=
  endsIn_bind (yields_accGetOdr p h) (endsIn_setOdrFrom_invalid p hne hc hv)

end

/-- A setter whose operation ends well. -/
theorem runCommand_setter {i : InstanceId} {s : State} {log : List Transaction} {op : Op Unit} {dev : Device} {k : Nat}
    (ha : accepts s i = true) (h : Yields i (s.block i).dev8 log op ()) (hl : Answers s i log dev k) :
    runCommand i (op >>= fun _ => pure none) s = .next (afterOk s i log dev k none) := runCommand_yields ha (yields_map _ h) hl

/-- A setter whose operation ends in an outcome. -/
theorem runCommand_setter_outcome {i : InstanceId} {s : State} {log : List Transaction} {op : Op Unit} {o : Status} {dev : Device}
    {k : Nat} (ha : accepts s i = true) (h : EndsIn i (s.block i).dev8 log op (.outcome o)) (hl : Answers s i log dev k) :
    runCommand i (op >>= fun _ => pure none) s = .next (afterOutcome s i o log dev k) := runCommand_endsIn ha (endsIn_bind_first h) hl

/-- Settles O38: by what the rate read decodes to, the setter's log is one of `SetOdrLog`, or ends where it faults. -/
theorem accSetOdrCommand : Obligations.AccSetOdrCommand := by
  intro s c r1 r2 r3 drain dev k ha m d8 read1 read2 pm write
  refine ⟨fun hcur h => ?_, fun hcur h => ?_, fun cur hcur hne hc h => ?_, fun cur hcur hne hc hv h => ?_,
    fun cur hcur hne hc hv hpd h => ?_, fun hcur hc hv hd h => ?_⟩
  · exact runCommand_setter_outcome ha (endsIn_accSetOdr_undecodable s.params hcur c) h
  · exact runCommand_setter ha (yields_accSetOdr s.params ⟨r1, c, hcur, .inl ⟨rfl, rfl⟩⟩) h
  · exact runCommand_setter ha (yields_accSetOdr s.params ⟨r1, cur, hcur, .inr (.inl ⟨hne, hc, r3, rfl⟩)⟩) h
  · exact runCommand_setter_outcome ha (endsIn_accSetOdr_invalid s.params hcur hne hc hv) h
  · rw [← List.append_nil (read1 ++ read2)] at h ⊢
    exact runCommand_setter ha (yields_accSetOdr s.params
      ⟨r1, cur, hcur, .inr (.inr ⟨hne, hc, r2, r3, [], hv, .inl ⟨hpd, rfl⟩, rfl⟩)⟩) h
  · exact runCommand_setter ha (yields_accSetOdr s.params
      ⟨r1, .powerDown, hcur, .inr (.inr ⟨hc.symm, hc, r2, r3, drain, hv, .inr ⟨rfl, hd⟩, rfl⟩)⟩) h

/-! #### The interrupt routing -/

section
variable {d8 : Byte} (p : Params) {log drain : List Transaction} {f : FifoMode}

/-- The value that `IRQ(enable)` writes under the routing mask, by the FIFO mode (41_accel_codec.md R123). -/
def irqBit (m : RegMap) : FifoMode → Byte
  | .stream => m.accIntWtmMask
  | .disabled => m.accIntDrdyMask

theorem irqEnable_eq : irqEnable p = accDrain p >>= fun _ => accGetFifoMode p >>= fun f =>
    updateRegMasked .acc p.regMap.accCtrl3 (irqBit p.regMap f) (routeMask p.regMap) := by
  unfold irqEnable
  refine congrArg _ (funext fun _ => congrArg _ (funext fun f => ?_))
  cases f <;> rfl

/-- `EnableLog` for the mode that the FIFO registers hold. -/
theorem enableLog_iff : EnableLog p.regMap d8 log ↔ ∃ drain ctrl5 fifoCtrl old f, DrainLog p.regMap d8 drain ∧
    fifoPair p.regMap ctrl5 fifoCtrl = some f ∧ log = drain ++ (fifoReadLog p.regMap d8 ctrl5 fifoCtrl ++
      updateLog d8 p.regMap.accCtrl3 old (merged old (irqBit p.regMap f) (routeMask p.regMap))) := by
  simp only [fifoReadLog, ← List.append_assoc]
  constructor
  · rintro ⟨drain, ctrl5, fifoCtrl, old, hd, ⟨hf, rfl⟩ | ⟨hf, rfl⟩⟩
    · exact ⟨drain, ctrl5, fifoCtrl, old, .stream, hd, hf, rfl⟩
    · exact ⟨drain, ctrl5, fifoCtrl, old, .disabled, hd, hf, rfl⟩
  · rintro ⟨drain, ctrl5, fifoCtrl, old, f, hd, hf, rfl⟩
    cases f with
    | stream => exact ⟨drain, ctrl5, fifoCtrl, old, hd, .inl ⟨hf, rfl⟩⟩
    | disabled => exact ⟨drain, ctrl5, fifoCtrl, old, hd, .inr ⟨hf, rfl⟩⟩

theorem yields_irqEnable (h : EnableLog p.regMap d8 log) : Yields .acc d8 log (irqEnable p) () := by
  obtain ⟨drain, ctrl5, fifoCtrl, old, f, hd, hf, rfl⟩ := (enableLog_iff p).mp h
  rw [irqEnable_eq]
  exact yields_bind (yields_accDrain p hd) (yields_bind (yields_accGetFifoMode p hf) (yields_updateRegMasked _ old _ _))

theorem endsIn_irqEnable {ctrl5 fifoCtrl : Byte} (hd : DrainLog p.regMap d8 drain) (hf : fifoPair p.regMap ctrl5 fifoCtrl = none) :
    EndsIn .acc d8 (drain ++ fifoReadLog p.regMap d8 ctrl5 fifoCtrl) (irqEnable p)
      (.outcome (.unreachableDecode p.regMap.accFifoCtrl (fifoCtrl &&& p.regMap.accFmMask))) :=
  endsIn_bind (yields_accDrain p hd) (endsIn_bind_first (endsIn_accGetFifoMode p hf))

end

/-- Settles O39: disabling is one masked update, and enabling ends as its drain and the FIFO mode it reads let it. -/
theorem accSetDrdyIntCommand : Obligations.AccSetDrdyIntCommand := by
  intro s ha m d8
  refine ⟨endsAfterUpdate_of_exec ha rfl, fun log dev k hl h => ?_, fun drain e f dev k hd hf h => ?_⟩
  · exact runCommand_setter ha (yields_irqEnable s.params hl) h
  · rw [List.append_assoc] at h ⊢
    exact runCommand_setter_outcome ha (endsIn_irqEnable s.params hd hf) h

/-! #### The FIFO mode -/

section
variable {d8 : Byte} (p : Params) {l log : List Transaction} {f : FifoMode}

theorem yields_irqRefresh_off {q : Byte} (hq : q &&& routeMask p.regMap = 0#8) :
    Yields .acc d8 (readLog d8 (0#1 ++ p.regMap.accCtrl3) [q]) (irqRefresh p) () := by
  refine ends_bind_nil (e := .ok ()) (yields_irqQuery p q) ?_
  rw [if_neg (by simp [hq])]
  exact yields_pure ()

/-- With a routing bit set the refresh is `IRQ(enable)`. -/
theorem ends_irqRefresh_on {q : Byte} {e : Except Status Unit} (hq : q &&& routeMask p.regMap ≠ 0#8)
    (h : Ends .acc d8 l (irqEnable p) e) : Ends .acc d8 (readLog d8 (0#1 ++ p.regMap.accCtrl3) [q] ++ l) (irqRefresh p) e := by
  refine ends_bind (yields_irqQuery p q) ?_
  rwa [if_pos (by simpa using hq)]

/-- The two updates of `ACC_SET_FIFO_MODE` (41_accel_codec.md R126), which read `e` and `fc`. -/
def fifoWritesLog (m : RegMap) (d8 : Byte) (f : FifoMode) (e fc : Byte) : List Transaction :=
  updateLog d8 m.accCtrl5 e (merged e (if f = .stream then m.accFifoEnMask else 0x00#8) m.accFifoEnMask) ++
    updateLog d8 m.accFifoCtrl fc (merged fc (if f = .stream then m.accFmStream else m.accFmBypass) m.accFmMask)

/-- `ACC_SET_FIFO_MODE` ends as its refresh does. -/
theorem ends_accSetFifoMode {x : Except Status Unit} (f : FifoMode) (e fc : Byte) (h : Ends .acc d8 l (irqRefresh p) x) :
    Ends .acc d8 (fifoWritesLog p.regMap d8 f e fc ++ l) (accSetFifoMode p f) x := by
  rw [fifoWritesLog, List.append_assoc]
  exact ends_bind (yields_updateRegMasked _ e _ _) (ends_bind (yields_updateRegMasked _ fc _ _) h)

theorem yields_accSetFifoMode (h : FifoModeLog p.regMap d8 f log) : Yields .acc d8 log (accSetFifoMode p f) () := by
  obtain ⟨e, fc, q, refresh, ⟨hq, rfl⟩ | ⟨hq, hl⟩, rfl⟩ := h
  · rw [List.append_nil]
    exact ends_accSetFifoMode (x := .ok ()) p f e fc (yields_irqRefresh_off p hq)
  · rw [List.append_assoc]
    exact ends_accSetFifoMode p f e fc (ends_irqRefresh_on (e := .ok ()) p hq (yields_irqEnable p hl))

theorem yields_accClearFifo (r o1 o2 : Byte) :
    Yields .acc d8 (readLog d8 (0#1 ++ p.regMap.accFifoCtrl) [r] ++
        (updateLog d8 p.regMap.accFifoCtrl o1 (merged o1 p.regMap.accFmBypass p.regMap.accFmMask) ++
          updateLog d8 p.regMap.accFifoCtrl o2 (merged o2 (r &&& p.regMap.accFmMask) p.regMap.accFmMask))) (accClearFifo p) () :=
  yields_bind (yields_readRegMasked _ r _) (yields_bind (yields_updateRegMasked _ o1 _ _) (yields_updateRegMasked _ o2 _ _))

end

/-- Settles O40: the two updates and the query come first, and the setter then ends as the refresh does. -/
theorem accSetFifoModeCommand : Obligations.AccSetFifoModeCommand := by
  intro s f e fc q refresh dev k ha m d8 writes
  refine ⟨fun hq h => ?_, fun hq hl h => ?_, fun drain e' f' hq hd hf h => ?_⟩
  · rw [← List.append_nil writes] at h ⊢
    exact runCommand_setter ha (yields_accSetFifoMode s.params ⟨e, fc, q, [], .inl ⟨hq, rfl⟩, rfl⟩) h
  · exact runCommand_setter ha (yields_accSetFifoMode s.params ⟨e, fc, q, refresh, .inr ⟨hq, hl⟩, rfl⟩) h
  · have hlog : writes ++ drain ++ readLog d8 (0#1 ++ m.accCtrl5) [e'] ++ readLog d8 (0#1 ++ m.accFifoCtrl) [f'] =
        fifoWritesLog m d8 f e fc ++ (readLog d8 (0#1 ++ m.accCtrl3) [q] ++ (drain ++ fifoReadLog m d8 e' f')) := by
      simp only [writes, fifoWritesLog, fifoReadLog, List.append_assoc]
    rw [hlog] at h ⊢
    exact runCommand_setter_outcome ha
      (ends_accSetFifoMode s.params f e fc (ends_irqRefresh_on (e := .error _) s.params hq (endsIn_irqEnable s.params hd hf))) h

/-- Settles O41: one masked read and two masked updates, the second with the bits read. -/
theorem accClearFifoCommand : Obligations.AccClearFifoCommand := by
  intro s f o1 o2 dev k ha m d8 log h
  simp only [log, List.append_assoc] at h ⊢
  exact runCommand_setter ha (yields_accClearFifo s.params f o1 o2) h

end Sys2Proof.Machine

/-! ### The accelerometer init

SUPPORT. O43. `ACC_INIT` (41_accel_codec.md R112) in four stages: what comes before the full scale, the full scale, which alone writes the
cache, what follows it up to the rate, and the rate with its readback. -/

namespace Sys2Proof.Machine

/-! #### The stages -/

section
variable (p : Params)

/-- Init after the identity byte `id`, up to the full scale. -/
def accInitFirstFrom (id : Byte) : Op Unit :=
  if id ≠ p.regMap.accIdValue then raise (.initFailed .idMismatch p.regMap.accIdAddr id)
  else do
    accRebootPulse p
    irqDisable p
    accSetFifoMode p .disabled
    accSetFifoWatermark p 0#8

/-- Init up to the full scale. -/
def accInitFirst : Op Unit := readReg .acc p.regMap.accIdAddr >>= accInitFirstFrom p

/-- Init after the full scale, up to the rate. -/
def accInitMiddle : Op Unit := do
  accSetHpfMode p .off
  accSetHighRes p true
  accSetPowerMode p .normal
  accDrain p

/-- What init makes of its readback. -/
def accInitCheck (target : AccOdr) (f : Byte) : Op Unit :=
  if f ≠ accOdrCode target &&& 0xF0#8 then raise (.initFailed .readbackMismatch p.regMap.accCtrl1 f) else pure ()

/-- Init from the rate on. -/
def accInitLast (target : AccOdr) : Op Unit :=
  accSetOdr p target >>= fun _ => readRegMasked .acc p.regMap.accCtrl1 p.regMap.accOdrMask >>= accInitCheck p target

/-- Init from the full scale on. -/
def accInitRest (target : AccOdr) : Op Unit :=
  accSetFullScale p .g2 >>= fun _ => accInitMiddle p >>= fun _ => accInitLast p target

/-- Init is its stages, one after another. -/
theorem accInit_eq (start : Bool) : accInit p start = accInitFirst p >>= fun _ => accInitRest p (initTarget p start) := by
  unfold accInit accInitFirst
  rw [op_bind_assoc]
  refine congrArg _ (funext fun id => ?_)
  unfold accInitFirstFrom
  split
  · rfl
  · simp only [op_bind_assoc, accInitRest, accInitMiddle]
    rfl

end

/-! #### How each stage ends -/

section
variable {d8 : Byte} (p : Params) {log first drain odr : List Transaction}

theorem endsIn_accInitFirst {b : Byte} (h : b ≠ p.regMap.accIdValue) :
    EndsIn .acc d8 (readLog d8 (0#1 ++ p.regMap.accIdAddr) [b]) (accInitFirst p)
      (.outcome (.initFailed .idMismatch p.regMap.accIdAddr b)) := by
  refine ends_bind_nil (e := .error _) (yields_readReg _ b) ?_
  rw [accInitFirstFrom, if_pos h]
  exact endsIn_raise _

theorem yields_accRebootPulse (o1 o2 : Byte) :
    Yields .acc d8 (updateLog d8 p.regMap.accCtrl5 o1 (merged o1 p.regMap.accBootMask p.regMap.accBootMask) ++
      updateLog d8 p.regMap.accCtrl5 o2 (merged o2 0x00#8 p.regMap.accBootMask)) (accRebootPulse p) () :=
  yields_bind (yields_updateRegMasked _ o1 _ _) (yields_updateRegMasked _ o2 _ _)

theorem yields_accInitFirst (h : AccInitFirstLog p.regMap d8 log) : Yields .acc d8 log (accInitFirst p) () := by
  obtain ⟨o1, o2, o3, o4, fifo, hfifo, rfl⟩ := h
  simp only [List.append_assoc]
  refine yields_bind (yields_readReg _ p.regMap.accIdValue) ?_
  rw [accInitFirstFrom, if_neg (not_not.mpr rfl), ← List.append_assoc]
  exact yields_bind (yields_accRebootPulse p o1 o2) (yields_bind (yields_updateRegMasked _ o3 _ _)
    (yields_bind (yields_accSetFifoMode p hfifo) (yields_updateRegMasked _ o4 _ _)))

theorem yields_accInitMiddle (o6 o7 o8 : Byte) (hd : DrainLog p.regMap d8 drain) :
    Yields .acc d8 (updateLog d8 p.regMap.accCtrl2 o6 (merged o6 0x00#8 p.regMap.accHpfEnMask) ++
      (updateLog d8 p.regMap.accCtrl4 o7 (merged o7 0x08#8 p.regMap.accHrMask) ++
        (updateLog d8 p.regMap.accCtrl1 o8 (merged o8 0x00#8 p.regMap.accLpenMask) ++ drain))) (accInitMiddle p) () :=
  yields_bind (yields_updateRegMasked _ o6 _ _) (yields_bind (yields_updateRegMasked _ o7 _ _)
    (yields_bind (yields_updateRegMasked _ o8 _ _) (yields_accDrain p hd)))

/-- How init ends after its readback of `CTRL1`. -/
def initEnd (m : RegMap) (target : AccOdr) (f : Byte) : Except Status Unit :=
  if f &&& m.accOdrMask = accOdrCode target &&& 0xF0#8 then .ok ()
  else .error (.initFailed .readbackMismatch m.accCtrl1 (f &&& m.accOdrMask))

theorem ends_accInitLast {target : AccOdr} (h : SetOdrLog p.regMap d8 target odr) (f : Byte) :
    Ends .acc d8 (odr ++ readLog d8 (0#1 ++ p.regMap.accCtrl1) [f]) (accInitLast p target) (initEnd p.regMap target f) := by
  refine ends_bind (yields_accSetOdr p h) (ends_bind_nil (yields_readRegMasked _ f _) ?_)
  unfold accInitCheck initEnd
  rw [ite_not]
  split
  · exact yields_pure ()
  · exact endsIn_raise _

theorem endsIn_accInitLast {r : Byte} (h : accOdrOfCtrl1 r = none) (target : AccOdr) :
    EndsIn .acc d8 (readLog d8 (0#1 ++ p.regMap.accCtrl1) [r]) (accInitLast p target)
      (.outcome (.unreachableDecode p.regMap.accCtrl1 r)) := endsIn_bind_first (endsIn_accSetOdr_undecodable p h target)

/-! #### How init ends -/

theorem endsIn_accInit_identity {b : Byte} (h : b ≠ p.regMap.accIdValue) (start : Bool) :
    EndsIn .acc d8 (readLog d8 (0#1 ++ p.regMap.accIdAddr) [b]) (accInit p start)
      (.outcome (.initFailed .idMismatch p.regMap.accIdAddr b)) := by
  rw [accInit_eq]
  exact endsIn_bind_first (endsIn_accInitFirst p h)

theorem endsStoring_accInit_of_rest {l : List Transaction} {v : Option FloatVal} {start : Bool} {e : Except Status Unit}
    (hfirst : AccInitFirstLog p.regMap d8 first) (h : EndsStoring d8 l v (accInitRest p (initTarget p start)) e) :
    EndsStoring d8 (first ++ l) v (accInit p start) e := by
  rw [accInit_eq]
  exact endsStoring_bind_of_yields (yields_accInitFirst p hfirst) h

theorem endsStoring_accInit_fullScale_err (hfirst : AccInitFirstLog p.regMap d8 first) (old : Byte) (start : Bool) :
    EndsStoring d8 (first ++ failedUpdateLog d8 p.regMap.accCtrl4 old (merged old 0x00#8 p.regMap.accFsMask) .err) none
      (accInit p start) (.error (.busError .write (0#1 ++ p.regMap.accCtrl4))) :=
  endsStoring_accInit_of_rest p hfirst (endsStoring_bind_error (endsStoring_accSetFullScale_write_err p .g2 old))

/-- After the transactions up to the rate, init ends as its last stage does, with the cache stored. -/
theorem endsStoring_accInit {middle l : List Transaction} {start : Bool} {e : Except Status Unit}
    (hmiddle : AccInitMiddleLog p.regMap d8 middle) (h : Ends .acc d8 l (accInitLast p (initTarget p start)) e) :
    EndsStoring d8 (middle ++ l) (some (accSens p.floatFmt .g2)) (accInit p start) e := by
  obtain ⟨first, o5, o6, o7, o8, drain, hfirst, hd, rfl⟩ := hmiddle
  have hlog := endsStoring_accInit_of_rest p hfirst
    (endsStoring_bind_of_ends (endsStoring_accSetFullScale p .g2 o5) (ends_bind (yields_accInitMiddle p o6 o7 o8 hd) h))
  simp only [List.append_assoc] at hlog ⊢
  exact hlog

/-- The state that the end of init leaves. -/
theorem ended_initEnd (s : State) (m : RegMap) (target : AccOdr) (f : Byte) (log : List Transaction) (dev : Device) (k : Nat) :
    ended s .acc ((initEnd m target f).map fun _ => none) log dev k =
      if f &&& m.accOdrMask = accOdrCode target &&& 0xF0#8 then afterOk s .acc log dev k none
      else afterOutcome s .acc (.initFailed .readbackMismatch m.accCtrl1 (f &&& m.accOdrMask)) log dev k := by
  unfold initEnd
  split <;> rfl

end

/-- Settles O43: init ends in the stage in which its identity, its full scale, its rate or its readback stops it. -/
theorem accInitCommand : Obligations.AccInitCommand := by
  intro s start dev k ha m d8 withSens
  refine ⟨fun b hb h => ?_, fun first old hfirst h => ?_, fun middle r hmiddle hr h => ?_, fun f log hlog h => ?_⟩
  · exact runCommand_setter_outcome ha (endsIn_accInit_identity s.params hb start) h
  · exact runCommand_endsStoring ha (endsStoring_map _ (endsStoring_accInit_fullScale_err s.params hfirst old start)) h
  · exact runCommand_endsStoring ha
      (endsStoring_map _ (endsStoring_accInit (e := .error _) s.params hmiddle (endsIn_accInitLast s.params hr _))) h
  · obtain ⟨middle, odr, hmiddle, hodr, rfl⟩ := hlog
    rw [List.append_assoc] at h ⊢
    have hrun := runCommand_endsStoring ha (endsStoring_map (fun _ => none)
      (endsStoring_accInit s.params hmiddle (ends_accInitLast s.params hodr f))) h
    rwa [ended_initEnd] at hrun

end Sys2Proof.Machine

/-! ### The accelerometer on the register-file device

SUPPORT. O42. `Serves` says which log a register-file device answers, and which registers it holds afterwards, as functions of the index; so
the log of init is built piece by piece beside the registers it leaves. -/

namespace Sys2Proof.Machine

/-! #### Registers as a function of the index -/

/-- A register-file device in canonical form that holds the registers `g`. -/
def HasRegs (g : RegIdx → Byte) (dev : Device) : Prop := ∃ rf : RegFile, dev = .regFile rf ∧ rf.reg.wf = true ∧ regOf rf = g

/-- The registers after a masked update of `r` (40_register_access.md R103). -/
def updateReg (g : RegIdx → Byte) (r : RegIdx) (v m : Byte) : RegIdx → Byte := fun k => if k = r then merged (g r) v m else g k

@[simp] theorem updateReg_same (g : RegIdx → Byte) (r : RegIdx) (v m : Byte) : updateReg g r v m r = merged (g r) v m := if_pos rfl

theorem updateReg_of_ne (g : RegIdx → Byte) {r k : RegIdx} (h : k ≠ r) (v m : Byte) : updateReg g r v m k = g k := if_neg h

/-- Within its mask a masked update leaves the new value. -/
theorem merged_and_mask (old v m : Byte) : merged old v m &&& m = v &&& m := by
  unfold merged
  ext k hk
  cases hm : m[k] <;> simp [hm]

/-- Where ACC has the address `d8` and its device the registers `g`, that device answers `log` and then holds the registers `g'`. -/
def Serves (d8 : Byte) (g : RegIdx → Byte) (log : List Transaction) (g' : RegIdx → Byte) : Prop :=
  ∀ s : State, s.acc.dev8 = d8 → HasRegs g s.acc.device → ∃ dev, HasRegs g' dev ∧ Answers s .acc log dev s.draws

theorem answers_append_of {s : State} {i : InstanceId} {l l' : List Transaction} {d dev : Device} {m n : Nat} (h : Answers s i l d m)
    (h' : Answers (answered s i l d m) i l' dev n) : Answers s i (l ++ l') dev n := by
  unfold Answers at h h' ⊢
  rw [answersFrom_append, h]
  simpa using h'

section
variable {d8 : Byte} {g g' g'' : RegIdx → Byte} {l l' : List Transaction}

theorem serves_nil (g : RegIdx → Byte) : Serves d8 g [] g := fun s _ hg => ⟨s.acc.device, hg, answers_nil s .acc⟩

theorem serves_append (h : Serves d8 g l g') (h' : Serves d8 g' l' g'') : Serves d8 g (l ++ l') g'' := by
  intro s hd hg
  obtain ⟨dev, hg', ha⟩ := h s hd hg
  obtain ⟨dev', hg'', ha'⟩ := h' (answered s .acc l dev s.draws) hd hg'
  exact ⟨dev', hg'', answers_append_of ha ha'⟩

theorem keeps_updateRegMasked_answered {i : InstanceId} (r : RegIdx) (v m : Byte) : Keeps (Answered i) (updateRegMasked i r v m) :=
  (opClass_keeps Answered.refl Answered.trans keeps_transact_answered Answered.setCaches defaultParams).updateRegMasked r v m

theorem serves_readLog (g : RegIdx → Byte) (r : RegIdx) : Serves d8 g (readLog d8 (0#1 ++ r) [g r]) g := by
  rintro s rfl ⟨rf, hdev, hwf, rfl⟩
  exact ⟨_, ⟨rf.pointed r false, rfl, hwf, rfl⟩,
    answers_of_afterLog (keeps_memRead_answered _ 1) (memRead_single_regFile (i := .acc) hdev r 1)⟩

theorem serves_burst (g : RegIdx → Byte) (r : RegIdx) (n : Nat) :
    Serves d8 g (readLog d8 (1#1 ++ r) ((List.range n).map fun k => g (r + BitVec.ofNat 7 k))) g := by
  rintro s rfl ⟨rf, hdev, hwf, rfl⟩
  exact ⟨_, ⟨rf.pointed r true, rfl, hwf, rfl⟩,
    answers_of_afterLog (keeps_memRead_answered _ n) (readBurst_regFile (i := .acc) hdev r n)⟩

theorem serves_updateLog (g : RegIdx → Byte) (r : RegIdx) (v m : Byte) :
    Serves d8 g (updateLog d8 r (g r) (merged (g r) v m)) (updateReg g r v m) := by
  rintro s rfl ⟨rf, hdev, hwf, rfl⟩
  refine ⟨_, ⟨(rf.pointed r false).written r (merged (regOf rf r) v m), rfl, written_wf hwf r _, funext fun k => ?_⟩,
    answers_of_afterLog (keeps_updateRegMasked_answered r v m) (updateRegMasked_regFile (i := .acc) hdev r v m)⟩
  exact regOf_written (rf := rf.pointed r false) hwf r k _

/-! #### The logs of the sub-operations -/

/-- The drain changes no register, whether or not data is pending. -/
theorem exists_drainLog (m : RegMap) (d8 : Byte) (g : RegIdx → Byte) : ∃ log, DrainLog m d8 log ∧ Serves d8 g log g := by
  by_cases hst : g m.accStatus &&& m.accDrdyMask = 0#8
  · exact ⟨_, ⟨_, .inl ⟨hst, rfl⟩⟩, serves_readLog g _⟩
  · exact ⟨_, ⟨_, .inr ⟨hst, _, by simp, rfl⟩⟩, serves_append (serves_readLog g _) (serves_burst g _ 6)⟩

/-- The registers after `ACC_SET_ODR(c)` where `CTRL1` shows `cur` (41_accel_codec.md R113). -/
def setOdrRegs (m : RegMap) (g : RegIdx → Byte) (cur c : AccOdr) : RegIdx → Byte :=
  if cur = c then g
  else if c = .powerDown then updateReg g m.accCtrl1 0x00#8 m.accOdrMask
  else updateReg g m.accCtrl1 ((accOdrCode c &&& 0xF0#8) ||| m.accAxesMask) (m.accOdrMask ||| m.accAxesMask)

theorem exists_setOdrLog (m : RegMap) (d8 : Byte) {cur c : AccOdr} (hcur : accOdrOfCtrl1 (g m.accCtrl1) = some cur)
    (hv : cur = c ∨ odrValid c (powerModeRead m (g m.accCtrl1)) = true) :
    ∃ log, SetOdrLog m d8 c log ∧ Serves d8 g log (setOdrRegs m g cur c) := by
  have hread : Serves d8 g (readLog d8 (0#1 ++ m.accCtrl1) [g m.accCtrl1]) g := serves_readLog g _
  unfold setOdrRegs
  split_ifs with hsame hc
  · exact ⟨_, ⟨_, cur, hcur, .inl ⟨hsame, rfl⟩⟩, hread⟩
  · exact ⟨_, ⟨_, cur, hcur, .inr (.inl ⟨hsame, hc, _, rfl⟩)⟩, serves_append hread (serves_updateLog g _ _ _)⟩
  · obtain ⟨drain, hd, hserves⟩ : ∃ drain, (cur ≠ .powerDown ∧ drain = [] ∨ cur = .powerDown ∧ DrainLog m d8 drain) ∧
        Serves d8 g drain g := by
      by_cases hpd : cur = .powerDown
      · obtain ⟨drain, hd, hserves⟩ := exists_drainLog m d8 g
        exact ⟨drain, .inr ⟨hpd, hd⟩, hserves⟩
      · exact ⟨[], .inl ⟨hpd, rfl⟩, serves_nil g⟩
    exact ⟨_, ⟨_, cur, hcur, .inr (.inr ⟨hsame, hc, _, _, drain, hv.resolve_left hsame, hd, rfl⟩)⟩,
      serves_append (serves_append (serves_append hread hread) hserves) (serves_updateLog g _ _ _)⟩

end

/-! #### The registers that init leaves, with the default register map -/

/-- The registers after init's transactions up to the full scale. -/
def initFirstRegs (g : RegIdx → Byte) : RegIdx → Byte := fun k =>
  if k = 0x22#7 then g k &&& 0xEB#8 else if k = 0x24#7 then g k &&& 0x3F#8 else if k = 0x2E#7 then g k &&& 0x20#8 else g k

/-- The registers after init's transactions up to the rate. -/
def initMiddleRegs (g : RegIdx → Byte) : RegIdx → Byte := fun k =>
  if k = 0x20#7 then g k &&& 0xF7#8 else if k = 0x21#7 then g k &&& 0xF7#8 else if k = 0x22#7 then g k &&& 0xEB#8
  else if k = 0x23#7 then (g k &&& 0xC7#8) ||| 0x08#8 else if k = 0x24#7 then g k &&& 0x3F#8
  else if k = 0x2E#7 then g k &&& 0x20#8 else g k

section
variable {d8 : Byte} {g : RegIdx → Byte}

/-- Where no routing bit is set, the FIFO is disabled by its two updates alone. -/
theorem exists_fifoOffLog (d8 : Byte) (hq : g 0x22#7 &&& 0x14#8 = 0#8) : ∃ log, FifoModeLog defaultRegMap d8 .disabled log ∧
    Serves d8 g log (updateReg (updateReg g 0x24#7 0x00#8 0x40#8) 0x2E#7 0x00#8 0xC0#8) := by
  refine ⟨_, ⟨_, _, _, [], .inl ⟨?_, rfl⟩, rfl⟩, serves_append (serves_append (serves_append (serves_updateLog g _ _ _)
    (serves_updateLog _ _ _ _)) (serves_readLog _ _)) (serves_nil _)⟩
  exact hq

theorem merged_zero (x m : Byte) : merged x 0x00#8 m = x &&& ~~~m := by simp [merged]

/-- The updates up to the full scale, taken together. -/
theorem updates_eq_initFirstRegs (g : RegIdx → Byte) :
    updateReg (updateReg (updateReg (updateReg (updateReg (updateReg g 0x24#7 0x80#8 0x80#8) 0x24#7 0x00#8 0x80#8) 0x22#7 0x00#8 0x14#8)
      0x24#7 0x00#8 0x40#8) 0x2E#7 0x00#8 0xC0#8) 0x2E#7 0x00#8 0x1F#8 = initFirstRegs g := by
  have hboot : ∀ x : Byte, merged (merged (merged x 0x80#8 0x80#8) 0x00#8 0x80#8) 0x00#8 0x40#8 = x &&& 0x3F#8 := by decide
  have hfifo : ∀ x : Byte, merged (merged x 0x00#8 0xC0#8) 0x00#8 0x1F#8 = x &&& 0x20#8 := by decide
  funext k
  unfold initFirstRegs
  split_ifs with h22 h24 h2E
  · subst h22
    simp [updateReg, merged_zero]
  · subst h24
    simp [updateReg, hboot]
  · subst h2E
    simp [updateReg, hfifo]
  · simp only [updateReg, h22, h24, h2E, if_false]

/-- The updates from the full scale up to the rate, taken together. -/
theorem updates_eq_initMiddleRegs (g : RegIdx → Byte) :
    updateReg (updateReg (updateReg (updateReg (initFirstRegs g) 0x23#7 0x00#8 0x30#8) 0x21#7 0x00#8 0x08#8) 0x23#7 0x08#8 0x08#8)
      0x20#7 0x00#8 0x08#8 = initMiddleRegs g := by
  have hscale : ∀ x : Byte, merged (merged x 0x00#8 0x30#8) 0x08#8 0x08#8 = (x &&& 0xC7#8) ||| 0x08#8 := by decide
  funext k
  unfold initMiddleRegs
  split_ifs with h20 h21 h22 h23 h24 h2E
  · subst h20
    simp [updateReg, merged_zero, initFirstRegs]
  · subst h21
    simp [updateReg, merged_zero, initFirstRegs]
  · subst h22
    simp [updateReg, initFirstRegs]
  · subst h23
    simp [updateReg, hscale, initFirstRegs]
  · subst h24
    simp [updateReg, initFirstRegs]
  · subst h2E
    simp [updateReg, initFirstRegs]
  · simp only [updateReg, initFirstRegs, h20, h21, h22, h23, h24, h2E, if_false]

theorem exists_initFirstLog (d8 : Byte) (hid : g 0x0F#7 = 0x33#8) :
    ∃ log, AccInitFirstLog defaultRegMap d8 log ∧ Serves d8 g log (initFirstRegs g) := by
  have hread : Serves d8 g (readLog d8 (0#1 ++ 0x0F#7) [0x33#8]) g := hid ▸ serves_readLog g 0x0F#7
  obtain ⟨fifo, hfifo, hserves⟩ := exists_fifoOffLog d8
    (g := updateReg (updateReg (updateReg g 0x24#7 0x80#8 0x80#8) 0x24#7 0x00#8 0x80#8) 0x22#7 0x00#8 0x14#8)
    (by rw [updateReg_same, merged_and_mask]; rfl)
  have := serves_append (serves_append (serves_append (serves_append (serves_append hread (serves_updateLog g 0x24#7 0x80#8 0x80#8))
    (serves_updateLog _ 0x24#7 0x00#8 0x80#8)) (serves_updateLog _ 0x22#7 0x00#8 0x14#8)) hserves) (serves_updateLog _ 0x2E#7 0x00#8 0x1F#8)
  rw [updates_eq_initFirstRegs] at this
  exact ⟨_, ⟨_, _, _, _, fifo, hfifo, rfl⟩, this⟩

theorem exists_initMiddleLog (d8 : Byte) (hid : g 0x0F#7 = 0x33#8) :
    ∃ log, AccInitMiddleLog defaultRegMap d8 log ∧ Serves d8 g log (initMiddleRegs g) := by
  obtain ⟨first, hfirst, hserves⟩ := exists_initFirstLog d8 hid
  obtain ⟨drain, hdrain, hdserves⟩ := exists_drainLog defaultRegMap d8 (initMiddleRegs g)
  have := serves_append (serves_append (serves_append (serves_append hserves (serves_updateLog _ 0x23#7 0x00#8 0x30#8))
    (serves_updateLog _ 0x21#7 0x00#8 0x08#8)) (serves_updateLog _ 0x23#7 0x08#8 0x08#8)) (serves_updateLog _ 0x20#7 0x00#8 0x08#8)
  rw [updates_eq_initMiddleRegs] at this
  exact ⟨_, ⟨first, _, _, _, _, drain, hfirst, hdrain, rfl⟩, serves_append this hdserves⟩

end

/-! #### The rate that init leaves -/

/-- `CTRL1` after init, from the rate `cur` in `c1`, which holds normal mode. -/
def initRateByte (c1 : Byte) (cur target : AccOdr) : Byte :=
  if cur = target then c1
  else if target = .powerDown then c1 &&& 0x0F#8
  else (accOdrCode target &&& 0xF0#8) ||| 0x07#8

theorem accOdrOfCtrl1_field {r : Byte} {c : AccOdr} (h : accOdrOfCtrl1 r = some c) : r &&& 0xF0#8 = accOdrCode c &&& 0xF0#8 := by
  revert r c
  decide

/-- The readback shows the field of the target. -/
theorem initRateByte_field {c1 : Byte} {cur target : AccOdr} (hcur : accOdrOfCtrl1 c1 = some cur) :
    initRateByte c1 cur target &&& 0xF0#8 = accOdrCode target &&& 0xF0#8 := by
  have hcleared : ∀ x : Byte, x &&& 0x0F#8 &&& 0xF0#8 = 0x00#8 := by decide
  have hwritten : ∀ x : Byte, (x &&& 0xF0#8 ||| 0x07#8) &&& 0xF0#8 = x &&& 0xF0#8 := by decide
  unfold initRateByte
  split_ifs with hsame hpd
  · rw [accOdrOfCtrl1_field hcur, hsame]
  · rw [hcleared, hpd]
    rfl
  · exact hwritten _

/-- An update of the field and the axes, in normal mode, leaves nothing of the byte before. -/
theorem merged_rate (x v : Byte) :
    merged (x &&& 0xF7#8) ((v &&& 0xF0#8) ||| 0x07#8) (0xF0#8 ||| 0x07#8) = (v &&& 0xF0#8) ||| 0x07#8 := by
  have hkept : ∀ x : Byte, x &&& 0xF7#8 &&& ~~~(0xF0#8 ||| 0x07#8) = 0x00#8 := by decide
  have hwritten : ∀ v : Byte, ((v &&& 0xF0#8) ||| 0x07#8) &&& (0xF0#8 ||| 0x07#8) = (v &&& 0xF0#8) ||| 0x07#8 := by decide
  rw [merged, hkept, hwritten, BitVec.zero_or]

/-- The setter of the rate changes `CTRL1` alone. -/
theorem setOdrRegs_of_normal {g : RegIdx → Byte} {x : Byte} (hx : g 0x20#7 = x &&& 0xF7#8) (cur c : AccOdr) (k : RegIdx) :
    setOdrRegs defaultRegMap g cur c k = if k = 0x20#7 then initRateByte (x &&& 0xF7#8) cur c else g k := by
  unfold setOdrRegs initRateByte
  split_ifs with hsame hk hpd hk hk
  · rw [hk, hx]
  · rfl
  · exact (if_pos hk).trans (by rw [← hx]; exact merged_zero _ _)
  · exact if_neg ‹_›
  · exact (if_pos hk).trans (by rw [← merged_rate x, ← hx]; rfl)
  · exact if_neg ‹_›

theorem odrValid_powerDown (pm : PowerMode) : odrValid .powerDown pm = true := rfl

/-- The rate that init sets is valid in normal mode (92_eei_decisions.md D12). -/
theorem odrValid_initTarget {p : Params} (hp : paramsOk p = true) (start : Bool) : odrValid (initTarget p start) .normal = true := by
  cases start with
  | false => exact odrValid_powerDown _
  | true =>
    simp only [paramsOk, Bool.and_eq_true] at hp
    obtain ⟨⟨⟨⟨⟨-, -⟩, hvalid⟩, -⟩, -⟩, -⟩ := hp
    exact hvalid

/-- The rate that init sets is power-down exactly where it does not start the device (92_eei_decisions.md D12). -/
theorem initTarget_eq_powerDown_iff {p : Params} (hp : paramsOk p = true) (start : Bool) :
    initTarget p start = .powerDown ↔ start = false := by
  cases start with
  | false => exact iff_of_true rfl rfl
  | true =>
    simp only [paramsOk, Bool.and_eq_true] at hp
    obtain ⟨⟨⟨⟨⟨-, hactive⟩, -⟩, -⟩, -⟩, -⟩ := hp
    exact iff_of_false (by simpa [initTarget] using hactive) nofun

/-- `CTRL1` after init, by whether it starts the device. -/
theorem initRateByte_initTarget {p : Params} (hp : paramsOk p = true) (c1 : Byte) (cur : AccOdr) (start : Bool) :
    initRateByte c1 cur (initTarget p start) = if cur = initTarget p start then c1
      else if start then (accOdrCode (initTarget p start) &&& 0xF0#8) ||| 0x07#8 else c1 &&& 0x0F#8 := by
  simp only [initRateByte, initTarget_eq_powerDown_iff hp]
  cases start <;> rfl

/-- The registers that init leaves, from the rate `cur`. -/
def initRegs (p : Params) (g : RegIdx → Byte) (start : Bool) (cur : AccOdr) : RegIdx → Byte := fun k =>
  if k = 0x20#7 then initRateByte (g 0x20#7 &&& 0xF7#8) cur (initTarget p start) else initMiddleRegs g k

theorem powerModeRead_of_normal (x : Byte) : powerModeRead defaultRegMap (x &&& 0xF7#8) = .normal := by
  revert x
  decide

/-- With the right identity and a rate that decodes, the device answers a whole log of init. -/
theorem exists_initLog {p : Params} (d8 : Byte) {g : RegIdx → Byte} {cur : AccOdr} (hm : p.regMap = defaultRegMap)
    (hp : paramsOk p = true) (start : Bool) (hid : g 0x0F#7 = 0x33#8) (hcur : accOdrOfCtrl1 (g 0x20#7 &&& 0xF7#8) = some cur) :
    ∃ log, AccInitLog p d8 start (initRegs p g start cur 0x20#7) log ∧ Serves d8 g log (initRegs p g start cur) := by
  obtain ⟨middle, hmiddle, hserves⟩ := exists_initMiddleLog d8 hid
  have hvalid : odrValid (initTarget p start) (powerModeRead defaultRegMap (g 0x20#7 &&& 0xF7#8)) = true := by
    rw [powerModeRead_of_normal]
    exact odrValid_initTarget hp start
  obtain ⟨odr, hodr, hoserves⟩ := exists_setOdrLog defaultRegMap d8 (g := initMiddleRegs g) hcur (.inr hvalid)
  have hregs : setOdrRegs defaultRegMap (initMiddleRegs g) cur (initTarget p start) = initRegs p g start cur :=
    funext fun k => setOdrRegs_of_normal rfl cur _ k
  rw [hregs] at hoserves
  refine ⟨_, ⟨middle, odr, ?_, ?_, rfl⟩, serves_append (serves_append hserves hoserves) ?_⟩ <;> rw [hm]
  exacts [hmiddle, hodr, serves_readLog _ 0x20#7]

/-- Settles O42: on this device init's log is built beside the registers it leaves, and O43 says how init ends on such a log. -/
theorem accInitCompletes : Obligations.AccInitCompletes := by
  rintro s rf start cur ⟨ha, hdev, hwf⟩ hm hp hid c1 hcur target
  obtain ⟨log, hlog, hserves⟩ := exists_initLog s.acc.dev8 hm hp start hid hcur
  obtain ⟨dev, ⟨rf', rfl, hwf', hregs⟩, hanswers⟩ := hserves s rfl ⟨rf, hdev, hwf, rfl⟩
  obtain ⟨-, -, -, hwhole⟩ := accInitCommand s start (.regFile rf') s.draws ha
  have hseen : initRegs s.params (regOf rf) start cur 0x20#7 &&& s.params.regMap.accOdrMask =
      accOdrCode (initTarget s.params start) &&& 0xF0#8 := by
    rw [hm]
    exact initRateByte_field hcur
  refine ⟨rf', log, _, hwf', hlog, (hwhole _ log hlog hanswers).trans ?_, fun k => ?_⟩
  · rw [if_pos hseen]
  · rw [hregs, initRegs, initRateByte_initTarget hp]
    by_cases hk : k = 0x20#7
    · rw [if_pos hk, if_pos hk]
    · rw [if_neg hk, if_neg hk]
      exact if_neg hk

end Sys2Proof.Machine

/-! ### Setters and getters on the register-file device

SUPPORT. O58. `RunsOn` says how an operation ends on given registers and which registers it leaves; a getter then reads what its setter
left. -/

namespace Sys2Proof.Machine

/-! #### Operations on registers -/

/-- Where ACC has the address `d8` and its device the registers `g`, `op` answers the value of `e` or ends in its outcome, and leaves the
registers `g'`. -/
def RunsOn (d8 : Byte) (g : RegIdx → Byte) {α : Type} (op : Op α) (e : Except Status α) (g' : RegIdx → Byte) : Prop :=
  ∃ log, Ends .acc d8 log op e ∧ Serves d8 g log g'

section
variable {α β : Type} {d8 : Byte} {g g' g'' : RegIdx → Byte} {op : Op α} {f : α → Op β} {a : α}

theorem runsOn_pure (g : RegIdx → Byte) (a : α) : RunsOn d8 g (pure a) (.ok a) g := ⟨[], yields_pure a, serves_nil g⟩

theorem runsOn_raise (g : RegIdx → Byte) (o : Status) : RunsOn d8 g (raise o : Op α) (.error o) g :=
  ⟨[], endsIn_raise o, serves_nil g⟩

theorem runsOn_bind {e : Except Status β} (h : RunsOn d8 g op (.ok a) g') (h' : RunsOn d8 g' (f a) e g'') :
    RunsOn d8 g (op >>= f) e g'' := by
  obtain ⟨l, hl, hs⟩ := h
  obtain ⟨l', hl', hs'⟩ := h'
  exact ⟨l ++ l', ends_bind hl hl', serves_append hs hs'⟩

theorem runsOn_bind_error {o : Status} (h : RunsOn d8 g op (.error o) g') : RunsOn d8 g (op >>= f) (.error o) g' := by
  obtain ⟨l, hl, hs⟩ := h
  exact ⟨l, endsIn_bind_first hl, hs⟩

theorem runsOn_updateRegMasked (g : RegIdx → Byte) (r : RegIdx) (v m : Byte) :
    RunsOn d8 g (updateRegMasked .acc r v m) (.ok ()) (updateReg g r v m) :=
  ⟨_, yields_updateRegMasked r (g r) v m, serves_updateLog g r v m⟩

/-- An operation of one register read. -/
theorem runsOn_read (g : RegIdx → Byte) {r : RegIdx} {e : Except Status α}
    (h : Ends .acc d8 (readLog d8 (0#1 ++ r) [g r]) op e) : RunsOn d8 g op e g := ⟨_, h, serves_readLog g r⟩

end

/-! #### The operations of the codec -/

section
variable {d8 : Byte} {g : RegIdx → Byte} (p : Params)

theorem runsOn_accDrain (g : RegIdx → Byte) : RunsOn d8 g (accDrain p) (.ok ()) g := by
  obtain ⟨log, hl, hs⟩ := exists_drainLog p.regMap d8 g
  exact ⟨log, yields_accDrain p hl, hs⟩

theorem runsOn_accGetFifoMode (g : RegIdx → Byte) :
    RunsOn d8 g (accGetFifoMode p) (fifoModeRead p.regMap (g p.regMap.accCtrl5) (g p.regMap.accFifoCtrl)) g :=
  ⟨_, ends_accGetFifoMode p _ _, serves_append (serves_readLog g _) (serves_readLog g _)⟩

theorem runsOn_irqEnable_of_some {f : FifoMode} (h : fifoPair p.regMap (g p.regMap.accCtrl5) (g p.regMap.accFifoCtrl) = some f) :
    RunsOn d8 g (irqEnable p) (.ok ()) (updateReg g p.regMap.accCtrl3 (irqBit p.regMap f) (routeMask p.regMap)) := by
  have hmode := runsOn_accGetFifoMode (d8 := d8) p g
  rw [fifoModeRead, h] at hmode
  rw [irqEnable_eq]
  exact runsOn_bind (runsOn_accDrain p g) (runsOn_bind hmode (runsOn_updateRegMasked ..))

theorem runsOn_irqEnable_of_none (h : fifoPair p.regMap (g p.regMap.accCtrl5) (g p.regMap.accFifoCtrl) = none) :
    RunsOn d8 g (irqEnable p)
      (.error (.unreachableDecode p.regMap.accFifoCtrl (g p.regMap.accFifoCtrl &&& p.regMap.accFmMask))) g := by
  have hmode := runsOn_accGetFifoMode (d8 := d8) p g
  rw [fifoModeRead, h] at hmode
  rw [irqEnable_eq]
  exact runsOn_bind (runsOn_accDrain p g) (runsOn_bind_error hmode)

theorem runsOn_irqQuery (g : RegIdx → Byte) :
    RunsOn d8 g (irqQuery p) (.ok (g p.regMap.accCtrl3 &&& routeMask p.regMap != 0#8)) g := runsOn_read g (yields_irqQuery p _)

/-- The refresh changes no register but `CTRL3`, where the FIFO registers decode. -/
theorem runsOn_irqRefresh {f : FifoMode} (h : fifoPair p.regMap (g p.regMap.accCtrl5) (g p.regMap.accFifoCtrl) = some f) :
    ∃ g', RunsOn d8 g (irqRefresh p) (.ok ()) g' ∧ ∀ k, k ≠ p.regMap.accCtrl3 → g' k = g k := by
  have hquery := runsOn_irqQuery (d8 := d8) p g
  cases hq : g p.regMap.accCtrl3 &&& routeMask p.regMap != 0#8 with
  | false =>
    rw [hq] at hquery
    exact ⟨g, runsOn_bind hquery (runsOn_pure g ()), fun _ _ => rfl⟩
  | true =>
    rw [hq] at hquery
    exact ⟨_, runsOn_bind hquery (runsOn_irqEnable_of_some p h), fun k hk => updateReg_of_ne g hk _ _⟩

end

/-! #### A setter and then its getter -/

/-- On the registers `g` the setter ends in an outcome other than `OK`, or leaves registers on which the getter answers `a`. -/
def RoundTrips (d8 : Byte) (g : RegIdx → Byte) {α : Type} (setter : Op Unit) (getter : Op α) (a : α) : Prop :=
  (∃ o g', o ≠ .ok ∧ RunsOn d8 g setter (.error o) g') ∨ ∃ g', RunsOn d8 g setter (.ok ()) g' ∧ RunsOn d8 g' getter (.ok a) g'

section
variable {d8 : Byte} {g : RegIdx → Byte}

theorem roundTrips_of_error {α : Type} {setter : Op Unit} {getter : Op α} {a : α} {o : Status} {g' : RegIdx → Byte}
    (h : RunsOn d8 g setter (.error o) g') (ho : o ≠ .ok) : RoundTrips d8 g setter getter a := .inl ⟨o, g', ho, h⟩

section
variable {α : Type} {r : RegIdx} {v m : Byte} {getter : Op α} {value : Byte → α} {a : α}
  (hget : ∀ b, Yields .acc d8 (readLog d8 (0#1 ++ r) [b]) getter (value b)) (ha : ∀ old, value (merged old v m) = a)
include hget ha

/-- A getter of one read, after a masked update of the register it reads. -/
theorem runsOn_getter_updated (g : RegIdx → Byte) : RunsOn d8 (updateReg g r v m) getter (.ok a) (updateReg g r v m) := by
  refine runsOn_read (r := r) _ ?_
  rw [← ha (g r), updateReg_same]
  exact hget _

/-- A setter of one masked update, and a getter of one read of the same register. -/
theorem roundTrips_update : RoundTrips d8 g (updateRegMasked .acc r v m) getter a :=
  .inr ⟨_, runsOn_updateRegMasked g r v m, runsOn_getter_updated hget ha g⟩

end

/-- With the field written that `ACC_SET_ODR` writes, `CTRL1` decodes to the rate. -/
theorem accOdrOfCtrl1_setOdrRegs {cur c : AccOdr} (hcur : accOdrOfCtrl1 (g 0x20#7) = some cur)
    (hv : cur = c ∨ odrValid c (powerModeRead defaultRegMap (g 0x20#7)) = true) :
    accOdrOfCtrl1 (setOdrRegs defaultRegMap g cur c 0x20#7) = some c := by
  have hcleared : ∀ r : Byte, accOdrOfCtrl1 (merged r 0x00#8 0xF0#8) = some .powerDown := by decide
  have hwritten : ∀ r : Byte, odrValid c (powerModeRead defaultRegMap r) = true →
      accOdrOfCtrl1 (merged r ((accOdrCode c &&& 0xF0#8) ||| 0x07#8) (0xF0#8 ||| 0x07#8)) = some c := by
    cases c <;> decide
  unfold setOdrRegs
  split_ifs with hsame hpd
  · rw [hcur, hsame]
  · rw [hpd]
    exact hcleared _
  · exact hwritten _ (hv.resolve_left hsame)

/-- The registers after the two updates of `ACC_SET_FIFO_MODE` (41_accel_codec.md R126). -/
def fifoRegs (m : RegMap) (g : RegIdx → Byte) (f : FifoMode) : RegIdx → Byte :=
  updateReg (updateReg g m.accCtrl5 (if f = .stream then m.accFifoEnMask else 0x00#8) m.accFifoEnMask) m.accFifoCtrl
    (if f = .stream then m.accFmStream else m.accFmBypass) m.accFmMask

variable {p : Params} (hp : p.regMap = defaultRegMap)
include hp

theorem roundTrips_accSetOdr (c : AccOdr) : RoundTrips d8 g (accSetOdr p c) (accGetOdr p) c := by
  cases hcur : accOdrOfCtrl1 (g p.regMap.accCtrl1) with
  | none => exact roundTrips_of_error (runsOn_read (e := .error _) g (endsIn_accSetOdr_undecodable p hcur c)) nofun
  | some cur =>
    by_cases hv : cur = c ∨ odrValid c (powerModeRead p.regMap (g p.regMap.accCtrl1)) = true
    · obtain ⟨log, hlog, hserves⟩ := exists_setOdrLog p.regMap d8 hcur hv
      refine .inr ⟨_, ⟨log, yields_accSetOdr p hlog, hserves⟩, runsOn_read _ (yields_accGetOdr p ?_)⟩
      rw [hp] at hcur hv ⊢
      exact accOdrOfCtrl1_setOdrRegs hcur hv
    · obtain ⟨hne, hinvalid⟩ := not_or.mp hv
      have hpd : c ≠ .powerDown := by
        rintro rfl
        exact hinvalid (odrValid_powerDown _)
      exact roundTrips_of_error ⟨_, endsIn_accSetOdr_invalid p hcur hne hpd (Bool.eq_false_iff.mpr hinvalid),
        serves_append (serves_readLog g _) (serves_readLog g _)⟩ nofun

theorem roundTrips_accSetPowerMode (pm : PowerMode) : RoundTrips d8 g (accSetPowerMode p pm) (accGetPowerMode p) pm := by
  refine roundTrips_update (yields_accGetPowerMode p) fun old => ?_
  rw [powerModeRead, merged_and_mask, hp]
  cases pm <;> rfl

theorem roundTrips_accSetHighRes (e : Bool) : RoundTrips d8 g (accSetHighRes p e) (accGetHighRes p) e := by
  refine roundTrips_update (yields_accGetHighRes p) fun old => ?_
  rw [merged_and_mask, hp]
  cases e <;> rfl

theorem roundTrips_accSetHpfMode (h : HpfMode) : RoundTrips d8 g (accSetHpfMode p h) (accGetHpfMode p) h := by
  cases h with
  | off =>
    refine roundTrips_update (yields_accGetHpfMode p) fun old => if_pos ?_
    rw [merged_and_mask, hp]
    rfl
  | cutoff c =>
    have hpreset : ∀ (c : BitVec 2) (old : Byte), merged old (0x08#8 ||| (c.setWidth 8 <<< 4)) (0x08#8 ||| 0x30#8) &&& 0x08#8 ≠ 0#8 ∧
        hpcfField (merged old (0x08#8 ||| (c.setWidth 8 <<< 4)) (0x08#8 ||| 0x30#8)) = c := by decide
    refine roundTrips_update (yields_accGetHpfMode p) fun old => ?_
    obtain ⟨hon, hfield⟩ := hpreset c old
    rw [hp]
    exact (if_neg hon).trans (congrArg _ hfield)

theorem roundTrips_accSetFifoWatermark (w : Byte) : RoundTrips d8 g (accSetFifoWatermark p w) (accGetFifoWatermark p) w := by
  by_cases hw : w.toNat ≤ 31
  · have hfits : ∀ w : Byte, w.toNat ≤ 31 → w &&& 0x1F#8 = w := by decide
    rw [accSetFifoWatermark_of_le hw]
    refine roundTrips_update (yields_accGetFifoWatermark p) fun old => ?_
    rw [merged_and_mask, hp]
    exact hfits w hw
  · rw [accSetFifoWatermark_of_gt (Nat.lt_of_not_le hw)]
    exact roundTrips_of_error (runsOn_raise g _) nofun

/-- The two updates of the FIFO mode leave fields that decode to it. -/
theorem fifoPair_fifoRegs (g : RegIdx → Byte) (f : FifoMode) : fifoPair p.regMap (fifoRegs p.regMap g f p.regMap.accCtrl5)
    (fifoRegs p.regMap g f p.regMap.accFifoCtrl) = some f := by
  have hne : p.regMap.accCtrl5 ≠ p.regMap.accFifoCtrl := by
    rw [hp]
    decide
  rw [fifoRegs, updateReg_of_ne _ hne, updateReg_same, updateReg_same, fifoPair, merged_and_mask, merged_and_mask, hp]
  cases f <;> rfl

theorem roundTrips_accSetFifoMode (f : FifoMode) : RoundTrips d8 g (accSetFifoMode p f) (accGetFifoMode p) f := by
  have hne : p.regMap.accCtrl5 ≠ p.regMap.accCtrl3 ∧ p.regMap.accFifoCtrl ≠ p.regMap.accCtrl3 := by
    rw [hp]
    decide
  obtain ⟨g', hrefresh, hkept⟩ := runsOn_irqRefresh (d8 := d8) p (fifoPair_fifoRegs hp g f)
  have hmode := runsOn_accGetFifoMode (d8 := d8) p g'
  rw [hkept _ hne.1, hkept _ hne.2, fifoModeRead, fifoPair_fifoRegs hp] at hmode
  exact .inr ⟨g', runsOn_bind (runsOn_updateRegMasked ..) (runsOn_bind (runsOn_updateRegMasked ..) hrefresh), hmode⟩

theorem roundTrips_accSetDrdyInt (e : Bool) : RoundTrips d8 g (accSetDrdyInt p e) (irqQuery p) e := by
  cases e with
  | false =>
    refine roundTrips_update (yields_irqQuery p) fun old => ?_
    rw [merged_and_mask, hp]
    rfl
  | true =>
    cases hf : fifoPair p.regMap (g p.regMap.accCtrl5) (g p.regMap.accFifoCtrl) with
    | none => exact roundTrips_of_error (runsOn_irqEnable_of_none p hf) nofun
    | some f =>
      refine .inr ⟨_, runsOn_irqEnable_of_some p hf, ?_⟩
      have hquery := runsOn_irqQuery (d8 := d8) p (updateReg g p.regMap.accCtrl3 (irqBit p.regMap f) (routeMask p.regMap))
      rw [updateReg_same, merged_and_mask] at hquery
      have hbit : (irqBit p.regMap f &&& routeMask p.regMap != 0#8) = true := by
        rw [hp]
        cases f <;> rfl
      rwa [hbit] at hquery

end

/-! #### The commands -/

section
variable {c gc : Instr} {s t : State} {g g' : RegIdx → Byte} {α : Type} {f : α → ResultData} {a : α}

theorem getter_returns {getter : Op α} (ha : accepts t .acc = true) (hg : HasRegs g t.acc.device)
    (hc : exec gc t = runCommand .acc (getter >>= fun a => pure (some (f a))) t) (h : RunsOn t.acc.dev8 g getter (.ok a) g') :
    ∃ u, exec gc t = .next u ∧ u.acc.status = some .ok ∧ u.acc.result = some (f a) := by
  obtain ⟨log, hl, hs⟩ := h
  obtain ⟨dev, -, hanswers⟩ := hs t rfl hg
  exact ⟨_, hc.trans (runCommand_yields ha (yields_map _ hl) hanswers), rfl, rfl⟩

/-- A setter that ended with `OK` left the registers on which its getter returns the setter's argument. -/
theorem exec_roundTrips {setter : Op Unit} {getter : Params → Op α} (ha : accepts s .acc = true) (hg : HasRegs g s.acc.device)
    (hc : exec c s = runCommand .acc (setter >>= fun _ => pure none) s)
    (hgc : ∀ t, exec gc t = runCommand .acc (getter t.params >>= fun a => pure (some (f a))) t)
    (h : RoundTrips s.acc.dev8 g setter (getter s.params) a) (hexec : exec c s = .next t) (hok : t.acc.status = some .ok) :
    ∃ u, exec gc t = .next u ∧ u.acc.status = some .ok ∧ u.acc.result = some (f a) := by
  rw [hc] at hexec
  obtain ⟨o, g', ho, log, hl, hs⟩ | ⟨g', ⟨log, hl, hs⟩, hget⟩ := h
  · obtain ⟨dev, -, hanswers⟩ := hs s rfl hg
    rw [runCommand_setter_outcome ha hl hanswers] at hexec
    cases hexec
    exact absurd (Option.some.inj hok) ho
  · obtain ⟨dev, hg', hanswers⟩ := hs s rfl hg
    rw [runCommand_setter ha hl hanswers] at hexec
    cases hexec
    exact getter_returns ha hg' (hgc _) hget

end

theorem accFsOfField_merged (fs : AccFs) (old : Byte) : accFsOfField (merged old (accFsCode fs <<< 4) 0x30#8 &&& 0x30#8) = fs := by
  rw [merged_and_mask]
  cases fs <;> rfl

/-- The full scale, whose setter also writes the cache (O36). -/
theorem accFullScale_roundTrips {s t : State} {rf : RegFile} {fs : AccFs} (hreg : OnRegFile s .acc rf)
    (hm : s.params.regMap = defaultRegMap) (hexec : exec (.accSetFullScale fs) s = .next t) :
    ∃ u, exec .accGetFullScale t = .next u ∧ u.acc.status = some .ok ∧ u.acc.result = some (.code (accFsCode fs)) := by
  obtain ⟨ha, hdev, hwf⟩ := hreg
  obtain ⟨-, hdone, -, -⟩ := accSetFullScaleCommand s fs ha
  obtain ⟨dev, hg', hanswers⟩ := serves_updateLog (regOf rf) s.params.regMap.accCtrl4 (accFsCode fs <<< 4) s.params.regMap.accFsMask
    s rfl ⟨rf, hdev, hwf, rfl⟩
  rw [hdone _ dev s.draws hanswers] at hexec
  cases hexec
  refine getter_returns (f := fun fs => .code (accFsCode fs)) ha hg' rfl
    (runsOn_getter_updated (yields_accGetFullScale s.params) (fun old => ?_) (regOf rf))
  rw [hm]
  exact accFsOfField_merged fs old

/-- Settles O58: each setter leaves registers on which its getter answers the setter's argument, or does not end with `OK`. -/
theorem accRoundTrip : Obligations.AccRoundTrip := by
  intro c gc d s rf t htarget hget hreg hm hexec hok
  have ha := hreg.accepting
  have hg : HasRegs (regOf rf) s.acc.device := ⟨rf, hreg.device, hreg.canonical, rfl⟩
  cases c with
  | accSetOdr c =>
    cases hget
    exact exec_roundTrips (f := fun c => .code (accOdrCode c)) ha hg rfl (fun _ => rfl) (roundTrips_accSetOdr hm c) hexec hok
  | accSetPowerMode pm =>
    cases hget
    exact exec_roundTrips (f := fun pm => .code (powerModeCode pm)) ha hg rfl (fun _ => rfl) (roundTrips_accSetPowerMode hm pm) hexec hok
  | accSetFullScale fs =>
    cases hget
    exact accFullScale_roundTrips hreg hm hexec
  | accSetHighRes e =>
    cases hget
    exact exec_roundTrips (f := .bool) ha hg rfl (fun _ => rfl) (roundTrips_accSetHighRes hm e) hexec hok
  | accSetHpfMode h =>
    cases hget
    exact exec_roundTrips (f := fun h => .code (hpfCode h)) ha hg rfl (fun _ => rfl) (roundTrips_accSetHpfMode hm h) hexec hok
  | accSetFifoMode f =>
    cases hget
    exact exec_roundTrips (f := fun f => .code (fifoModeCode f)) ha hg rfl (fun _ => rfl) (roundTrips_accSetFifoMode hm f) hexec hok
  | accSetFifoWatermark w =>
    cases hget
    exact exec_roundTrips (f := .byte) ha hg rfl (fun _ => rfl) (roundTrips_accSetFifoWatermark hm w) hexec hok
  | accSetDrdyInt e =>
    cases hget
    exact exec_roundTrips (f := .bool) ha hg rfl (fun _ => rfl) (roundTrips_accSetDrdyInt hm e) hexec hok
  | magSetMode | magSetOdr | magSetFullScale | magSetTempEn => cases htarget
  | _ => cases hget

end Sys2Proof.Machine

/-! ### The magnetometer codec

SUPPORT. O44 to O47 and O59: what each sub-operation of 42_mag_codec.md answers once its device answers a log. The full-scale setter is the
only operation of the magnetometer that writes the caches: `EndsScaled` says what `Ends` says, and what both caches hold afterwards. -/

namespace Sys2Proof.Machine

/-! #### The getters -/

section
variable {d8 : Byte} (p : Params)

theorem yields_magGetMode (r : Byte) :
    Yields .mag d8 (readLog d8 (0#1 ++ p.regMap.magMr) [r]) (magGetMode p) (r &&& 0x02#8 == 0#8) :=
  yields_map _ (yields_readRegMasked _ r _)

theorem yields_magGetOdr (r : Byte) : Yields .mag d8 (readLog d8 (0#1 ++ p.regMap.magCra) [r]) (magGetOdr p)
    (magOdrOfField (r &&& p.regMap.magDoMask)) :=
  yields_map _ (yields_readRegMasked _ r _)

theorem yields_magGetTempEn (r : Byte) : Yields .mag d8 (readLog d8 (0#1 ++ p.regMap.magCra) [r]) (magGetTempEn p)
    (r &&& p.regMap.magTempEnMask != 0#8) :=
  yields_map _ (yields_readRegMasked _ r _)

/-- What `MAG_GET_FULL_SCALE` makes of `CRB` (42_mag_codec.md R156). -/
def magFsRead (m : RegMap) (r : Byte) : Except Status MagFs :=
  match magFsOfField (r &&& m.magGnMask) with
  | some g => .ok g
  | none => .error (.unreachableDecode m.magCrb (r &&& m.magGnMask))

theorem ends_magGetFullScale (r : Byte) : Ends .mag d8 (readLog d8 (0#1 ++ p.regMap.magCrb) [r]) (magGetFullScale p)
    (magFsRead p.regMap r) := by
  refine ends_bind_nil (yields_readRegMasked _ r _) ?_
  unfold magFsRead
  cases magFsOfField (r &&& p.regMap.magGnMask) with
  | some g => exact yields_pure g
  | none => exact endsIn_raise _

end

/-- The code of a full scale is the field it is read from; a field of 0 is none (30_encoding.md R80, R81). -/
theorem magFsCode_magFsOfField (b : Byte) : (magFsOfField b).map magFsCode =
    if b.extractLsb' 5 3 = 0#3 then none else some ((b.extractLsb' 5 3).setWidth 8) := by
  unfold magFsOfField
  generalize b.extractLsb' 5 3 = f
  revert f
  decide

/-- What the full-scale getter returns for `CRB`, by its field alone. -/
theorem magFsRead_map_code (m : RegMap) (r : Byte) : ((magFsRead m r).map fun g => some (ResultData.code (magFsCode g))) =
    if (r &&& m.magGnMask).extractLsb' 5 3 = 0#3 then .error (.unreachableDecode m.magCrb (r &&& m.magGnMask))
    else .ok (some (.code (((r &&& m.magGnMask).extractLsb' 5 3).setWidth 8))) := by
  have hcode := magFsCode_magFsOfField (r &&& m.magGnMask)
  unfold magFsRead
  cases hfield : magFsOfField (r &&& m.magGnMask) with
  | none =>
    rw [hfield, Option.map_none] at hcode
    split_ifs at hcode ⊢
    rfl
  | some g =>
    rw [hfield, Option.map_some] at hcode
    split_ifs at hcode ⊢
    rw [← Option.some.inj hcode]
    rfl

/-- The mode code, which the getter reads from one bit of `MR` (42_mag_codec.md R152). -/
theorem boolCode_beq_zero (b : Byte) : boolCode (b == 0#8) = if b = 0#8 then 1#8 else 0#8 := by
  by_cases h : b = 0#8
  · rw [h]
    rfl
  · rw [if_neg h, beq_eq_false_iff_ne.mpr h]
    rfl

/-- Settles O44: each command is one masked register read, whose byte its getter decodes. -/
theorem magFieldGetters : Obligations.MagFieldGetters := by
  intro s ha m
  have hmasked (r : RegIdx) (v : Byte) {β : Type} (f : Byte → Op β) :
      BeginsWithRead .mag (0#1 ++ r) 1 (readRegMasked .mag r v >>= f) := (beginsWithRead_readRegMasked r v).bind f
  refine ⟨⟨rfl, rfl, rfl, rfl, rfl⟩, ?_, ?_, ?_, ?_, ?_⟩
  · refine endsAfterByte_of_getter (g := fun r => .ok _) ha rfl (hmasked ..) (yields_magGetMode s.params) fun r => ?_
    rw [← boolCode_beq_zero]
    rfl
  · exact endsAfterByte_of_getter (g := fun r => .ok _) ha rfl (hmasked ..) (yields_magGetOdr s.params) fun _ => rfl
  · exact endsAfterByte_of_getter ha rfl (hmasked ..) (ends_magGetFullScale s.params) fun r => (magFsRead_map_code m r).symm
  · refine endsAfterByte_of_getter (g := fun r => .ok _) ha rfl (hmasked ..) (yields_magGetTempEn s.params) fun r => ?_
    rw [decide_not, ← Bool.beq_eq_decide_eq]
    rfl
  · exact endsAfterByte_of_getter (g := fun r => .ok _) ha rfl (hmasked ..) (yields_magGetOdr s.params) fun _ => rfl

/-! #### The setters of one field -/

/-- Settles O45: each command is one masked update. -/
theorem magFieldSetters : Obligations.MagFieldSetters := by
  intro s e d ha m
  exact ⟨⟨rfl, rfl, rfl⟩, endsAfterUpdate_of_exec ha rfl, endsAfterUpdate_of_exec ha rfl, endsAfterUpdate_of_exec ha rfl,
    endsAfterUpdate_of_exec ha rfl⟩

/-! #### Operations that store the caches -/

/-- `s` with both magnetometer caches replaced (10_state.md R23). -/
def withSensMag (v : Option (FloatVal × FloatVal)) (s : State) : State :=
  { s with sensMagXY := v.map Prod.fst, sensMagZ := v.map Prod.snd }

/-- From any state of MAG with the address `d8` whose device answers `log`, `op` answers the value of `e` or ends in its outcome, and has
done that, left the pair `v` in both caches, or left both UNSET, and no more. -/
def EndsScaled (d8 : Byte) (log : List Transaction) (v : Option (FloatVal × FloatVal)) {α : Type} (op : Op α) (e : Except Status α) :
    Prop :=
  ∀ s dev k, s.mag.dev8 = d8 → Answers s .mag log dev k → op s = resultOf e (withSensMag v (answered s .mag log dev k))

section
variable {α β : Type} {d8 : Byte} {l l' : List Transaction} {v : Option (FloatVal × FloatVal)} {op : Op α} {f : α → Op β}

theorem endsScaled_bind_of_yields {a : α} {e : Except Status β} (h : Yields .mag d8 l op a) (h' : EndsScaled d8 l' v (f a) e) :
    EndsScaled d8 (l ++ l') v (op >>= f) e := by
  intro s dev k hd hl
  obtain ⟨d, n, ha, hb⟩ := answers_append hl
  rw [op_bind_ok (h s d n hd ha), h' (answered s .mag l d n) dev k hd hb, answered_answered]

/-- Operations that leave the caches alone keep what was stored before them. -/
theorem endsScaled_bind_of_ends {a : α} {e : Except Status β} (h : EndsScaled d8 l v op (.ok a)) (h' : Ends .mag d8 l' (f a) e) :
    EndsScaled d8 (l ++ l') v (op >>= f) e := by
  intro s dev k hd hl
  obtain ⟨d, n, ha, hb⟩ := answers_append hl
  rw [op_bind_ok (h s d n hd ha), ends_iff.mp h' (withSensMag v (answered s .mag l d n)) dev k hd hb, ← answered_answered]
  rfl

theorem endsScaled_bind_error {o : Status} (h : EndsScaled d8 l v op (.error o)) : EndsScaled d8 l v (op >>= f) (.error o) := by
  intro s dev k hd hl
  rw [op_bind_error (h s dev k hd hl)]
  rfl

/-- A setter whose operation stores the caches. -/
theorem runCommand_endsScaled {s : State} {op : Op Unit} {e : Except Status Unit} {dev : Device} {k : Nat}
    (ha : accepts s .mag = true) (h : EndsScaled s.mag.dev8 l v op e) (hl : Answers s .mag l dev k) :
    runCommand .mag (op >>= fun _ => pure none) s = .next (withSensMag v (ended s .mag (e.map fun _ => none) l dev k)) := by
  rw [runCommand_of_accepts ha, op_bind, h s dev k rfl hl]
  cases e <;> rfl

end

/-! #### The full scale -/

section
variable {d8 : Byte} (p : Params) (g : MagFs)

theorem endsScaled_magSetFullScale (old : Byte) :
    EndsScaled d8 (updateLog d8 p.regMap.magCrb old (merged old (magFsCode g <<< 5) p.regMap.magGnMask))
      (some (magSens p.floatFmt p.magGains g)) (magSetFullScale p g) (.ok ()) := by
  intro s dev k hd hl
  exact op_bind_ok (yields_updateRegMaskedElse _ old _ _ unsetSensMag s dev k hd hl)

theorem endsScaled_magSetFullScale_write_err (old : Byte) :
    EndsScaled d8 (failedUpdateLog d8 p.regMap.magCrb old (merged old (magFsCode g <<< 5) p.regMap.magGnMask) .err)
      none (magSetFullScale p g) (.error (.busError .write (0#1 ++ p.regMap.magCrb))) := by
  intro s dev k hd hl
  subst hd
  exact op_bind_error (updateRegMaskedElse_write_not_ok (f := unsetSensMag) (st := .err) nofun hl)

end

/-- Settles O46: both caches are stored after a completed update and made UNSET after a failed write; the read before does not touch
them. -/
theorem magSetFullScaleCommand : Obligations.MagSetFullScaleCommand := by
  intro s g ha
  refine ⟨rfl, fun old dev k h => ?_, ?_, fun old dev k h => ?_⟩
  · exact runCommand_endsScaled ha (endsScaled_magSetFullScale s.params g old) h
  · exact readFails_of_beginsWithRead ha rfl (((beginsWithRead_updateRegMaskedElse ..).bind _).bind _)
  · exact runCommand_endsScaled ha (endsScaled_magSetFullScale_write_err s.params g old) h

/-! #### The init -/

section
variable {d8 : Byte} (p : Params)

theorem yields_magSetMode (start : Bool) (old : Byte) :
    Yields .mag d8 (updateLog d8 p.regMap.magMr old (merged old (if start then 0x00#8 else p.magSleepPattern) p.regMap.magMdMask))
      (magSetMode p start) () := by
  cases start <;> exact yields_updateRegMasked _ old _ _

/-- The transactions of the identification registers, each read as wanted. -/
def idsLog (d8 : Byte) (ids : List (RegIdx × Byte)) : List Transaction := ids.flatMap fun id => readLog d8 (0#1 ++ id.1) [id.2]

/-- Identification registers that hold what is wanted leave the check to those after them. -/
theorem ends_magCheckIds_append {log : List Transaction} {rest : List (RegIdx × Byte)} {e : Except Status Unit}
    (h : Ends .mag d8 log (magCheckIds rest) e) (ids : List (RegIdx × Byte)) :
    Ends .mag d8 (idsLog d8 ids ++ log) (magCheckIds (ids ++ rest)) e := by
  induction ids with
  | nil => exact h
  | cons id ids ih =>
    rw [idsLog, List.flatMap_cons, List.append_assoc]
    refine ends_bind (yields_readReg id.1 id.2) ?_
    rw [if_neg (not_not.mpr rfl)]
    exact ih

theorem yields_magCheckIds (ids : List (RegIdx × Byte)) : Yields .mag d8 (idsLog d8 ids) (magCheckIds ids) () := by
  have h := ends_magCheckIds_append (d8 := d8) (rest := []) (e := .ok ()) (yields_pure ()) ids
  rwa [List.append_nil, List.append_nil] at h

/-- The check stops at the first register that differs. -/
theorem endsIn_magCheckIds {r : RegIdx} {want b : Byte} (hb : b ≠ want) (ids rest : List (RegIdx × Byte)) :
    EndsIn .mag d8 (idsLog d8 ids ++ readLog d8 (0#1 ++ r) [b]) (magCheckIds (ids ++ (r, want) :: rest))
      (.outcome (.initFailed .idMismatch r b)) := by
  refine ends_magCheckIds_append (e := .error _) (ends_bind_nil (e := .error _) (yields_readReg r b) ?_) ids
  rw [if_pos hb]
  exact endsIn_raise _

/-- Init stops at the first identification register that differs. -/
theorem endsIn_magInit_identity {r : RegIdx} {want b : Byte} (hb : b ≠ want) {ids rest : List (RegIdx × Byte)}
    (hids : magIds p.regMap = ids ++ (r, want) :: rest) (start : Bool) :
    EndsIn .mag d8 (idsLog d8 ids ++ readLog d8 (0#1 ++ r) [b]) (magInit p start) (.outcome (.initFailed .idMismatch r b)) := by
  refine endsIn_bind_first ?_
  rw [hids]
  exact endsIn_magCheckIds hb ids rest

/-- The transactions of `MAG_INIT` up to the range (42_mag_codec.md R150): the identity, the temperature enable and the rate. -/
def magInitFirstLog (d8 o1 o2 : Byte) : List Transaction :=
  idsLog d8 (magIds p.regMap) ++ updateLog d8 p.regMap.magCra o1 (merged o1 0x80#8 p.regMap.magTempEnMask) ++
    updateLog d8 p.regMap.magCra o2 (merged o2 (magOdrCode (magOdr15Hz p.floatFmt p.magOdrHz) <<< 2) p.regMap.magDoMask)

/-- After the transactions up to the range, init ends as the range and the mode end. -/
theorem endsScaled_magInit_of_rest {l : List Transaction} {v : Option (FloatVal × FloatVal)} {start : Bool} {e : Except Status Unit}
    (o1 o2 : Byte) (h : EndsScaled d8 l v (magSetFullScale p .g13 >>= fun _ => magSetMode p start) e) :
    EndsScaled d8 (magInitFirstLog p d8 o1 o2 ++ l) v (magInit p start) e := by
  unfold magInitFirstLog
  rw [List.append_assoc, List.append_assoc]
  exact endsScaled_bind_of_yields (yields_magCheckIds _) (endsScaled_bind_of_yields (yields_updateRegMasked _ o1 _ _)
    (endsScaled_bind_of_yields (yields_updateRegMasked _ o2 _ _) h))

theorem endsScaled_magInit (o1 o2 o3 o4 : Byte) (start : Bool) :
    EndsScaled d8 (magInitFirstLog p d8 o1 o2 ++ (updateLog d8 p.regMap.magCrb o3 (merged o3 0x20#8 p.regMap.magGnMask) ++
      updateLog d8 p.regMap.magMr o4 (merged o4 (if start then 0x00#8 else p.magSleepPattern) p.regMap.magMdMask)))
      (some (magSens p.floatFmt p.magGains .g13)) (magInit p start) (.ok ()) :=
  endsScaled_magInit_of_rest p o1 o2 (endsScaled_bind_of_ends (endsScaled_magSetFullScale p .g13 o3) (yields_magSetMode p start o4))

theorem endsScaled_magInit_fullScale_err (o1 o2 o3 : Byte) (start : Bool) :
    EndsScaled d8 (magInitFirstLog p d8 o1 o2 ++ failedUpdateLog d8 p.regMap.magCrb o3 (merged o3 0x20#8 p.regMap.magGnMask) .err) none
      (magInit p start) (.error (.busError .write (0#1 ++ p.regMap.magCrb))) :=
  endsScaled_magInit_of_rest p o1 o2 (endsScaled_bind_error (endsScaled_magSetFullScale_write_err p .g13 o3))

end

/-- Settles O47: init ends at the identification register or at the write of the range that stops it, or with `OK`. -/
theorem magInitCommand : Obligations.MagInitCommand := by
  intro s start o1 o2 o3 o4 b dev k ha m d8 id1 id2 id3 first unscaled log
  have hfirst : first = magInitFirstLog s.params d8 o1 o2 := rfl
  refine ⟨fun h => ?_, fun h => ?_, fun hb h => ?_, fun hb h => ?_, fun hb h => ?_⟩
  · have hlog : log = _ := List.append_assoc first _ _
    rw [hlog, hfirst] at h ⊢
    exact runCommand_endsScaled ha (endsScaled_magInit s.params o1 o2 o3 o4 start) h
  · exact runCommand_endsScaled ha (endsScaled_magInit_fullScale_err s.params o1 o2 o3 start) h
  · exact runCommand_setter_outcome ha (endsIn_magInit_identity s.params hb (ids := []) rfl start) h
  · exact runCommand_setter_outcome ha (endsIn_magInit_identity s.params hb (ids := [(m.magIra, 0x48#8)]) rfl start) h
  · exact runCommand_setter_outcome ha
      (endsIn_magInit_identity s.params hb (ids := [(m.magIra, 0x48#8), (m.magIrb, 0x34#8)]) rfl start) h

end Sys2Proof.Machine

/-! ### The magnetometer on the register-file device

SUPPORT. O59. Each setter is one masked update and each getter one read of the same register, so a getter reads the field that its setter
wrote. -/

namespace Sys2Proof.Machine

/-! #### A setter and then its getter -/

section
variable {s : State} {i : InstanceId} {rf : RegFile}

theorem answers_readLog_regFile (h : (s.block i).device = .regFile rf) (r : RegIdx) :
    Answers s i (readLog (s.block i).dev8 (0#1 ++ r) [regOf rf r]) (.regFile (rf.pointed r false)) s.draws :=
  answers_of_afterLog (keeps_memRead_answered _ 1) (memRead_single_regFile h r 1)

theorem answers_updateLog_regFile (h : (s.block i).device = .regFile rf) (r : RegIdx) (v m : Byte) :
    Answers s i (updateLog (s.block i).dev8 r (regOf rf r) (merged (regOf rf r) v m))
      (.regFile ((rf.pointed r false).written r (merged (regOf rf r) v m))) s.draws :=
  answers_of_afterLog (keeps_updateRegMasked_answered r v m) (updateRegMasked_regFile h r v m)

end

/-- A setter of one masked update ends with `OK`, and a getter of one read of the same register then returns what it makes of the new
byte. -/
theorem exec_magSetter_then_getter {c gc : Instr} {s : State} {rf : RegFile} {r : RegIdx} {v m : Byte} {done failed : State → State}
    {α : Type} {getter : Params → Op α} {f : α → ResultData} {a : α} (hreg : OnRegFile s .mag rf) (hc : c.target = .mag)
    (hset : EndsAfterUpdate c s r v m done failed) (hmag : ∀ t, (done t).mag = t.mag) (hparams : ∀ t, (done t).params = t.params)
    (hgc : ∀ t, exec gc t = runCommand .mag (getter t.params >>= fun a => pure (some (f a))) t)
    (hget : ∀ old, Yields .mag s.mag.dev8 (readLog s.mag.dev8 (0#1 ++ r) [merged old v m]) (getter s.params) a) :
    ∃ t u, exec c s = .next t ∧ t.mag.status = some .ok ∧ exec gc t = .next u ∧ u.mag.status = some .ok ∧
      u.mag.result = some (f a) := by
  obtain ⟨ha, hdev, hwf⟩ := hreg
  obtain ⟨hset, -, -⟩ := hset
  rw [hc] at hset
  have hexec := hset _ _ _ (answers_updateLog_regFile hdev r v m)
  generalize ht : done _ = t at hexec
  have hblock : t.mag = _ := ht ▸ hmag _
  have hp : t.params = s.params := ht ▸ hparams _
  have hd : t.mag.dev8 = s.mag.dev8 := by
    rw [hblock]
    rfl
  have hat : accepts t .mag = true := by
    rw [accepts, block_mag, hblock]
    exact ha
  have hnew : regOf _ r = _ := regOf_written (rf := rf.pointed r false) hwf r r (merged (regOf rf r) v m)
  rw [if_pos rfl] at hnew
  have hread := answers_readLog_regFile (i := .mag) (s := t) (congrArg Block.device hblock) r
  rw [hnew] at hread
  have hyields := hget (regOf rf r)
  rw [← hd, ← hp] at hyields
  exact ⟨t, _, hexec, congrArg Block.status hblock, (hgc t).trans (runCommand_yields hat (yields_map _ hyields) hread), rfl, rfl⟩

/-! #### The commands -/

/-- Within a part of its mask, too, a masked update leaves the new value. -/
theorem merged_and_submask {m m' : Byte} (h : m &&& m' = m') (old v : Byte) : merged old v m &&& m' = v &&& m' := by
  rw [← h, ← BitVec.and_assoc, merged_and_mask, BitVec.and_assoc]

section
variable {d8 : Byte} {p : Params} (hp : p.regMap = defaultRegMap) (old : Byte)
include hp

theorem yields_magGetMode_enabled :
    Yields .mag d8 (readLog d8 (0#1 ++ p.regMap.magMr) [merged old 0x00#8 p.regMap.magMdMask]) (magGetMode p) true := by
  have h := yields_magGetMode (d8 := d8) p (merged old 0x00#8 p.regMap.magMdMask)
  rwa [merged_and_submask (by rw [hp]; rfl)] at h

/-- A sleep pattern with bit 1 set reads as disabled (92_eei_decisions.md D20). -/
theorem yields_magGetMode_disabled (hs : p.magSleepPattern.getLsbD 1 = true) :
    Yields .mag d8 (readLog d8 (0#1 ++ p.regMap.magMr) [merged old p.magSleepPattern p.regMap.magMdMask]) (magGetMode p) false := by
  have hbit : ∀ v : Byte, v.getLsbD 1 = true → (v &&& 0x02#8 == 0#8) = false := by decide
  have h := yields_magGetMode (d8 := d8) p (merged old p.magSleepPattern p.regMap.magMdMask)
  rwa [merged_and_submask (by rw [hp]; rfl), hbit _ hs] at h

theorem yields_magGetOdr_updated (d : MagOdr) :
    Yields .mag d8 (readLog d8 (0#1 ++ p.regMap.magCra) [merged old (d.setWidth 8 <<< 2) p.regMap.magDoMask]) (magGetOdr p) d := by
  have hfield : magOdrOfField (d.setWidth 8 <<< 2 &&& p.regMap.magDoMask) = d := by
    rw [hp]
    revert d
    decide
  have h := yields_magGetOdr (d8 := d8) p (merged old (d.setWidth 8 <<< 2) p.regMap.magDoMask)
  rwa [merged_and_mask, hfield] at h

theorem yields_magGetFullScale_updated (g : MagFs) :
    Yields .mag d8 (readLog d8 (0#1 ++ p.regMap.magCrb) [merged old (magFsCode g <<< 5) p.regMap.magGnMask]) (magGetFullScale p) g := by
  have hread : magFsRead p.regMap (merged old (magFsCode g <<< 5) p.regMap.magGnMask) = .ok g := by
    rw [magFsRead, merged_and_mask, hp]
    cases g <;> rfl
  have h := ends_magGetFullScale (d8 := d8) p (merged old (magFsCode g <<< 5) p.regMap.magGnMask)
  rwa [hread] at h

theorem yields_magGetTempEn_updated (e : Bool) :
    Yields .mag d8 (readLog d8 (0#1 ++ p.regMap.magCra) [merged old (boolCode e <<< 7) p.regMap.magTempEnMask]) (magGetTempEn p) e := by
  have hbit : (boolCode e <<< 7 &&& p.regMap.magTempEnMask != 0#8) = e := by
    rw [hp]
    cases e <;> rfl
  have h := yields_magGetTempEn (d8 := d8) p (merged old (boolCode e <<< 7) p.regMap.magTempEnMask)
  rwa [merged_and_mask, hbit] at h

end

/-- Settles O59: each setter ends with `OK`, and its getter reads back from the register the field that the setter wrote. -/
theorem magRoundTrip : Obligations.MagRoundTrip := by
  intro c gc d s rf htarget hget hreg hm hsleep
  have ha := hreg.accepting
  cases c with
  | magSetMode e =>
    cases hget
    obtain ⟨-, henable, hdisable, -, -⟩ := magFieldSetters s e 0#3 ha
    cases e with
    | true =>
      exact exec_magSetter_then_getter (f := fun e => .code (boolCode e)) hreg rfl henable (fun _ => rfl) (fun _ => rfl) (fun _ => rfl)
        (yields_magGetMode_enabled hm)
    | false =>
      exact exec_magSetter_then_getter (f := fun e => .code (boolCode e)) hreg rfl hdisable (fun _ => rfl) (fun _ => rfl) (fun _ => rfl)
        fun old => yields_magGetMode_disabled hm old hsleep
  | magSetOdr d =>
    cases hget
    obtain ⟨-, -, -, hodr, -⟩ := magFieldSetters s false d ha
    exact exec_magSetter_then_getter (f := fun d => .code (magOdrCode d)) hreg rfl hodr (fun _ => rfl) (fun _ => rfl) (fun _ => rfl)
      fun old => yields_magGetOdr_updated hm old d
  | magSetFullScale g =>
    cases hget
    obtain ⟨-, hscale⟩ := magSetFullScaleCommand s g ha
    exact exec_magSetter_then_getter (f := fun g => .code (magFsCode g)) hreg rfl hscale (fun _ => rfl) (fun _ => rfl) (fun _ => rfl)
      fun old => yields_magGetFullScale_updated hm old g
  | magSetTempEn e =>
    cases hget
    obtain ⟨-, -, -, -, htemp⟩ := magFieldSetters s e 0#3 ha
    exact exec_magSetter_then_getter (f := .bool) hreg rfl htemp (fun _ => rfl) (fun _ => rfl) (fun _ => rfl)
      fun old => yields_magGetTempEn_updated hm old e
  | accSetOdr | accSetPowerMode | accSetFullScale | accSetHighRes | accSetHpfMode | accSetFifoMode | accSetFifoWatermark
  | accSetDrdyInt => cases htarget
  | _ => cases hget

end Sys2Proof.Machine

/-! ### The unit conversion tables

SUPPORT. O48 to O51. The tables of the default format are evaluated; a sensitivity getter runs as what its cache makes of it, with no
transaction; the cutoff command is its two reads, whose answers its sub-operation turns into a value. -/

namespace Sys2Proof.Machine

/-! #### The values of the tables -/

/-- Settles O48: the constants, the accelerometer's table and the magnetometer's are evaluated in binary32. -/
theorem sensitivityValues : Obligations.SensitivityValues :=
  ⟨by decide +kernel, by decide +kernel, by decide +kernel, by decide +kernel, by decide +kernel⟩

/-- Settles O49: the rates of each code and the look-up of 15 Hz are evaluated in binary32. -/
theorem defaultRates : Obligations.DefaultRates := ⟨by decide +kernel, by decide +kernel, by decide +kernel⟩

/-! #### The sensitivity getters -/

section
variable {i : InstanceId} {s : State} {α : Type} {op op' : Op α}

/-- A command depends on its first operation by what that does in the state it runs in. -/
theorem runCommand_bind_congr (h : op s = op' s) (f : α → Op (Option ResultData)) :
    runCommand i (op >>= f) s = runCommand i (op' >>= f) s := by
  unfold runCommand
  rw [op_bind, op_bind, h]

theorem runCommand_of_pure {a : α} (ha : accepts s i = true) (h : op s = (pure a : Op α) s) (f : α → Option ResultData) :
    runCommand i (op >>= fun a => pure (f a)) s = .next (afterOk s i [] (s.block i).device s.draws (f a)) :=
  (runCommand_bind_congr h _).trans (runCommand_yields ha (yields_map f (yields_pure a)) (answers_nil s i))

theorem runCommand_of_raise {o : Status} (ha : accepts s i = true) (h : op s = (raise o : Op α) s) (f : α → Op (Option ResultData)) :
    runCommand i (op >>= f) s = .next (afterOutcome s i o [] (s.block i).device s.draws) :=
  (runCommand_bind_congr h f).trans (runCommand_endsIn ha (endsIn_bind_first (endsIn_raise o)) (answers_nil s i))

end

/-- Settles O50: each getter reads its caches, which answer or raise. -/
theorem sensGetters : Obligations.SensGetters := by
  intro s
  refine ⟨⟨rfl, rfl⟩, fun ha => ⟨fun hnone => ?_, fun v hv => ?_⟩, fun ha => ⟨fun hnone => ?_, fun x z hx hz => ?_⟩⟩
  · exact runCommand_of_raise ha (readSensAcc_of_none hnone) _
  · exact runCommand_of_pure ha (readSensAcc_of_some hv) _
  · exact runCommand_of_raise ha (readSensMag_of_none hnone) _
  · exact runCommand_of_pure ha (readSensMag_of_some hx hz) _

/-! #### The cutoff -/

section
variable {d8 : Byte} (p : Params) {r1 : Byte}

/-- The transactions of `ACC_GET_HPF_CUTOFF`: the filter first, then the rate (43_unit_lut.md R179). -/
def hpfCutoffLog (m : RegMap) (d8 r2 r1 : Byte) : List Transaction :=
  readLog d8 (0#1 ++ m.accCtrl2) [r2] ++ readLog d8 (0#1 ++ m.accCtrl1) [r1]

/-- The cutoff that `CTRL2` gives at the rate `c` (43_unit_lut.md R175, R179). -/
def hpfCutoffRead (r2 : Byte) (c : AccOdr) : FloatVal :=
  if r2 &&& p.regMap.accHpfEnMask = 0#8 then 0 else hpfCutoffHz p.floatFmt p.piValue (hpcfField r2) (accOdrHz p.accOdrHz c)

theorem yields_accGetHpfCutoff (r2 : Byte) {c : AccOdr} (h : accOdrOfCtrl1 r1 = some c) :
    Yields .acc d8 (hpfCutoffLog p.regMap d8 r2 r1) (accGetHpfCutoff p) (hpfCutoffRead p r2 c) := by
  have hmode := yields_accGetHpfMode (d8 := d8) p r2
  have hrate := yields_accGetOdr (d8 := d8) p h
  unfold hpfCutoffRead
  by_cases hoff : r2 &&& p.regMap.accHpfEnMask = 0#8
  · rw [if_pos hoff] at hmode ⊢
    have hzero : Yields .acc d8 (hpfCutoffLog p.regMap d8 r2 r1) (accGetHpfCutoff p) (fconst p.floatFmt 0 1) :=
      yields_bind hmode (yields_map (fun _ => fconst p.floatFmt 0 1) hrate)
    rwa [fconst_zero] at hzero
  · rw [if_neg hoff] at hmode ⊢
    exact yields_bind hmode (yields_map (fun c => hpfCutoffHz p.floatFmt p.piValue (hpcfField r2) (accOdrHz p.accOdrHz c)) hrate)

/-- A rate that does not decode ends the command whether the filter is on or off. -/
theorem endsIn_accGetHpfCutoff (r2 : Byte) (h : accOdrOfCtrl1 r1 = none) :
    EndsIn .acc d8 (hpfCutoffLog p.regMap d8 r2 r1) (accGetHpfCutoff p) (.outcome (.unreachableDecode p.regMap.accCtrl1 r1)) :=
  endsIn_bind (yields_accGetHpfMode p r2) (endsIn_bind_first (endsIn_accGetOdr p h))

theorem floatFmtOk_of_paramsOk {p : Params} (h : paramsOk p = true) : floatFmtOk p.floatFmt p.piValue = true := by
  simp only [paramsOk, Bool.and_eq_true] at h
  obtain ⟨⟨⟨⟨⟨hfmt, -⟩, -⟩, -⟩, -⟩, -⟩ := h
  exact hfmt

/-- At power-down the cutoff is +0, filter on or off (90_conflicts.md C8). -/
theorem hpfCutoffRead_powerDown {p : Params} (hp : paramsOk p = true) (h0 : p.accOdrHz.powerDown = 0) (r2 : Byte) :
    hpfCutoffRead p r2 .powerDown = 0 := by
  have hrate : accOdrHz p.accOdrHz .powerDown = 0 := h0
  rw [hpfCutoffRead, hrate, hpfCutoffHz_zero p.floatFmt (floatFmtOk_of_paramsOk hp), ite_self]

end

/-- Settles O51: the two reads are answered, and the rate decodes or ends the command. -/
theorem accGetHpfCutoffCommand : Obligations.AccGetHpfCutoffCommand := by
  intro s r2 r1 dev k ha m f log hlog
  have hdecodes (c : AccOdr) (hc : accOdrOfCtrl1 r1 = some c) :
      exec .accGetHpfCutoff s = .next (afterOk s .acc log dev k (some (.float (hpfCutoffRead s.params r2 c)))) :=
    runCommand_yields ha (yields_map _ (yields_accGetHpfCutoff s.params r2 hc)) hlog
  refine ⟨fun hnone => ?_, hdecodes, fun hc h0 hp => ?_⟩
  · exact runCommand_endsIn ha (endsIn_bind_first (endsIn_accGetHpfCutoff s.params r2 hnone)) hlog
  · rw [hdecodes _ hc, hpfCutoffRead_powerDown hp h0]

end Sys2Proof.Machine

/-! ### The rounding

SUPPORT. O52: the bits below the sign of `num / den` units are rounded from those of the finite value below the quotient, which a whole
number of steps of the binade gives (`floorBits`); the next value is one step above it (`brackets_floorBits`). What each rounding takes
of the two is then a fact about a strictly increasing scale and a number between two of its neighbours (`Brackets`). -/

namespace Sys2Proof.Machine

/-! #### The scale of the finite values -/

/-- The magnitude in units of the bits `b` below a sign, for any number of exponent bits (43_unit_lut.md R182). -/
def unitsOf (frac b : Nat) : Nat := if b / 2 ^ frac = 0 then b % 2 ^ frac else (2 ^ frac + b % 2 ^ frac) * 2 ^ (b / 2 ^ frac - 1)

theorem magnitude_eq_unitsOf (f : FloatFmt) (x : FloatVal) : magnitude f x = unitsOf f.fracBits (fmagBits f x) := rfl

theorem magnitude_of_lt_infBits {f : FloatFmt} {b : Nat} (h : b < infBits f) : magnitude f b = unitsOf f.fracBits b := by
  rw [magnitude_eq_unitsOf, fmagBits, Nat.mod_eq_of_lt (h.trans (infBits_lt f))]

/-- In the binade `k` a significand of `q` steps is `q * 2 ^ k` units, the first significand of the next binade included. -/
theorem unitsOf_binade {frac k q : Nat} (hlow : k = 0 ∨ 2 ^ frac ≤ q) (hhigh : q ≤ 2 * 2 ^ frac) :
    unitsOf frac (k * 2 ^ frac + q) = q * 2 ^ k := by
  have hpos := Nat.two_pow_pos frac
  have hsum (e m : Nat) (hm : m < 2 ^ frac) : (e * 2 ^ frac + m) / 2 ^ frac = e ∧ (e * 2 ^ frac + m) % 2 ^ frac = m := by
    rw [Nat.add_comm, Nat.add_mul_div_right _ _ hpos, Nat.add_mul_mod_self_right, Nat.div_eq_of_lt hm, Nat.mod_eq_of_lt hm]
    simp
  obtain hq | hq | hq : q < 2 ^ frac ∨ (∃ m, m < 2 ^ frac ∧ q = 2 ^ frac + m) ∨ q = 2 * 2 ^ frac := by
    by_cases h1 : q < 2 ^ frac
    · exact .inl h1
    · by_cases h2 : q = 2 * 2 ^ frac
      · exact .inr (.inr h2)
      · exact .inr (.inl ⟨q - 2 ^ frac, by omega, by omega⟩)
  · obtain rfl : k = 0 := hlow.resolve_right (Nat.not_le.mpr hq)
    obtain ⟨hdiv, hmod⟩ := hsum 0 q hq
    rw [unitsOf, hdiv, hmod, if_pos rfl, Nat.pow_zero, Nat.mul_one]
  · obtain ⟨m, hm, rfl⟩ := hq
    obtain ⟨hdiv, hmod⟩ := hsum (k + 1) m hm
    rw [← Nat.add_assoc, ← Nat.succ_mul, unitsOf, hdiv, hmod, if_neg (Nat.succ_ne_zero k), Nat.add_sub_cancel]
  · obtain ⟨hdiv, hmod⟩ := hsum (k + 2) 0 hpos
    rw [hq, ← Nat.add_mul, ← Nat.add_zero ((k + 2) * 2 ^ frac), unitsOf, hdiv, hmod, if_neg (Nat.succ_ne_zero _)]
    rw [Nat.add_zero, show k + 2 - 1 = k + 1 from rfl, Nat.pow_succ', ← Nat.mul_assoc, Nat.mul_comm _ 2]

/-- Every number of bits lies in a binade. -/
theorem exists_binade (frac b : Nat) : ∃ k q, b = k * 2 ^ frac + q ∧ (k = 0 ∨ 2 ^ frac ≤ q) ∧ q < 2 * 2 ^ frac := by
  have hmod := Nat.mod_lt b (Nat.two_pow_pos frac)
  have hdiv := Nat.div_add_mod' b (2 ^ frac)
  cases he : b / 2 ^ frac with
  | zero => exact ⟨0, b % 2 ^ frac, by rw [← he]; exact hdiv.symm, .inl rfl, by omega⟩
  | succ e =>
    rw [he, Nat.succ_mul] at hdiv
    exact ⟨e, 2 ^ frac + b % 2 ^ frac, by omega, .inr (Nat.le_add_right _ _), by omega⟩

/-- Each value is followed by one that lies a step of its binade above it. -/
theorem unitsOf_strictMono (frac : Nat) : StrictMono (unitsOf frac) := by
  refine strictMono_nat_of_lt_succ fun b => ?_
  obtain ⟨k, q, rfl, hlow, hhigh⟩ := exists_binade frac b
  rw [Nat.add_assoc, unitsOf_binade hlow hhigh.le, unitsOf_binade (hlow.imp_right Nat.le_succ_of_le) hhigh]
  exact Nat.mul_lt_mul_of_pos_right q.lt_succ_self (Nat.two_pow_pos k)

/-! #### A number between two neighbours of a scale -/

/-- On the scale `v`, `num` is `rest` above the value at `low`, and less than the `step` to the next one. -/
structure Brackets (v : Nat → Nat) (num low rest step : Nat) : Prop where
  strictMono : StrictMono v
  at_low : v low + rest = num
  at_next : v (low + 1) = v low + step
  rest_lt : rest < step

section
variable {v : Nat → Nat} {num low rest step : Nat}

/-- The value at `low` is the largest that is not above. -/
theorem Brackets.le_num_iff (h : Brackets v num low rest step) (b : Nat) : v b ≤ num ↔ b ≤ low := by
  obtain ⟨hmono, hlow, hnext, hlt⟩ := h
  have hb : v b < v (low + 1) ↔ b < low + 1 := hmono.lt_iff_lt
  have hb' : v b ≤ v low ↔ b ≤ low := hmono.le_iff_le
  omega

/-- The smallest value that is not below is the one at `low`, or the next where something is left. -/
theorem Brackets.num_le_iff (h : Brackets v num low rest step) (b : Nat) : num ≤ v b ↔ (if rest = 0 then low else low + 1) ≤ b := by
  obtain ⟨hmono, hlow, hnext, hlt⟩ := h
  have hb : v low < v b ↔ low < b := hmono.lt_iff_lt
  have hb' : v low ≤ v b ↔ low ≤ b := hmono.le_iff_le
  have hb'' : v (low + 1) ≤ v b ↔ low + 1 ≤ b := hmono.le_iff_le
  split <;> omega

/-- How far the value at `b` lies from `num`. -/
def distance (v : Nat → Nat) (num b : Nat) : Nat := ((num : Int) - v b).natAbs

/-- No value is nearer than the nearer neighbour, and another is as near only midway between the two. -/
theorem Brackets.nearest (h : Brackets v num low rest step) {bits : Nat}
    (hbits : bits = low ∧ 2 * rest ≤ step ∨ bits = low + 1 ∧ step ≤ 2 * rest) (b : Nat) :
    distance v num bits ≤ distance v num b ∧
      (distance v num bits = distance v num b → b ≠ bits → 2 * rest = step ∧ b ≤ low + 1) := by
  obtain ⟨hmono, hlow, hnext, hlt⟩ := h
  have below : v b ≤ v low ↔ b ≤ low := hmono.le_iff_le
  have above : v (low + 1) ≤ v b ↔ low + 1 ≤ b := hmono.le_iff_le
  have same : v b = v low ↔ b = low := hmono.injective.eq_iff
  have same' : v b = v (low + 1) ↔ b = low + 1 := hmono.injective.eq_iff
  unfold distance
  rcases hbits with ⟨rfl, hr⟩ | ⟨rfl, hr⟩ <;> omega

end

/-! #### The value below a quotient -/

/-- The binade of a magnitude of `q` whole units: a significand of `frac + 1` bits in steps of `2 ^ binade` units. -/
def binade (frac q : Nat) : Nat := if q < 2 ^ (frac + 1) then 0 else Nat.log2 q - frac

theorem binade_spec (frac q : Nat) : (binade frac q = 0 ∨ 2 ^ frac ≤ q / 2 ^ binade frac q) ∧ q / 2 ^ binade frac q < 2 * 2 ^ frac := by
  unfold binade
  split
  next h =>
    rw [Nat.pow_zero, Nat.div_one, ← Nat.pow_succ']
    exact ⟨.inl rfl, h⟩
  next h =>
    have hq : q ≠ 0 := by have := Nat.two_pow_pos (frac + 1); omega
    have hlog : frac + 1 ≤ Nat.log2 q := (Nat.le_log2 hq).mpr (Nat.not_lt.mp h)
    have hlow : 2 ^ Nat.log2 q ≤ q := Nat.log2_self_le hq
    have hhigh : q < 2 ^ (Nat.log2 q + 1) := Nat.lt_log2_self
    refine ⟨.inr ?_, ?_⟩
    · rw [Nat.le_div_iff_mul_le (Nat.two_pow_pos _), ← Nat.pow_add]
      rwa [Nat.add_sub_cancel' (by omega)]
    · rw [Nat.div_lt_iff_lt_mul (Nat.two_pow_pos _), ← Nat.pow_succ', ← Nat.pow_add]
      rwa [show frac + 1 + (Nat.log2 q - frac) = Nat.log2 q + 1 by omega]

/-- A step of the binade of `num / den` units, times `den`. -/
def stepOf (f : FloatFmt) (num den : Nat) : Nat := den * 2 ^ binade f.fracBits (num / den)

/-- The bits of the largest value that is not above `num / den` units. -/
def floorBits (f : FloatFmt) (num den : Nat) : Nat := binade f.fracBits (num / den) * 2 ^ f.fracBits + num / stepOf f num den

/-- The bits that `num / den` units round to, without overflow. -/
def roundedBits (f : FloatFmt) (sign : Bool) (num den : Nat) : Nat :=
  floorBits f num den +
    if roundsUp f.rounding sign (num / stepOf f num den) (num % stepOf f num den) (stepOf f num den) then 1 else 0

theorem roundMagnitude_eq (f : FloatFmt) (sign : Bool) (num den : Nat) : roundMagnitude f sign num den =
    if roundedBits f sign num den ≥ infBits f then overflowBits f sign else roundedBits f sign num den := by
  have hbits : binade f.fracBits (num / den) * 2 ^ f.fracBits + roundQuotient f.rounding sign num (stepOf f num den) =
      roundedBits f sign num den := by
    unfold roundedBits floorBits roundQuotient
    dsimp only
    split <;> rfl
  rw [← hbits]
  rfl

/-- The value below a quotient of two naturals and the next one bracket it. -/
theorem brackets_floorBits (f : FloatFmt) (num : Nat) {den : Nat} (hden : 0 < den) :
    Brackets (fun b => unitsOf f.fracBits b * den) num (floorBits f num den) (num % stepOf f num den) (stepOf f num den) := by
  obtain ⟨hlow, hhigh⟩ := binade_spec f.fracBits (num / den)
  have hquot : num / den / 2 ^ binade f.fracBits (num / den) = num / stepOf f num den := Nat.div_div_eq_div_mul ..
  rw [hquot] at hlow hhigh
  have hscale (q : Nat) : q * 2 ^ binade f.fracBits (num / den) * den = q * stepOf f num den := by
    rw [stepOf, Nat.mul_assoc, Nat.mul_comm den]
  have hfloor : unitsOf f.fracBits (floorBits f num den) * den = num / stepOf f num den * stepOf f num den := by
    rw [floorBits, unitsOf_binade hlow hhigh.le, hscale]
  refine ⟨fun a b h => Nat.mul_lt_mul_of_pos_right (unitsOf_strictMono _ h) hden, ?_, ?_,
    Nat.mod_lt _ (Nat.mul_pos hden (Nat.two_pow_pos _))⟩
  · rw [hfloor, Nat.div_add_mod']
  · rw [hfloor, floorBits, Nat.add_assoc, unitsOf_binade (hlow.imp_right Nat.le_succ_of_le) hhigh, hscale, Nat.succ_mul]

/-- In a format with a fraction bit, bits are even where the significand is. -/
theorem floorBits_mod_two {f : FloatFmt} (hf : 1 ≤ f.fracBits) (num den : Nat) :
    floorBits f num den % 2 = num / stepOf f num den % 2 := by
  obtain ⟨n, hn⟩ : ∃ n, 2 ^ f.fracBits = 2 * n := ⟨2 ^ (f.fracBits - 1), by rw [← Nat.pow_succ', Nat.succ_eq_add_one, Nat.sub_add_cancel hf]⟩
  rw [floorBits, hn, Nat.mul_left_comm, Nat.mul_add_mod]

/-! #### The roundings -/

/-- The roundings of a value of the given sign that go to zero. -/
def RoundsDown (mode : Rounding) (sign : Bool) : Prop :=
  mode = .towardZero ∨ mode = .towardPositive ∧ sign = true ∨ mode = .towardNegative ∧ sign = false

/-- The roundings of a value of the given sign that go away from zero. -/
def RoundsAway (mode : Rounding) (sign : Bool) : Prop :=
  mode = .towardPositive ∧ sign = false ∨ mode = .towardNegative ∧ sign = true

section
variable {f : FloatFmt} {sign : Bool} {num den : Nat}

/-- Toward zero, the value below is taken, or the largest finite one. -/
theorem roundMagnitude_of_down (h : RoundsDown f.rounding sign) :
    roundMagnitude f sign num den = min (floorBits f num den) (infBits f - 1) := by
  have hup (q r d : Nat) : roundsUp f.rounding sign q r d = false := by
    rcases h with h | ⟨h, rfl⟩ | ⟨h, rfl⟩ <;> rw [h] <;> rfl
  have hover : overflowBits f sign = infBits f - 1 := by
    unfold overflowBits
    rcases h with h | ⟨h, rfl⟩ | ⟨h, rfl⟩ <;> rw [h] <;> rfl
  rw [roundMagnitude_eq, roundedBits, hup, hover]
  simp only [Bool.false_eq_true, if_false, Nat.add_zero]
  split <;> omega

/-- In any other rounding a finite result did not overflow. -/
theorem roundMagnitude_of_not_down (h : ¬ RoundsDown f.rounding sign) (hfin : roundMagnitude f sign num den < infBits f) :
    roundMagnitude f sign num den = roundedBits f sign num den := by
  have hover : overflowBits f sign = infBits f := by
    unfold RoundsDown at h
    unfold overflowBits
    cases hmode : f.rounding <;> cases sign <;> simp [hmode] at h ⊢
  rw [roundMagnitude_eq, hover] at hfin ⊢
  split at hfin
  · omega
  · exact if_neg ‹_›

theorem roundedBits_of_away (h : RoundsAway f.rounding sign) :
    roundedBits f sign num den = if num % stepOf f num den = 0 then floorBits f num den else floorBits f num den + 1 := by
  have hup (q r d : Nat) : roundsUp f.rounding sign q r d = (r != 0) := by
    rcases h with ⟨h, rfl⟩ | ⟨h, rfl⟩ <;> rw [h] <;> simp [roundsUp]
  rw [roundedBits, hup]
  by_cases hr : num % stepOf f num den = 0 <;> simp [hr]

/-- To nearest with ties to even, the nearer neighbour is taken, and of two as near the even one. -/
theorem roundedBits_of_nearestEven (hf : 1 ≤ f.fracBits) (h : f.rounding = .nearestEven) :
    (roundedBits f sign num den = floorBits f num den ∧ 2 * (num % stepOf f num den) ≤ stepOf f num den ∨
      roundedBits f sign num den = floorBits f num den + 1 ∧ stepOf f num den ≤ 2 * (num % stepOf f num den)) ∧
    (2 * (num % stepOf f num den) = stepOf f num den → roundedBits f sign num den % 2 = 0) := by
  have hpar := floorBits_mod_two hf num den
  unfold roundedBits
  rw [h]
  simp only [roundsUp, Bool.or_eq_true, Bool.and_eq_true, decide_eq_true_eq, beq_iff_eq]
  split <;> omega

/-- To nearest with ties away from zero, the nearer neighbour is taken, and of two as near the larger one. -/
theorem roundedBits_of_nearestAway (h : f.rounding = .nearestAway) :
    roundedBits f sign num den = floorBits f num den ∧ 2 * (num % stepOf f num den) < stepOf f num den ∨
      roundedBits f sign num den = floorBits f num den + 1 ∧ stepOf f num den ≤ 2 * (num % stepOf f num den) := by
  unfold roundedBits
  rw [h]
  simp only [roundsUp, decide_eq_true_eq]
  split <;> omega

end

/-- Settles O52: the four clauses are what each rounding takes of the two values that bracket the quotient. -/
theorem roundingIsCorrect : Obligations.RoundingIsCorrect := by
  intro f sign num den hf hden hfin bits off down up b hb
  have hbr := brackets_floorBits f num hden
  have hoff (b : Nat) (hb : b < infBits f) : off b = distance (fun b => unitsOf f.fracBits b * den) num b := by
    simp only [off, distance, magnitude_of_lt_infBits hb, Nat.cast_mul]
  have hmag : magnitude f bits * den = unitsOf f.fracBits bits * den := by rw [magnitude_of_lt_infBits hfin]
  have hrounded (h : ¬ RoundsDown f.rounding sign) : bits = roundedBits f sign num den := roundMagnitude_of_not_down h hfin
  rw [hoff bits hfin, hoff b hb, hmag, magnitude_of_lt_infBits hb]
  refine ⟨fun h => ?_, fun h => ?_, fun h => ?_, fun h => ?_⟩
  · obtain ⟨htaken, heven⟩ := roundedBits_of_nearestEven (sign := sign) (num := num) (den := den) hf h
    rw [← hrounded (by simp [RoundsDown, h])] at htaken heven
    obtain ⟨hle, htie⟩ := hbr.nearest htaken b
    exact ⟨hle, fun heq hne => heven (htie heq hne).1⟩
  · have htaken := roundedBits_of_nearestAway (sign := sign) (num := num) (den := den) h
    rw [← hrounded (by simp [RoundsDown, h])] at htaken
    obtain ⟨hle, htie⟩ := hbr.nearest (htaken.imp_left (And.imp_right Nat.le_of_lt)) b
    refine ⟨hle, fun heq => ?_⟩
    by_cases hne : b = bits
    · exact hne.le
    · have := htie heq hne
      omega
  · have htaken : bits = _ := roundMagnitude_of_down h
    refine ⟨(hbr.le_num_iff bits).mpr (htaken ▸ Nat.min_le_left _ _), fun hle => ?_⟩
    have := (hbr.le_num_iff b).mp hle
    omega
  · have hdown : ¬ RoundsDown f.rounding sign := by
      rcases h with ⟨h, rfl⟩ | ⟨h, rfl⟩ <;> simp [RoundsDown, h]
    have htaken := (hrounded hdown).trans (roundedBits_of_away h)
    rw [htaken]
    exact ⟨(hbr.num_le_iff _).mpr le_rfl, (hbr.num_le_iff b).mp⟩

end Sys2Proof.Machine

/-! ### The sample decoder

SUPPORT. O53 to O56: the word decoders as arithmetic on the two bytes, and each sample command as one burst whose bytes it decodes, once
its caches are read. -/

namespace Sys2Proof.Machine

/-! #### The word decoders -/

/-- Sixteen bits, by their two bytes, as a signed number. -/
theorem sext16_append (hi lo : Byte) :
    sext16 (hi ++ lo) = if hi.toNat < 128 then (256 * hi.toNat + lo.toNat : Int) else 256 * hi.toNat + lo.toNat - 65536 := by
  have hword : (hi ++ lo).toNat = 256 * hi.toNat + lo.toNat := by
    rw [BitVec.toNat_append, ← Nat.shiftLeft_add_eq_or_of_lt lo.isLt, Nat.shiftLeft_eq, Nat.mul_comm]
  have hlo := lo.isLt
  rw [sext16, BitVec.toInt_eq_toNat_cond, hword]
  split_ifs <;> omega

theorem just12_eq (w : Int) : just12 w = w / 16 := rfl

/-- Settles O53: the signed number of two bytes, the same in either byte order, and the floor of a sixteenth. -/
theorem wordDecoders : Obligations.WordDecoders := by
  refine ⟨fun lo hi => ?_, fun w => ?_⟩
  · have hle : le16 lo hi = _ := sext16_append hi lo
    have hlo := lo.isLt
    have hhi := hi.isLt
    refine ⟨hle, rfl, ?_, ?_⟩ <;> rw [hle] <;> split_ifs <;> omega
  · rw [just12_eq]
    omega

/-! #### Commands that decode one burst -/

section
variable {c : Instr} {s : State} {α : Type}

/-- A command that makes one burst and returns what it makes of the sample in its bytes. -/
theorem endsAfterRead_of_sample {r : RegIdx} {n : Nat} {sample : List Byte → α} {result : α → ResultData}
    (ha : accepts s c.target = true)
    (hc : exec c s = runCommand c.target
      ((readBurst c.target r n >>= fun b => pure (sample b)) >>= fun a => pure (some (result a))) s) :
    EndsAfterRead c s (1#1 ++ r) n fun b => .ok (some (result (sample b))) := by
  refine endsAfterRead_of_ends ha hc ((beginsWithRead_memRead_bind ..).bind _) fun bs hbs => ?_
  rw [← hbs]
  exact yields_map _ (yields_map sample (yields_readBurst r bs))

end

/-- A triple, each axis multiplied by its sensitivity (44_sample_decode.md R192, R194). -/
def scaledBy (f : FloatFmt) (xy z : FloatVal) (t : Triple) : ResultData :=
  .floats (fmul f (fofInt f t.x) xy) (fmul f (fofInt f t.y) xy) (fmul f (fofInt f t.z) z)

/-- The scaled accelerometer sample is the raw one, scaled by the cache, which is read first. -/
theorem exec_accReadData (s : State) : exec .accReadData s = runCommand .acc (readSensAcc >>= fun v =>
    accReadData16 s.params >>= fun t => pure (some (scaledBy s.params.floatFmt v v t))) s := by
  change runCommand .acc (accReadData s.params >>= fun d => pure (some d)) s = _
  simp only [accReadData, op_bind_assoc]
  rfl

/-- The scaled magnetometer sample is the raw one, scaled by the caches, which are read first. -/
theorem exec_magReadData (s : State) : exec .magReadData s = runCommand .mag (readSensMag >>= fun v =>
    magReadData16 s.params >>= fun t => pure (some (scaledBy s.params.floatFmt v.1 v.2 t))) s := by
  change runCommand .mag (magReadData s.params >>= fun d => pure (some d)) s = _
  simp only [magReadData, op_bind_assoc]
  rfl

/-- Settles O54: one burst of six bytes, whose triple is returned, or scaled by the cache, which is read before it. -/
theorem accSamples : Obligations.AccSamples := by
  intro s ha f axis
  refine ⟨⟨rfl, rfl⟩, ?_, fun hnone => ?_, fun v hv => ?_⟩
  · exact endsAfterRead_of_sample (sample := accSample) (result := fun t => .ints t.x t.y t.z) ha rfl
  · exact (exec_accReadData s).trans (runCommand_of_raise ha (readSensAcc_of_none hnone) _)
  · exact endsAfterRead_of_sample (sample := accSample) (result := scaledBy f v v) ha
      ((exec_accReadData s).trans (runCommand_bind_congr (readSensAcc_of_some hv) _))

/-- Settles O55: the same with the triple in the order X, Z, Y, and a cache for X and Y and one for Z. -/
theorem magSamples : Obligations.MagSamples := by
  intro s ha f word
  refine ⟨⟨rfl, rfl⟩, ?_, fun hnone => ?_, fun x z hx hz => ?_⟩
  · exact endsAfterRead_of_sample (sample := magSample) (result := fun t => .ints t.x t.y t.z) ha rfl
  · exact (exec_magReadData s).trans (runCommand_of_raise ha (readSensMag_of_none hnone) _)
  · exact endsAfterRead_of_sample (sample := magSample) (result := scaledBy f x z) ha
      ((exec_magReadData s).trans (runCommand_bind_congr (readSensMag_of_some hx hz) _))

/-- Settles O56: one burst of two bytes, whose word is returned, or converted; the constants are those of `sensitivityValues`. -/
theorem temperatureSamples : Obligations.TemperatureSamples := by
  intro s ha f t
  obtain ⟨-, hscale, hoffset, -⟩ := sensitivityValues
  refine ⟨⟨rfl, rfl⟩, ?_, ?_, hscale, hoffset⟩
  · exact endsAfterRead_of_sample (sample := tempSample) (result := .int) ha rfl
  · exact endsAfterRead_of_sample (sample := tempSample) (result := fun t => .float (tempCelsius f t)) ha rfl

end Sys2Proof.Machine

/-! ### The temperature

SUPPORT. O57: an operation whose exact result is a value of the format answers that result, in every rounding and format
(`isUnits_fofInt`, `isUnits_fmul`, `isUnits_fadd`). In binary32 each intermediate of the temperature has a significand of at most 24
bits, so the conversion is such a chain. -/

namespace Sys2Proof.Machine

/-! #### Magnitudes that the format holds -/

/-- Some finite value has a magnitude of `u` units. -/
def Representable (f : FloatFmt) (u : Nat) : Prop := ∃ b < infBits f, unitsOf f.fracBits b = u

/-- A significand that may be too small for its binade is one of an earlier binade. -/
theorem exists_unitsOf (frac k : Nat) : ∀ q < 2 * 2 ^ frac, ∃ b < (k + 2) * 2 ^ frac, unitsOf frac b = q * 2 ^ k := by
  induction k with
  | zero => exact fun q hq => ⟨q, by omega, by simpa using unitsOf_binade (k := 0) (.inl rfl) hq.le⟩
  | succ k ih =>
    intro q hq
    by_cases hsmall : q < 2 ^ frac
    · obtain ⟨b, hb, hunits⟩ := ih (2 * q) (by omega)
      exact ⟨b, hb.trans_le (Nat.mul_le_mul_right _ (by omega)), by rw [hunits, Nat.pow_succ']; ring⟩
    · refine ⟨(k + 1) * 2 ^ frac + q, ?_, unitsOf_binade (.inr (Nat.not_lt.mp hsmall)) hq.le⟩
      rw [show (k + 1 + 2) * 2 ^ frac = (k + 1) * 2 ^ frac + 2 * 2 ^ frac by ring]
      omega

/-- A significand within the precision of the format, in a binade below the largest exponent. -/
theorem representable_mul_two_pow {f : FloatFmt} {q k : Nat} (hq : q < 2 * 2 ^ f.fracBits) (hk : k + 2 ≤ 2 ^ f.expBits - 1) :
    Representable f (q * 2 ^ k) := by
  obtain ⟨b, hb, hunits⟩ := exists_unitsOf f.fracBits k q hq
  exact ⟨b, hb.trans_le (Nat.mul_le_mul_right _ hk), hunits⟩

/-- On a scale that has the value `num` at `b`, that value is the one below `num`, with nothing left. -/
theorem Brackets.eq_of_at {v : Nat → Nat} {num low rest step b : Nat} (h : Brackets v num low rest step) (hb : v b = num) :
    low = b ∧ rest = 0 := by
  have hlow := h.at_low
  have hle : v low ≤ v b ↔ low ≤ b := h.strictMono.le_iff_le
  have hge := h.le_num_iff b
  obtain rfl : low = b := by omega
  omega

theorem roundsUp_zero (mode : Rounding) (sign : Bool) (q : Nat) {den : Nat} (hden : 0 < den) : roundsUp mode sign q 0 den = false := by
  cases mode <;> simp [roundsUp, hden.ne, hden.ne']

/-- A magnitude of the format is its own rounding. -/
theorem roundMagnitude_of_representable {f : FloatFmt} {u : Nat} (h : Representable f u) (sign : Bool) {den : Nat} (hden : 0 < den) :
    roundMagnitude f sign (u * den) den < infBits f ∧ unitsOf f.fracBits (roundMagnitude f sign (u * den) den) = u := by
  obtain ⟨b, hb, rfl⟩ := h
  obtain ⟨hfloor, hrest⟩ := (brackets_floorBits f (unitsOf f.fracBits b * den) hden).eq_of_at rfl
  have hbits : roundedBits f sign (unitsOf f.fracBits b * den) den = b := by
    have hstep : 0 < stepOf f (unitsOf f.fracBits b * den) den := Nat.mul_pos hden (Nat.two_pow_pos _)
    rw [roundedBits, hrest, roundsUp_zero _ _ _ hstep, hfloor]
    rfl
  rw [roundMagnitude_eq, hbits, if_neg (Nat.not_le.mpr hb)]
  exact ⟨hb, rfl⟩

/-! #### Exact operations -/

/-- `x` is a finite value of `v` units. -/
def IsUnits (f : FloatFmt) (x : FloatVal) (v : Int) : Prop := isNaN f x = false ∧ isInf f x = false ∧ signedMagnitude f x = v

section
variable {f : FloatFmt} {x y : FloatVal} {v w : Int}

theorem natAbs_signedMagnitude (x : FloatVal) : (signedMagnitude f x).natAbs = magnitude f x := by
  unfold signedMagnitude
  split <;> simp

/-- Only a zero may have either sign. -/
theorem fsign_of_ne_zero (h : signedMagnitude f x ≠ 0) : fsign f x = decide (signedMagnitude f x < 0) := by
  unfold signedMagnitude at h ⊢
  cases fsign f x
  · simp
  · simp only [if_true] at h ⊢
    exact (decide_eq_true (by omega)).symm

/-- Rounding a number of units that the format holds keeps it. -/
theorem isUnits_roundFloat (h : Representable f v.natAbs) {sign : Bool} (hsign : v ≠ 0 → sign = decide (v < 0)) {den : Nat}
    (hden : 0 < den) : IsUnits f (roundFloat f sign (v.natAbs * den) den) v := by
  obtain ⟨hlt, hunits⟩ := roundMagnitude_of_representable h sign hden
  have hbits := fmagBits_packFloat sign (hlt.trans (infBits_lt f))
  have hpacked := fsign_packFloat sign (hlt.trans (infBits_lt f))
  refine ⟨?_, ?_, ?_⟩
  · rw [isNaN, roundFloat, hbits]
    exact decide_eq_false hlt.not_gt
  · rw [isInf, roundFloat, hbits]
    exact beq_false_of_ne hlt.ne
  · rw [signedMagnitude, roundFloat, hpacked, magnitude_eq_unitsOf, hbits, hunits]
    by_cases hv : v = 0
    · simp [hv]
    · simp only [hsign hv, decide_eq_true_eq]
      split <;> omega

theorem isUnits_roundFloat_one (h : Representable f v.natAbs) {sign : Bool} (hsign : v ≠ 0 → sign = decide (v < 0)) :
    IsUnits f (roundFloat f sign v.natAbs 1) v := by
  have hround := isUnits_roundFloat h hsign Nat.one_pos
  rwa [Nat.mul_one] at hround

/-- The conversion of an integer is exact where the format holds it. -/
theorem isUnits_fofInt {n : Int} (h : Representable f (n.natAbs * 2 ^ unitExp f)) : IsUnits f (fofInt f n) (n * 2 ^ unitExp f) := by
  have habs : (n * 2 ^ unitExp f).natAbs = n.natAbs * 2 ^ unitExp f := by simp [Int.natAbs_mul, Int.natAbs_pow]
  have hsign : decide (n < 0) = decide (n * 2 ^ unitExp f < 0) := by simp [mul_neg_iff]
  rw [fofInt, ← habs]
  exact isUnits_roundFloat_one (habs ▸ h) fun _ => hsign

/-- A sum is exact where the format holds it. -/
theorem isUnits_fadd (hx : IsUnits f x v) (hy : IsUnits f y w) (h : Representable f (v + w).natAbs) : IsUnits f (fadd f x y) (v + w) := by
  obtain ⟨hxn, hxi, rfl⟩ := hx
  obtain ⟨hyn, hyi, rfl⟩ := hy
  simp only [fadd, hxn, hyn, hxi, hyi, Bool.or_false, Bool.false_eq_true, if_false]
  exact isUnits_roundFloat_one h fun hne => if_neg hne

/-- A product is exact where the format holds it. -/
theorem isUnits_fmul {u : Int} (hx : IsUnits f x v) (hy : IsUnits f y w) (hu : v * w = u * 2 ^ unitExp f)
    (h : Representable f u.natAbs) : IsUnits f (fmul f x y) u := by
  obtain ⟨hxn, hxi, rfl⟩ := hx
  obtain ⟨hyn, hyi, rfl⟩ := hy
  have habs : magnitude f x * magnitude f y = u.natAbs * 2 ^ unitExp f := by
    rw [← natAbs_signedMagnitude, ← natAbs_signedMagnitude, ← Int.natAbs_mul, hu]
    simp [Int.natAbs_mul, Int.natAbs_pow]
  have hneg : u < 0 ↔ signedMagnitude f x * signedMagnitude f y < 0 := by simp [hu, mul_neg_iff]
  have hsign (hne : u ≠ 0) : (fsign f x != fsign f y) = decide (u < 0) := by
    have hprod : signedMagnitude f x * signedMagnitude f y ≠ 0 := by simp [hu, hne]
    obtain ⟨hx0, hy0⟩ := mul_ne_zero_iff.mp hprod
    rw [fsign_of_ne_zero hx0, fsign_of_ne_zero hy0, Bool.eq_iff_iff, bne_iff_ne, ne_eq, decide_eq_decide, decide_eq_true_eq, hneg,
      mul_neg_iff]
    omega
  simp only [fmul, hxn, hyn, hxi, hyi, Bool.or_false, Bool.false_eq_true, if_false, habs]
  exact isUnits_roundFloat h hsign (Nat.two_pow_pos _)

end

/-! #### The temperature in binary32 -/

theorem isUnits_tempSens : IsUnits binary32 (tempSens binary32) (2 ^ 145) := ⟨by decide +kernel, by decide +kernel, by decide +kernel⟩

theorem isUnits_tempOffset : IsUnits binary32 (tempOffset binary32) (336 * 2 ^ 145) :=
  ⟨by decide +kernel, by decide +kernel, by decide +kernel⟩

/-- An integer of at most 24 bits, in one of the binades up to that of the unit. -/
theorem representable_binary32 {n : Int} {k : Nat} (hn : n.natAbs < 2 ^ 24) (hk : k ≤ 149) :
    Representable binary32 (n.natAbs * 2 ^ k) :=
  representable_mul_two_pow hn (by change k + 2 ≤ 2 ^ 8 - 1; omega)

/-- The temperature of a raw value is a whole number of sixteenths. -/
theorem isUnits_tempCelsius {t : Int} (hlow : -2048 ≤ t) (hhigh : t ≤ 2047) :
    IsUnits binary32 (tempCelsius binary32 t) ((t + 336) * 2 ^ 145) := by
  have hint : IsUnits binary32 (fofInt binary32 t) (t * 2 ^ 149) := isUnits_fofInt (representable_binary32 (by omega) le_rfl)
  have hscaled : IsUnits binary32 (fmul binary32 (fofInt binary32 t) (tempSens binary32)) (t * 2 ^ 145) := by
    refine isUnits_fmul hint isUnits_tempSens ?_ ?_
    · change t * 2 ^ 149 * 2 ^ 145 = t * 2 ^ 145 * 2 ^ 149
      ring
    · rw [Int.natAbs_mul]
      exact representable_binary32 (by omega) (by omega)
  rw [add_mul]
  refine isUnits_fadd hscaled isUnits_tempOffset ?_
  rw [← add_mul, Int.natAbs_mul]
  exact representable_binary32 (by omega) (by omega)

/-- Settles O57: the conversion is exact in binary32. -/
theorem temperatureIsExact : Obligations.TemperatureIsExact := by
  intro t hlow hhigh
  obtain ⟨hnan, hinf, hunits⟩ := isUnits_tempCelsius hlow hhigh
  refine ⟨hnan, hinf, ?_⟩
  rw [hunits]
  ring

end Sys2Proof.Machine

/-! ### The two instances

SUPPORT. O17. What a command leaves alone is in the logs of its operations (`Extends`), and its foreign caches are those it neither writes
nor reads (`exec_cachesWritten`, `exec_blind`). `Oblivious` says that an operation does not look at the other block; the shared operations
do not, so no command does. -/

namespace Sys2Proof.Machine

/-! #### Operations that do not look at a block -/

/-- Replacing the block `j` before `op` or after it is the same. -/
def Oblivious (j : InstanceId) {α : Type} (op : Op α) : Prop :=
  ∀ s b, op (s.setBlock j b) = mapState (·.setBlock j b) (op s)

section
variable {i j : InstanceId} {α β : Type}

theorem oblivious_pure (a : α) : Oblivious j (pure a : Op α) := fun _ _ => rfl

theorem oblivious_raise (o : Status) : Oblivious j (raise o : Op α) := fun _ _ => rfl

theorem oblivious_bind {op : Op α} {f : α → Op β} (h : Oblivious j op) (hf : ∀ a, Oblivious j (f a)) : Oblivious j (op >>= f) := by
  intro s b
  rw [op_bind, op_bind, h]
  cases op s with
  | ok a t => exact hf a t b
  | error e t => rfl

/-- An operation that does not look at the block `j` of the state it reads. -/
theorem oblivious_get_bind {f : State → Op β} (hget : ∀ s b, f (s.setBlock j b) = f s) (hf : ∀ s, Oblivious j (f s)) :
    Oblivious j (get >>= f) := by
  intro s b
  rw [op_get_bind, op_get_bind, hget]
  exact hf s s b

theorem oblivious_modify {f : State → State} (hf : ∀ s b, f (s.setBlock j b) = (f s).setBlock j b) :
    Oblivious j (modify f : Op PUnit) := by
  intro s b
  rw [op_modify, op_modify, hf, mapState]

theorem oblivious_onOutcome {op : Op α} {f : State → State} (h : Oblivious j op)
    (hf : ∀ s b, f (s.setBlock j b) = (f s).setBlock j b) : Oblivious j (onOutcome op f) := by
  intro s b
  unfold onOutcome
  rw [h]
  rcases op s with ⟨a, t⟩ | ⟨o | _, t⟩
  · rfl
  · exact congrArg _ (hf t b)
  · rfl

theorem oblivious_readSensAcc : Oblivious j readSensAcc := by
  refine oblivious_get_bind (fun s b => by rw [setBlock_sensAcc]) fun s => ?_
  split
  · exact oblivious_pure _
  · exact oblivious_raise _

theorem oblivious_readSensMag : Oblivious j readSensMag := by
  refine oblivious_get_bind (fun s b => by rw [setBlock_sensMagXY, setBlock_sensMagZ]) fun s => ?_
  split
  · exact oblivious_pure _
  · exact oblivious_raise _

theorem setBlock_setSensAcc (v : Option FloatVal) (s : State) (b : Block) :
    { s.setBlock j b with sensAcc := v } = { s with sensAcc := v }.setBlock j b := by cases j <;> rfl

theorem setBlock_setSensMag (x z : Option FloatVal) (s : State) (b : Block) :
    { s.setBlock j b with sensMagXY := x, sensMagZ := z } = { s with sensMagXY := x, sensMagZ := z }.setBlock j b := by
  cases j <;> rfl

variable (hij : i ≠ j)
include hij

theorem setBlock_comm (s : State) (b b' : Block) : (s.setBlock j b).setBlock i b' = (s.setBlock i b').setBlock j b := by
  cases i <;> cases j <;> first | rfl | exact absurd rfl hij

theorem recorded_setBlock (req : BusRequest) (r : Response) (s : State) (b : Block) :
    recorded i req r (s.setBlock j b) = (recorded i req r s).setBlock j b := by
  simp only [recorded, block_setBlock_ne _ _ _ hij, setBlock_comm hij]
  cases j <;> rfl

theorem finish_setBlock (r : EStateM.Result Ending State (Option ResultData)) (b : Block) :
    finish i (mapState (·.setBlock j b) r) = (finish i r).setBlock j b := by
  rcases r with ⟨d, t⟩ | ⟨o | _, t⟩ <;>
    simp only [mapState, finish, endOk, takeOutcome, hangUp, block_setBlock_ne _ _ _ hij, setBlock_comm hij]

theorem accepts_setBlock (s : State) (b : Block) : accepts (s.setBlock j b) i = accepts s i := by
  rw [accepts, block_setBlock_ne _ _ _ hij, accepts]

theorem oblivious_transact (req : BusRequest) (dir : Dir) (a : Byte) : Oblivious j (transact i req dir a) := by
  intro s b
  simp only [transact, block_setBlock_ne _ _ _ hij, setBlock_draws, recorded_setBlock hij]
  split <;> rfl

theorem oblivious_memRead (a : Byte) (n : Nat) : Oblivious j (memRead i a n) :=
  oblivious_get_bind (fun s b => by rw [block_setBlock_ne _ _ _ hij]) fun _ =>
    oblivious_bind (oblivious_transact hij _ _ _) fun _ => oblivious_transact hij _ _ _

theorem oblivious_readReg (r : RegIdx) : Oblivious j (readReg i r) :=
  oblivious_bind (oblivious_memRead hij _ _) fun _ => oblivious_pure _

theorem oblivious_writeReg (r : RegIdx) (v : Byte) : Oblivious j (writeReg i r v) :=
  oblivious_get_bind (fun s b => by rw [block_setBlock_ne _ _ _ hij]) fun _ =>
    oblivious_bind (oblivious_transact hij _ _ _) fun _ => oblivious_pure _

theorem oblivious_updateRegMaskedElse (r : RegIdx) (v m : Byte) {f : State → State}
    (hf : ∀ s b, f (s.setBlock j b) = (f s).setBlock j b) : Oblivious j (updateRegMaskedElse i r v m f) :=
  oblivious_bind (oblivious_readReg hij r) fun _ => oblivious_onOutcome (oblivious_writeReg hij r _) hf

theorem opClass_oblivious (p : Params) : OpClass i p (fun _ => Oblivious j) where
  ret := oblivious_pure
  raises o _ := oblivious_raise o
  bind := oblivious_bind
  readReg := oblivious_readReg hij
  readBurst _ := oblivious_memRead hij _
  writeReg := oblivious_writeReg hij
  updateRegMasked r v m := oblivious_updateRegMaskedElse hij r v m fun _ _ => rfl
  readSensAcc _ := oblivious_readSensAcc
  accSetFullScale := by
    rintro rfl fs
    exact oblivious_bind (oblivious_updateRegMaskedElse hij _ _ _ (setBlock_setSensAcc none)) fun _ =>
      oblivious_modify (setBlock_setSensAcc _)
  readSensMag _ := oblivious_readSensMag
  magSetFullScale := by
    rintro rfl g
    exact oblivious_bind (oblivious_updateRegMaskedElse hij _ _ _ (setBlock_setSensMag none none)) fun _ =>
      oblivious_modify (setBlock_setSensMag _ _)

end

/-! #### What a command leaves alone -/

/-- What holds of every shared operation holds of those a command uses. -/
theorem OpClass.commandClass {i : InstanceId} {p : Params} {P : (α : Type) → Op α → Prop} (h : OpClass i p P) (c : Instr) :
    CommandClass c i p P where
  ret := h.ret
  raises := h.raises
  bind := h.bind
  readReg := h.readReg
  readBurst := h.readBurst
  writeReg _ := h.writeReg
  updateRegMasked r v m _ := h.updateRegMasked r v m
  readSensAcc hi _ := h.readSensAcc hi
  accSetFullScale hi _ := h.accSetFullScale hi
  readSensMag hi _ := h.readSensMag hi
  magSetFullScale hi _ := h.magSetFullScale hi

theorem finish_pending (i : InstanceId) (r : EStateM.Result Ending State (Option ResultData)) :
    (finish i r).pending = (stateOf r).pending := by
  rcases r with ⟨d, t⟩ | ⟨o | _, t⟩ <;> simp [finish, stateOf]

section
variable {c : Instr} {s t : State} {j : InstanceId}

/-- A command keeps the parameters, the pending commands and the other block. -/
theorem exec_frame (h : exec c s = .next t) :
    t.params = s.params ∧ t.pending = s.pending ∧ ∀ j, j ≠ c.target → t.block j = s.block j := by
  obtain ⟨op, hop, hlogs, -⟩ := exec_eq_runCommand (fun i => opClass_sound i s.params) c
  obtain ⟨-, rfl⟩ := runCommand_next_iff.mp (hop ▸ h)
  obtain ⟨log, x⟩ := hlogs.extends_stateOf s
  exact ⟨(finish_params _).trans x.params, (finish_pending _ _).trans x.pending,
    fun j hj => (finish_block_ne _ hj).trans (x.others j hj)⟩

/-- What a command does is the same whatever the other block is. -/
theorem exec_setBlock (hj : c.target ≠ j) (h : exec c s = .next t) (b : Block) : exec c (s.setBlock j b) = .next (t.setBlock j b) := by
  obtain ⟨op, hop, hop', hobl⟩ := exec_eq_runCommand_of_class ((opClass_oblivious hj s.params).commandClass c)
  obtain ⟨ha, rfl⟩ := runCommand_next_iff.mp (hop ▸ h)
  rw [hop' _ (setBlock_params ..), runCommand_of_accepts ((accepts_setBlock hj s b).trans ha), hobl, finish_setBlock hj]

/-! #### The caches of the other block -/

theorem SetsCaches.target_eq (h : SetsCaches j c) : c.target = j := by
  cases j <;> obtain ⟨_, rfl⟩ | ⟨_, rfl⟩ := h <;> rfl

theorem ReadsCaches.target_eq (h : ReadsCaches j c) : c.target = j := by
  cases j <;> obtain rfl | rfl := h <;> rfl

theorem exec_sameCaches (hj : c.target ≠ j) (h : exec c s = .next t) : SameCaches j s t :=
  (exec_cachesWritten j h).resolve_right fun ⟨hset, _⟩ => hj hset.target_eq

/-- In another state that differs in foreign caches alone, a command does the same and leaves these alone. -/
theorem exec_foreignCaches {s' : State} (hj : c.target ≠ j) (hs : forgetCaches j s' = forgetCaches j s) (h : exec c s = .next t) :
    ∃ t', exec c s' = .next t' ∧ forgetCaches j t' = forgetCaches j t ∧ SameCaches j s' t' := by
  obtain ⟨t', ht', hforget⟩ := exec_blind (fun hread => hj hread.target_eq) hs h
  exact ⟨t', ht', hforget, exec_sameCaches hj ht'⟩

theorem exec_setSensMag (hc : c.target = .acc) (h : exec c s = .next t) (x z : Option FloatVal) :
    exec c { s with sensMagXY := x, sensMagZ := z } = .next { t with sensMagXY := x, sensMagZ := z } := by
  obtain ⟨t', ht', hforget, hxy, hz⟩ :=
    exec_foreignCaches (j := .mag) (s := s) (s' := { s with sensMagXY := x, sensMagZ := z }) (by rw [hc]; decide) rfl h
  have := eq_of_unsetSensMag hforget
  rw [hxy, hz] at this
  exact ht'.trans (congrArg _ this)

theorem exec_setSensAcc (hc : c.target = .mag) (h : exec c s = .next t) (x : Option FloatVal) :
    exec c { s with sensAcc := x } = .next { t with sensAcc := x } := by
  obtain ⟨t', ht', hforget, hsame⟩ := exec_foreignCaches (j := .acc) (s := s) (s' := { s with sensAcc := x }) (by rw [hc]; decide) rfl h
  have := eq_of_unsetSensAcc hforget
  rw [show t'.sensAcc = x from hsame] at this
  exact ht'.trans (congrArg _ this)

end

/-- Settles O17: the logs of a command are of its own block, no shared operation looks at the other block, and the commands that write or
read the caches of a block are its own. -/
theorem instancesIndependent : Obligations.InstancesIndependent := by
  intro c s t h
  obtain ⟨hparams, hpending, hothers⟩ := exec_frame h
  refine ⟨hparams, hpending, fun j hj => ⟨hothers j hj, exec_setBlock hj.symm h⟩, fun hc => ?_, fun hc => ?_⟩
  · obtain ⟨hxy, hz⟩ := exec_sameCaches (j := .mag) (by rw [hc]; decide) h
    exact ⟨hxy, hz, exec_setSensMag hc h⟩
  · exact ⟨exec_sameCaches (j := .acc) (by rw [hc]; decide) h, exec_setSensAcc hc h⟩

end Sys2Proof.Machine

/-! ### The step

SUPPORT. O10, O11, O12, O14 and O16: which of the pending commands the step takes (`takeCommand_append`, `fetch_of_taken`), and when it
takes none. -/

namespace Sys2Proof.Machine

/-- Settles O16: the code, the fatal mark and the refusal mark of each outcome. -/
theorem outcomeCodes : Obligations.OutcomeCodes := by
  refine ⟨rfl, fun _ _ => rfl, fun _ _ _ => rfl, fun _ => rfl, fun _ _ => rfl, fun _ => rfl, fun _ => rfl, fun o => ?_, fun o => ?_⟩ <;>
    cases o <;> simp [isFatal, isRefusal, statusCode]

/-! #### An instance that accepts nothing -/

theorem exists_stuckReason_of_not_accepts {s : State} {i : InstanceId} (h : accepts s i = false) :
    ∃ why, stuckReason (s.block i) = some why := by
  rwa [accepts, Option.isNone_eq_false_iff, Option.isSome_iff_exists] at h

/-- Settles O14: every command runs on its instance, whose marks are looked at first. -/
theorem stuckInstanceAcceptsNothing : Obligations.StuckInstanceAcceptsNothing := by
  intro c s hmarks
  have hstuck : accepts s c.target = false := by
    rw [Bool.eq_false_iff, ne_eq, accepts_iff]
    rintro ⟨hf, hr, hh⟩
    simp [hf, hr, hh] at hmarks
  obtain ⟨why, hwhy⟩ := exists_stuckReason_of_not_accepts hstuck
  obtain ⟨op, hop, -⟩ := exec_eq_runCommand (fun i => opClass_sound i s.params) c
  exact ⟨why, hwhy, hop.trans (runCommand_of_stuck hwhy op)⟩

/-! #### What the step takes -/

/-- Commands that are not accepted stay in the list before the first one that is. -/
theorem takeCommand_append {f : InstanceId → Bool} {c : Command} {after : List Command} (hc : f c.target = true) :
    ∀ {before : List Command}, (∀ d ∈ before, f d.target = false) → takeCommand f (before ++ c :: after) = some (c, before ++ after)
  | [], _ => if_pos hc
  | d :: before, hbefore => by
    have hd : f d.target = false := hbefore d List.mem_cons_self
    have ih := takeCommand_append hc (after := after) fun x hx => hbefore x (List.mem_cons_of_mem d hx)
    simp [takeCommand, hd, ih]

section
variable {s : State} {c : Command} {left rest : List Command}

theorem fetch_of_taken (h : takeCommand (accepts s) s.pending = some (c, left)) : fetch s = .command c { s with pending := left } := by
  unfold fetch
  cases hp : s.pending with
  | nil =>
    rw [hp] at h
    cases h
  | cons first rest =>
    rw [hp] at h
    simp only [h]

theorem fetch_of_none_accepted (hp : s.pending = c :: rest) (h : ∀ d ∈ c :: rest, accepts s d.target = false) :
    fetch s = .stuck (stuckFault s c) := by
  simp only [fetch, hp, takeCommand_none_iff.mpr h]

end

/-- Settles O10: the first accepted command is taken from between the others and decoded. -/
theorem stepRunsDecodedCommand : Obligations.StepRunsDecodedCommand := by
  intro s before c after i hp hbefore hc hd
  have htaken : takeCommand (accepts s) s.pending = some (c, before ++ after) := hp ▸ takeCommand_append hc hbefore
  simp only [step, fetch_of_taken htaken, hd]

/-- An outcome with no transaction before it. -/
theorem takeOutcome_eq_afterOutcome (i : InstanceId) (o : Status) (s : State) :
    takeOutcome i o s = afterOutcome s i o [] (s.block i).device s.draws := by rw [← takeOutcome_answered, answered_nil]

theorem block_setPending (s : State) (l : List Command) (i : InstanceId) : { s with pending := l }.block i = s.block i := by
  cases i <;> rfl

/-- Settles O11: the first command is taken, and its word refused, which issues no transaction. -/
theorem refusedWordIsRefused : Obligations.RefusedWordIsRefused := by
  intro s c after why hp hc hd
  have ha : accepts { s with pending := after } c.target = true := by rwa [accepts, block_setPending]
  calc step s
    _ = refuseCommand c.target why { s with pending := after } := by simp only [step, fetch_first hp hc, hd]
    _ = .next (takeOutcome c.target (.refused why) { s with pending := after }) := refuseCommand_of_accepts ha why
    _ = .next (afterOutcome { s with pending := after } c.target (.refused why) [] (s.block c.target).device s.draws) := by
      rw [takeOutcome_eq_afterOutcome, block_setPending]

/-- Settles O12: with nothing pending nothing is taken; with nothing accepted the fault is that of the first command. -/
theorem stepWaitsOrIsStuck : Obligations.StepWaitsOrIsStuck := by
  refine ⟨fun s hp => by simp only [step, fetch, hp], fun s c rest hp hnone => ?_⟩
  obtain ⟨why, hwhy⟩ := exists_stuckReason_of_not_accepts (hnone c List.mem_cons_self)
  refine ⟨why, hwhy, ?_⟩
  simp only [step, fetch_of_none_accepted hp hnone, stuckFault, hwhy, Option.getD_some]

end Sys2Proof.Machine

/-! ### The first read of a command

SUPPORT. O23: which read each sub-operation begins with, and that a command runs an operation that begins with the read `firstRead` names
(`exec_beginsWithRead`). -/

namespace Sys2Proof.Machine

/-! #### A first read that never completes -/

section
variable {α : Type} {i : InstanceId} {d8 : Byte} {a : Byte} {n : Nat} {op : Op α}

theorem BeginsWithRead.endsIn_address_hang (h : BeginsWithRead i a n op) : EndsIn i d8 (addressLog d8 a .hang) op .hang := by
  obtain ⟨f, rfl⟩ := h
  refine endsIn_bind_first fun s dev k hd hl => ?_
  subst hd
  exact memRead_address_hang hl

theorem BeginsWithRead.endsIn_read_hang (h : BeginsWithRead i a n op) : EndsIn i d8 (failedReadLog d8 a n .hang) op .hang := by
  obtain ⟨f, rfl⟩ := h
  refine endsIn_bind_first fun s dev k hd hl => ?_
  subst hd
  exact memRead_read_not_ok (st := .hang) nofun hl

end

/-! #### What each sub-operation begins with -/

section
variable {i : InstanceId}

theorem beginsWithRead_updateRegMasked (r : RegIdx) (v m : Byte) : BeginsWithRead i (0#1 ++ r) 1 (updateRegMasked i r v m) :=
  beginsWithRead_updateRegMaskedElse r v m id

end

section
variable (p : Params)

theorem beginsWithRead_accGetHpfMode : BeginsWithRead .acc (0#1 ++ p.regMap.accCtrl2) 1 (accGetHpfMode p) :=
  (beginsWithRead_readReg _).bind _

theorem beginsWithRead_accGetFifoMode : BeginsWithRead .acc (0#1 ++ p.regMap.accCtrl5) 1 (accGetFifoMode p) :=
  (beginsWithRead_readRegMasked ..).bind _

theorem beginsWithRead_irqEnable : BeginsWithRead .acc (0#1 ++ p.regMap.accStatus) 1 (irqEnable p) :=
  ((beginsWithRead_readRegMasked ..).bind _).bind _

theorem beginsWithRead_accSetHpfMode (h : HpfMode) : BeginsWithRead .acc (0#1 ++ p.regMap.accCtrl2) 1 (accSetHpfMode p h) := by
  cases h <;> exact beginsWithRead_updateRegMasked ..

theorem beginsWithRead_magSetMode (e : Bool) : BeginsWithRead .mag (0#1 ++ p.regMap.magMr) 1 (magSetMode p e) := by
  cases e <;> exact beginsWithRead_updateRegMasked ..

theorem beginsWithRead_magInit (start : Bool) : BeginsWithRead .mag (0#1 ++ p.regMap.magIra) 1 (magInit p start) :=
  ((beginsWithRead_readReg _).bind _).bind _

theorem beginsWithRead_accReadData16 : BeginsWithRead .acc (1#1 ++ p.regMap.accOutXL) 6 (accReadData16 p) :=
  beginsWithRead_memRead_bind ..

theorem beginsWithRead_magReadData16 : BeginsWithRead .mag (1#1 ++ p.regMap.magOutXH) 6 (magReadData16 p) :=
  beginsWithRead_memRead_bind ..

theorem beginsWithRead_magReadTemp16 : BeginsWithRead .mag (1#1 ++ p.regMap.magTempH) 2 (magReadTemp16 p) :=
  beginsWithRead_memRead_bind ..

end

/-! #### What each command begins with -/

section
variable {c : Instr} {s : State} {a : Byte} {n : Nat}

/-- Whatever the command `c` does in the state `s`, it does after a read of `n` bytes at the address byte `a`. -/
def StartsWithRead (c : Instr) (s : State) (a : Byte) (n : Nat) : Prop :=
  ∃ op, exec c s = runCommand c.target op s ∧ BeginsWithRead c.target a n op

/-- A command is its sub-operation and then what makes a result of it. -/
theorem startsWithRead_of_bind {α : Type} {op : Op α} {f : α → Op (Option ResultData)} (h : BeginsWithRead c.target a n op)
    (hc : exec c s = runCommand c.target (op >>= f) s) : StartsWithRead c s a n := ⟨_, hc, h.bind f⟩

theorem startsWithRead_accReadData (h : s.sensAcc ≠ none) : StartsWithRead .accReadData s (1#1 ++ s.params.regMap.accOutXL) 6 := by
  obtain ⟨v, hv⟩ := Option.ne_none_iff_exists'.mp h
  exact startsWithRead_of_bind (beginsWithRead_accReadData16 _)
    ((exec_accReadData s).trans (runCommand_bind_congr (readSensAcc_of_some hv) _))

theorem startsWithRead_magReadData (hxy : s.sensMagXY ≠ none) (hz : s.sensMagZ ≠ none) :
    StartsWithRead .magReadData s (1#1 ++ s.params.regMap.magOutXH) 6 := by
  obtain ⟨xy, hxy⟩ := Option.ne_none_iff_exists'.mp hxy
  obtain ⟨z, hz⟩ := Option.ne_none_iff_exists'.mp hz
  exact startsWithRead_of_bind (beginsWithRead_magReadData16 _)
    ((exec_magReadData s).trans (runCommand_bind_congr (readSensMag_of_some hxy hz) _))

/-- Every command begins with the read that `firstRead` names. -/
theorem startsWithRead_of_firstRead (hcache : cachesSetFor s c) (h : firstRead s.params.regMap c = some (a, n)) :
    StartsWithRead c s a n := by
  cases c with
  | writeReg | accGetSens | magGetSens => cases h
  | readReg => cases h; exact startsWithRead_of_bind (beginsWithRead_readReg _) rfl
  | readRegMasked | accGetFifoWatermark => cases h; exact startsWithRead_of_bind (beginsWithRead_readRegMasked ..) rfl
  | accGetPowerMode | accGetFullScale | accGetHighRes | accClearFifo | accGetDrdyInt | magGetMode | magGetOdr | magGetFullScale
  | magGetTempEn | magGetOdrHz => cases h; exact startsWithRead_of_bind ((beginsWithRead_readRegMasked ..).bind _) rfl
  | updateRegMasked | accSetPowerMode | accSetHighRes | magSetOdr | magSetTempEn =>
    cases h
    exact startsWithRead_of_bind (beginsWithRead_updateRegMasked ..) rfl
  | accSetFullScale | magSetFullScale => cases h; exact startsWithRead_of_bind ((beginsWithRead_updateRegMaskedElse ..).bind _) rfl
  | accSetFifoMode => cases h; exact startsWithRead_of_bind ((beginsWithRead_updateRegMasked ..).bind _) rfl
  | readBurst i r len =>
    obtain ⟨hn, h⟩ := Option.ite_none_left_eq_some.mp h
    cases h
    exact ⟨_, exec_readBurst_of_ne hn i r s, beginsWithRead_memRead_bind ..⟩
  | accInit => cases h; exact startsWithRead_of_bind ((beginsWithRead_readReg _).bind _) rfl
  | accGetOdr | accGetOdrHz => cases h; exact startsWithRead_of_bind (beginsWithRead_accGetOdr _) rfl
  | accSetOdr => cases h; exact startsWithRead_of_bind ((beginsWithRead_accGetOdr _).bind _) rfl
  | accGetHpfMode => cases h; exact startsWithRead_of_bind (beginsWithRead_accGetHpfMode _) rfl
  | accSetHpfMode => cases h; exact startsWithRead_of_bind (beginsWithRead_accSetHpfMode ..) rfl
  | accGetHpfCutoff => cases h; exact startsWithRead_of_bind ((beginsWithRead_accGetHpfMode _).bind _) rfl
  | accGetFifoMode => cases h; exact startsWithRead_of_bind (beginsWithRead_accGetFifoMode _) rfl
  | accSetFifoWatermark w =>
    obtain ⟨hw, h⟩ := Option.ite_none_right_eq_some.mp h
    cases h
    refine ⟨_, exec_accSetFifoWatermark w s, ?_⟩
    rw [accSetFifoWatermark_of_le hw]
    exact (beginsWithRead_updateRegMasked ..).bind _
  | accSetDrdyInt e =>
    cases e <;> cases h
    · exact startsWithRead_of_bind (beginsWithRead_updateRegMasked ..) rfl
    · exact startsWithRead_of_bind (beginsWithRead_irqEnable _) rfl
  | accReadData16 => cases h; exact startsWithRead_of_bind (beginsWithRead_accReadData16 _) rfl
  | accReadData => cases h; exact startsWithRead_accReadData hcache
  | magInit => cases h; exact startsWithRead_of_bind (beginsWithRead_magInit ..) rfl
  | magSetMode => cases h; exact startsWithRead_of_bind (beginsWithRead_magSetMode ..) rfl
  | magReadData16 => cases h; exact startsWithRead_of_bind (beginsWithRead_magReadData16 _) rfl
  | magReadData =>
    cases h
    obtain ⟨hxy, hz⟩ := hcache
    exact startsWithRead_magReadData hxy hz
  | magReadTemp16 | magReadTemp => cases h; exact startsWithRead_of_bind (beginsWithRead_magReadTemp16 _) rfl

end

/-- Settles O23: an operation that begins with a read ends where that read does. -/
theorem firstReadFails : Obligations.FirstReadFails := by
  intro c s a n ha hcache hfirst
  obtain ⟨op, hc, hop⟩ := startsWithRead_of_firstRead hcache hfirst
  exact ⟨readFails_of_beginsWithRead ha hc hop, fun _ _ h => hc.trans (runCommand_hangs ha hop.endsIn_address_hang h),
    fun _ _ h => hc.trans (runCommand_hangs ha hop.endsIn_read_hang h)⟩

end Sys2Proof.Machine

/-! ### The outcomes of a command

SUPPORT. O25: what each sub-operation may raise, with the cause that lets it (`Raises`, Laws/Log.lean); `Cause` collects these causes by
command, for every parameter record, and the defaults give the registers, masks and rates their values. -/

namespace Sys2Proof.Machine

/-! #### What each sub-operation raises -/

section
variable {Q : Status → Prop} {α β : Type} {i : InstanceId}

theorem raises_map {op : Op α} (h : Raises Q op) (f : α → β) : Raises Q (op >>= fun a => pure (f a)) :=
  raises_bind h fun _ => raises_pure Q _

theorem raises_ite {c : Prop} [Decidable c] {op op' : Op α} (h : c → Raises Q op) (h' : ¬ c → Raises Q op') :
    Raises Q (if c then op else op') := by
  split
  · exact h ‹_›
  · exact h' ‹_›

theorem raises_memRead {a : Byte} {n : Nat} : Raises Q (memRead i a n) := fun s =>
  raises_bind (raises_transact Q i (.write (s.block i).dev8 [a] true) .write a) (fun _ => raises_transact Q i _ _ _) s

theorem raises_readReg {r : RegIdx} : Raises Q (readReg i r) := raises_map raises_memRead _

theorem raises_readRegMasked {r : RegIdx} {m : Byte} : Raises Q (readRegMasked i r m) := raises_map raises_readReg _

theorem raises_readBurst {r : RegIdx} {n : Nat} : Raises Q (readBurst i r n) := raises_memRead

theorem raises_writeReg {r : RegIdx} {v : Byte} : Raises Q (writeReg i r v) := fun s =>
  raises_map (raises_transact Q i (.write (s.block i).dev8 [singleAddr r, v] false) .write (singleAddr r)) (fun _ => ()) s

theorem raises_updateRegMaskedElse {r : RegIdx} {v m : Byte} {f : State → State} : Raises Q (updateRegMaskedElse i r v m f) :=
  raises_bind raises_readReg fun _ => raises_onOutcome raises_writeReg

theorem raises_updateRegMasked {r : RegIdx} {v m : Byte} : Raises Q (updateRegMasked i r v m) := raises_updateRegMaskedElse

theorem raises_modify (f : State → State) : Raises Q (modify f : Op PUnit) := by
  intro s o t h
  rw [op_modify] at h
  cases h

end

section
variable {Q : Status → Prop} {p : Params}

theorem raises_accGetOdr (hrate : ∀ b, accOdrOfCtrl1 b = none → Q (.unreachableDecode p.regMap.accCtrl1 b)) :
    Raises Q (accGetOdr p) := by
  refine raises_bind raises_readReg fun r => ?_
  cases h : accOdrOfCtrl1 r with
  | some c => exact raises_pure Q c
  | none => exact raises_raise (hrate r h)

theorem raises_accGetHpfMode : Raises Q (accGetHpfMode p) := raises_map raises_readReg _

theorem raises_accDrain : Raises Q (accDrain p) :=
  raises_bind raises_readRegMasked fun _ =>
    raises_ite (fun _ => raises_map raises_readBurst _) fun _ => raises_pure Q _

theorem raises_accSetHpfMode (h : HpfMode) : Raises Q (accSetHpfMode p h) := by
  cases h <;> exact raises_updateRegMasked

theorem raises_accSetFullScale (fs : AccFs) : Raises Q (accSetFullScale p fs) :=
  raises_bind (raises_updateRegMaskedElse) fun _ => raises_modify _

theorem raises_accClearFifo : Raises Q (accClearFifo p) :=
  raises_bind raises_readRegMasked fun _ => raises_bind (raises_updateRegMasked) fun _ => raises_updateRegMasked

theorem raises_irqQuery : Raises Q (irqQuery p) := raises_map raises_readRegMasked _

theorem raises_accSetFifoWatermark {w : Byte} (hw : 31 < w.toNat → Q (.invalidConfig (.watermark w))) :
    Raises Q (accSetFifoWatermark p w) := raises_ite (fun h => raises_raise (hw h)) fun _ => raises_updateRegMasked

theorem raises_accSetOdr {c : AccOdr} (hrate : ∀ b, accOdrOfCtrl1 b = none → Q (.unreachableDecode p.regMap.accCtrl1 b))
    (hvalid : ∀ pm, odrValid c pm = false → Q (.invalidConfig (.odr c pm))) : Raises Q (accSetOdr p c) :=
  raises_bind (raises_accGetOdr hrate) fun _ => raises_ite (fun _ => raises_pure Q _) fun _ =>
    raises_ite (fun _ => raises_updateRegMasked) fun _ => raises_bind (raises_map raises_readRegMasked _) fun pm =>
      raises_ite
        (fun _ => raises_bind (raises_ite (fun _ => raises_accDrain) fun _ => raises_pure Q _) fun _ => raises_updateRegMasked)
        fun h => raises_raise (hvalid pm (Bool.eq_false_iff.mpr h))

theorem raises_accGetHpfCutoff (hrate : ∀ b, accOdrOfCtrl1 b = none → Q (.unreachableDecode p.regMap.accCtrl1 b)) :
    Raises Q (accGetHpfCutoff p) := by
  refine raises_bind raises_accGetHpfMode fun h => raises_bind (raises_accGetOdr hrate) fun _ => ?_
  cases h <;> exact raises_pure Q _

section
variable (hfifo : ∀ b, Q (.unreachableDecode p.regMap.accFifoCtrl b))
include hfifo

theorem raises_accGetFifoMode : Raises Q (accGetFifoMode p) :=
  raises_bind raises_readRegMasked fun _ => raises_bind raises_readRegMasked fun fm =>
    raises_ite (fun _ => raises_pure Q _) fun _ => raises_ite (fun _ => raises_pure Q _) fun _ => raises_raise (hfifo fm)

theorem raises_irqEnable : Raises Q (irqEnable p) := by
  rw [irqEnable_eq]
  exact raises_bind raises_accDrain fun _ => raises_bind (raises_accGetFifoMode hfifo) fun _ => raises_updateRegMasked

theorem raises_accSetFifoMode (f : FifoMode) : Raises Q (accSetFifoMode p f) :=
  raises_bind (raises_updateRegMasked) fun _ => raises_bind (raises_updateRegMasked) fun _ =>
    raises_bind raises_irqQuery fun _ => raises_ite (fun _ => raises_irqEnable hfifo) fun _ => raises_pure Q _

theorem raises_accInit {start : Bool}
    (hid : ∀ b, b ≠ p.regMap.accIdValue → Q (.initFailed .idMismatch p.regMap.accIdAddr b))
    (hrate : ∀ b, accOdrOfCtrl1 b = none → Q (.unreachableDecode p.regMap.accCtrl1 b))
    (hvalid : ∀ pm, odrValid (initTarget p start) pm = false → Q (.invalidConfig (.odr (initTarget p start) pm)))
    (hreadback : ∀ b, b ≠ accOdrCode (initTarget p start) &&& 0xF0#8 → Q (.initFailed .readbackMismatch p.regMap.accCtrl1 b)) :
    Raises Q (accInit p start) := by
  have hfirst : Raises Q (accInitFirst p) :=
    raises_bind raises_readReg fun id => raises_ite (fun h => raises_raise (hid id h)) fun _ =>
      raises_bind (raises_bind (raises_updateRegMasked) fun _ => raises_updateRegMasked) fun _ =>
      raises_bind (raises_updateRegMasked) fun _ => raises_bind (raises_accSetFifoMode hfifo _) fun _ =>
      raises_accSetFifoWatermark fun h => absurd h (by decide)
  have hmiddle : Raises Q (accInitMiddle p) :=
    raises_bind (raises_accSetHpfMode _) fun _ => raises_bind (raises_updateRegMasked) fun _ =>
      raises_bind (raises_updateRegMasked) fun _ => raises_accDrain
  have hlast : Raises Q (accInitLast p (initTarget p start)) :=
    raises_bind (raises_accSetOdr hrate hvalid) fun _ => raises_bind raises_readRegMasked fun f =>
      raises_ite (fun h => raises_raise (hreadback f h)) fun _ => raises_pure Q _
  rw [accInit_eq]
  exact raises_bind hfirst fun _ => raises_bind (raises_accSetFullScale _) fun _ => raises_bind hmiddle fun _ => hlast

end

theorem raises_magSetMode (e : Bool) : Raises Q (magSetMode p e) :=
  raises_ite (fun _ => raises_updateRegMasked) fun _ => raises_updateRegMasked

theorem raises_magSetFullScale (g : MagFs) : Raises Q (magSetFullScale p g) :=
  raises_bind (raises_updateRegMaskedElse) fun _ => raises_modify _

theorem raises_magGetFullScale
    (hrange : ∀ r, magFsOfField (r &&& p.regMap.magGnMask) = none → Q (.unreachableDecode p.regMap.magCrb (r &&& p.regMap.magGnMask))) :
    Raises Q (magGetFullScale p) := by
  unfold magGetFullScale readRegMasked
  rw [op_bind_assoc]
  refine raises_bind raises_readReg fun r => ?_
  rw [op_pure_bind]
  cases h : magFsOfField (r &&& p.regMap.magGnMask) with
  | some g => exact raises_pure Q g
  | none => exact raises_raise (hrange r h)

theorem raises_magCheckIds : ∀ {ids : List (RegIdx × Byte)},
    (∀ r want b, (r, want) ∈ ids → b ≠ want → Q (.initFailed .idMismatch r b)) → Raises Q (magCheckIds ids)
  | [], _ => raises_pure Q _
  | (r, want) :: _, hid => raises_bind raises_readReg fun b =>
      raises_ite (fun h => raises_raise (hid r want b List.mem_cons_self h)) fun _ =>
        raises_magCheckIds fun r want b hmem => hid r want b (List.mem_cons_of_mem _ hmem)

theorem raises_magInit {start : Bool}
    (hid : ∀ r want b, (r, want) ∈ magIds p.regMap → b ≠ want → Q (.initFailed .idMismatch r b)) : Raises Q (magInit p start) :=
  raises_bind (raises_magCheckIds hid) fun _ => raises_bind (raises_updateRegMasked) fun _ =>
    raises_bind (raises_updateRegMasked) fun _ => raises_bind (raises_magSetFullScale _) fun _ => raises_magSetMode start

end

/-! #### The causes of an outcome -/

/-- The commands that decode the rate in `CTRL1` (60_exceptions.md R204). -/
def DecodesRate (c : Instr) : Prop :=
  c = .accGetOdr ∨ (∃ d, c = .accSetOdr d) ∨ c = .accGetOdrHz ∨ c = .accGetHpfCutoff ∨ ∃ x, c = .accInit x

/-- The commands that decode the FIFO mode (60_exceptions.md R204). -/
def DecodesFifoMode (c : Instr) : Prop :=
  c = .accGetFifoMode ∨ c = .accSetDrdyInt true ∨ (∃ f, c = .accSetFifoMode f) ∨ ∃ x, c = .accInit x

/-- What lets a command that starts in `s` end in an outcome other than `OK` and `BUS_ERROR` (60_exceptions.md R202 to R206). -/
inductive Cause (s : State) : Instr → Status → Prop
  | accIdentity (start : Bool) {b : Byte} (h : b ≠ s.params.regMap.accIdValue) :
    Cause s (.accInit start) (.initFailed .idMismatch s.params.regMap.accIdAddr b)
  | magIdentity (start : Bool) {r : RegIdx} {want b : Byte} (hr : (r, want) ∈ magIds s.params.regMap) (h : b ≠ want) :
    Cause s (.magInit start) (.initFailed .idMismatch r b)
  | readback {start : Bool} {b : Byte} (h : b ≠ accOdrCode (initTarget s.params start) &&& 0xF0#8) :
    Cause s (.accInit start) (.initFailed .readbackMismatch s.params.regMap.accCtrl1 b)
  | rateInvalid {d : AccOdr} {pm : PowerMode} (h : odrValid d pm = false) : Cause s (.accSetOdr d) (.invalidConfig (.odr d pm))
  | initRateInvalid {start : Bool} {pm : PowerMode} (h : odrValid (initTarget s.params start) pm = false) :
    Cause s (.accInit start) (.invalidConfig (.odr (initTarget s.params start) pm))
  | watermark {w : Byte} (h : 31 < w.toNat) : Cause s (.accSetFifoWatermark w) (.invalidConfig (.watermark w))
  | rateUndecodable {c : Instr} {b : Byte} (hc : DecodesRate c) (h : accOdrOfCtrl1 b = none) :
    Cause s c (.unreachableDecode s.params.regMap.accCtrl1 b)
  | fifoModeUndecodable {c : Instr} (hc : DecodesFifoMode c) (b : Byte) : Cause s c (.unreachableDecode s.params.regMap.accFifoCtrl b)
  | rangeUndecodable {r : Byte} (h : magFsOfField (r &&& s.params.regMap.magGnMask) = none) :
    Cause s .magGetFullScale (.unreachableDecode s.params.regMap.magCrb (r &&& s.params.regMap.magGnMask))
  | sensAccUnset {c : Instr} (hc : c = .accReadData ∨ c = .accGetSens) (h : s.sensAcc = none) : Cause s c (.cacheUnset .sensAcc)
  | sensMagUnset {c : Instr} (hc : c = .magReadData ∨ c = .magGetSens) (h : s.sensMagXY = none ∨ s.sensMagZ = none) :
    Cause s c (.cacheUnset .sensMag)
  | emptyBurst (i : InstanceId) (r : RegIdx) : Cause s (.readBurst i r 0#8) (.refused .badArgument)

/-! #### The causes of a command -/

section
variable {c : Instr} {s t : State} {o : Status}

/-- The command runs an operation that, besides a bus error, raises only what it has a cause for. -/
def RaisesCauses (c : Instr) (s : State) : Prop := ∃ op, exec c s = runCommand c.target op s ∧ Raises (Cause s c) op

theorem raisesCauses_of_map {α : Type} {op : Op α} {f : α → Option ResultData} (h : Raises (Cause s c) op)
    (hc : exec c s = runCommand c.target (op >>= fun a => pure (f a)) s) : RaisesCauses c s := ⟨_, hc, raises_map h f⟩

/-- A command whose first operation does in the state `s` what `op'` does. -/
theorem raisesCauses_of_bind_congr {α : Type} {op op' : Op α} {f : α → Op (Option ResultData)}
    (hc : exec c s = runCommand c.target (op >>= f) s) (hop : op s = op' s) (h : Raises (Cause s c) op')
    (hf : ∀ a, Raises (Cause s c) (f a)) : RaisesCauses c s := ⟨_, hc.trans (runCommand_bind_congr hop f), raises_bind h hf⟩

theorem raisesCauses_of_readSensAcc {f : FloatVal → Op (Option ResultData)} (hreads : c = .accReadData ∨ c = .accGetSens)
    (hc : exec c s = runCommand c.target (readSensAcc >>= f) s) (hf : ∀ v, Raises (Cause s c) (f v)) : RaisesCauses c s := by
  cases hs : s.sensAcc with
  | none => exact raisesCauses_of_bind_congr hc (readSensAcc_of_none hs) (raises_raise (.sensAccUnset hreads hs)) hf
  | some v => exact raisesCauses_of_bind_congr hc (readSensAcc_of_some hs) (raises_pure _ v) hf

theorem raisesCauses_of_readSensMag {f : FloatVal × FloatVal → Op (Option ResultData)} (hreads : c = .magReadData ∨ c = .magGetSens)
    (hc : exec c s = runCommand c.target (readSensMag >>= f) s) (hf : ∀ v, Raises (Cause s c) (f v)) : RaisesCauses c s := by
  by_cases hs : s.sensMagXY = none ∨ s.sensMagZ = none
  · exact raisesCauses_of_bind_congr hc (readSensMag_of_none hs) (raises_raise (.sensMagUnset hreads hs)) hf
  · obtain ⟨hxy, hz⟩ := not_or.mp hs
    obtain ⟨xy, hxy⟩ := Option.ne_none_iff_exists'.mp hxy
    obtain ⟨z, hz⟩ := Option.ne_none_iff_exists'.mp hz
    exact raisesCauses_of_bind_congr hc (readSensMag_of_some hxy hz) (raises_pure _ (xy, z)) hf

/-- Every command runs such an operation. -/
theorem raisesCauses (c : Instr) (s : State) : RaisesCauses c s := by
  cases c with
  | readReg => exact raisesCauses_of_map raises_readReg rfl
  | writeReg => exact raisesCauses_of_map raises_writeReg rfl
  | readRegMasked | accGetFifoWatermark => exact raisesCauses_of_map raises_readRegMasked rfl
  | updateRegMasked | accSetPowerMode | accSetHighRes | magSetOdr | magSetTempEn => exact raisesCauses_of_map raises_updateRegMasked rfl
  | accGetPowerMode | accGetFullScale | accGetHighRes | accGetDrdyInt | magGetMode | magGetOdr | magGetTempEn | magGetOdrHz =>
    exact raisesCauses_of_map (raises_map raises_readRegMasked _) rfl
  | readBurst i r n =>
    by_cases hn : n = 0#8
    · subst hn
      exact ⟨raise (.refused .badArgument), rfl, raises_raise (.emptyBurst i r)⟩
    · exact raisesCauses_of_map raises_readBurst (exec_readBurst_of_ne hn i r s)
  | accInit start =>
    exact raisesCauses_of_map (raises_accInit (.fifoModeUndecodable (.inr (.inr (.inr ⟨start, rfl⟩)))) (fun _ => .accIdentity start)
      (fun _ => .rateUndecodable (.inr (.inr (.inr (.inr ⟨start, rfl⟩))))) (fun _ => .initRateInvalid) fun _ => .readback) rfl
  | accSetOdr d =>
    exact raisesCauses_of_map (raises_accSetOdr (fun _ => .rateUndecodable (.inr (.inl ⟨d, rfl⟩))) fun _ => .rateInvalid) rfl
  | accGetOdr => exact raisesCauses_of_map (raises_accGetOdr fun _ => .rateUndecodable (.inl rfl)) rfl
  | accGetOdrHz => exact raisesCauses_of_map (raises_accGetOdr fun _ => .rateUndecodable (.inr (.inr (.inl rfl)))) rfl
  | accGetHpfCutoff =>
    exact raisesCauses_of_map (raises_accGetHpfCutoff fun _ => .rateUndecodable (.inr (.inr (.inr (.inl rfl))))) rfl
  | accSetFullScale fs => exact raisesCauses_of_map (raises_accSetFullScale fs) rfl
  | accSetHpfMode m => exact raisesCauses_of_map (raises_accSetHpfMode m) rfl
  | accGetHpfMode => exact raisesCauses_of_map raises_accGetHpfMode rfl
  | accSetFifoMode f => exact raisesCauses_of_map (raises_accSetFifoMode (.fifoModeUndecodable (.inr (.inr (.inl ⟨f, rfl⟩)))) f) rfl
  | accGetFifoMode => exact raisesCauses_of_map (raises_accGetFifoMode (.fifoModeUndecodable (.inl rfl))) rfl
  | accSetFifoWatermark w => exact raisesCauses_of_map (raises_accSetFifoWatermark .watermark) rfl
  | accClearFifo => exact raisesCauses_of_map raises_accClearFifo rfl
  | accSetDrdyInt e =>
    cases e with
    | false => exact raisesCauses_of_map raises_updateRegMasked rfl
    | true => exact raisesCauses_of_map (raises_irqEnable (.fifoModeUndecodable (.inr (.inl rfl)))) rfl
  | accGetSens => exact raisesCauses_of_readSensAcc (.inr rfl) rfl fun _ => raises_pure _ _
  | accReadData16 | magReadData16 | magReadTemp16 | magReadTemp => exact raisesCauses_of_map (raises_map raises_readBurst _) rfl
  | accReadData =>
    exact raisesCauses_of_readSensAcc (.inl rfl) (exec_accReadData s) fun _ => raises_map (raises_map raises_readBurst _) _
  | magInit start => exact raisesCauses_of_map (raises_magInit fun _ _ _ => .magIdentity start) rfl
  | magSetMode e => exact raisesCauses_of_map (raises_magSetMode e) rfl
  | magSetFullScale g => exact raisesCauses_of_map (raises_magSetFullScale g) rfl
  | magGetFullScale => exact raisesCauses_of_map (raises_magGetFullScale fun _ => .rangeUndecodable) rfl
  | magGetSens => exact raisesCauses_of_readSensMag (.inr rfl) rfl fun _ => raises_pure _ _
  | magReadData =>
    exact raisesCauses_of_readSensMag (.inl rfl) (exec_magReadData s) fun _ => raises_map (raises_map raises_readBurst _) _

/-- A command that does not hang ends with `OK` or in the outcome its operation raised. -/
theorem runCommand_outcome_cases {i : InstanceId} {op : Op (Option ResultData)} (h : runCommand i op s = .next t)
    (hh : (t.block i).hung = false) (ho : (t.block i).status = some o) : o = .ok ∨ ∃ u, op s = .error (.outcome o) u := by
  obtain ⟨-, rfl⟩ := runCommand_next_iff.mp h
  rcases hres : op s with ⟨d, u⟩ | ⟨o' | _, u⟩ <;> rw [hres] at hh ho
  · rw [finish, endOk_block] at ho
    exact .inl (Option.some.inj ho).symm
  · rw [finish, takeOutcome_block] at ho
    cases ho
    exact .inr ⟨u, rfl⟩
  · rw [finish, hangUp_block] at hh
    cases hh

/-- A command that ends, ends with `OK`, in an outcome for which there is a cause, or in a bus error. -/
theorem exec_outcome_cases (h : exec c s = .next t) (hh : (t.block c.target).hung = false) (ho : (t.block c.target).status = some o) :
    o = .ok ∨ Cause s c o ∨ ∃ d a, o = .busError d a := by
  obtain ⟨op, hop, hraises⟩ := raisesCauses c s
  obtain hok | ⟨u, hu⟩ := runCommand_outcome_cases (hop ▸ h) hh ho
  · exact .inl hok
  · exact .inr (hraises s o u hu)

theorem accepts_of_exec (h : exec c s = .next t) : accepts s c.target = true := by
  obtain ⟨op, hop, -⟩ := raisesCauses c s
  exact (runCommand_next_iff.mp (hop ▸ h)).1

/-- The sensitivity getters and a rejected watermark issue no transaction, so none can fail. -/
theorem busError_sources {d : Dir} {a : Byte} (h : exec c s = .next t) (ho : (t.block c.target).status = some (.busError d a)) :
    c ≠ .accGetSens ∧ c ≠ .magGetSens ∧ ∀ w, c = .accSetFifoWatermark w → w.toNat ≤ 31 := by
  have ha := accepts_of_exec h
  refine ⟨?_, ?_, fun w hc => Nat.not_lt.mp fun hw => ?_⟩
  · rintro rfl
    obtain ⟨v, hv⟩ | hv := readSensAcc_cases s
    · cases h.symm.trans (runCommand_of_pure ha hv _)
      cases ho
    · cases h.symm.trans (runCommand_of_raise ha hv _)
      cases ho
  · rintro rfl
    obtain ⟨v, hv⟩ | hv := readSensMag_cases s
    · cases h.symm.trans (runCommand_of_pure ha hv _)
      cases ho
    · cases h.symm.trans (runCommand_of_raise ha hv _)
      cases ho
  · subst hc
    obtain ⟨-, hrejected, -⟩ := accSetFifoWatermarkCommand s w ha
    cases h.symm.trans (hrejected hw)
    cases ho

end

/-- The range under the default mask is undecodable only where it is 0 (42_mag_codec.md R156). -/
theorem eq_zero_of_magFsOfField_none : ∀ r : Byte, magFsOfField (r &&& 0xE0#8) = none → r &&& 0xE0#8 = 0x00#8 := by decide

/-- With the default parameters the rates that init sets are valid in both power modes. -/
theorem odrValid_initTarget_default (start : Bool) (pm : PowerMode) : odrValid (initTarget defaultParams start) pm = true := by
  cases start <;> cases pm <;> rfl

/-- Settles O25: a command ends with `OK`, in a bus error, of which three commands have none, or in an outcome with a cause, in which the
default parameters name the register and the byte. -/
theorem outcomeSources : Obligations.OutcomeSources := by
  intro c s t o hp h hh ho
  obtain rfl | hcause | ⟨d, a, rfl⟩ := exec_outcome_cases h hh ho
  · trivial
  · cases hcause with
    | accIdentity start hb =>
      rw [hp] at hb ⊢
      exact Or.inl ⟨⟨start, rfl⟩, rfl, hb⟩
    | magIdentity start hr hb =>
      rw [hp] at hr
      simp only [magIds, List.mem_cons, Prod.mk.injEq, List.not_mem_nil, or_false] at hr
      refine Or.inr ⟨⟨start, rfl⟩, ?_⟩
      obtain ⟨rfl, rfl⟩ | ⟨rfl, rfl⟩ | ⟨rfl, rfl⟩ := hr
      · exact .inl ⟨rfl, hb⟩
      · exact .inr (.inl ⟨rfl, hb⟩)
      · exact .inr (.inr ⟨rfl, hb⟩)
    | @readback start b hb =>
      rw [hp] at hb ⊢
      cases start with
      | false => exact ⟨rfl, .inr ⟨rfl, hb⟩⟩
      | true => exact ⟨rfl, .inl ⟨rfl, hb⟩⟩
    | rateInvalid hv => exact ⟨rfl, hv⟩
    | initRateInvalid hv =>
      rw [hp, odrValid_initTarget_default] at hv
      cases hv
    | watermark hw => exact ⟨rfl, hw⟩
    | rateUndecodable hc hb =>
      rw [hp]
      exact Or.inl ⟨rfl, hb, hc⟩
    | fifoModeUndecodable hc b =>
      rw [hp]
      exact Or.inr (.inl ⟨rfl, hc⟩)
    | rangeUndecodable hr =>
      rw [hp] at hr ⊢
      exact Or.inr (.inr ⟨rfl, eq_zero_of_magFsOfField_none _ hr, rfl⟩)
    | sensAccUnset hc hs => exact ⟨hc, hs⟩
    | sensMagUnset hc hs => exact ⟨hc, hs⟩
    | emptyBurst i r => exact ⟨rfl, i, r, rfl⟩
  · exact busError_sources h ho

end Sys2Proof.Machine

/-! ### Init twice on the register-file device

SUPPORT. O60. Masked updates done twice leave what they leave done once, whatever they are; the rate that init leaves is the one it sets,
so a second init finds nothing to change. An init that stops at the identity changes nothing, and stops there again. -/

namespace Sys2Proof.Machine

/-! #### Masked updates, one after another -/

theorem merged_merged (x v m w n : Byte) : merged (merged x v m) w n = merged x (merged v w n) (m ||| n) := by
  unfold merged
  ext k hk
  cases hm : m[k] <;> cases hn : n[k] <;> simp [hm, hn]

theorem merged_merged_self (x v m : Byte) : merged (merged x v m) v m = merged x v m := by
  unfold merged
  ext k hk
  cases hm : m[k] <;> simp [hm]

/-- The registers after masked updates, each given by its register, value and mask. -/
def updateRegs (us : List (RegIdx × Byte × Byte)) (g : RegIdx → Byte) : RegIdx → Byte :=
  us.foldl (fun g u => updateReg g u.1 u.2.1 u.2.2) g

theorem updateRegs_cons (r : RegIdx) (v m : Byte) (us : List (RegIdx × Byte × Byte)) (g : RegIdx → Byte) :
    updateRegs ((r, v, m) :: us) g = updateRegs us (updateReg g r v m) := rfl

/-- On each register, any masked updates are together one masked update of it. -/
theorem updateRegs_eq_merged (us : List (RegIdx × Byte × Byte)) (k : RegIdx) : ∃ v m, ∀ g, updateRegs us g k = merged (g k) v m := by
  induction us with
  | nil => exact ⟨0#8, 0#8, fun g => by rw [merged_zero]; exact (BitVec.and_allOnes).symm⟩
  | cons u us ih =>
    obtain ⟨v, m, ih⟩ := ih
    obtain ⟨r, w, n⟩ := u
    by_cases hk : k = r
    · subst hk
      exact ⟨merged w v m, n ||| m, fun g => by rw [updateRegs_cons, ih, updateReg_same, merged_merged]⟩
    · exact ⟨v, m, fun g => by rw [updateRegs_cons, ih, updateReg_of_ne g hk]⟩

/-- The same updates change nothing in a register that they left. -/
theorem updateRegs_of_updated {us : List (RegIdx × Byte × Byte)} {g g' : RegIdx → Byte} {k : RegIdx} (h : g' k = updateRegs us g k) :
    updateRegs us g' k = g' k := by
  obtain ⟨v, m, hus⟩ := updateRegs_eq_merged us k
  rw [hus, h, hus, merged_merged_self]

theorem updateRegs_updateRegs (us : List (RegIdx × Byte × Byte)) (g : RegIdx → Byte) :
    updateRegs us (updateRegs us g) = updateRegs us g := funext fun _ => updateRegs_of_updated rfl

theorem updateRegs_of_ne {us : List (RegIdx × Byte × Byte)} {k : RegIdx} (h : ∀ u ∈ us, k ≠ u.1) (g : RegIdx → Byte) :
    updateRegs us g k = g k := by
  induction us generalizing g with
  | nil => rfl
  | cons u us ih =>
    obtain ⟨hu, hus⟩ := List.forall_mem_cons.mp h
    rw [updateRegs_cons, ih hus, updateReg_of_ne g hu]

/-! #### The registers that `ACC_INIT` leaves -/

/-- The masked updates of `ACC_INIT` up to the rate, with the default register map (41_accel_codec.md R112). -/
def accInitUpdates : List (RegIdx × Byte × Byte) :=
  [(0x24#7, 0x80#8, 0x80#8), (0x24#7, 0x00#8, 0x80#8), (0x22#7, 0x00#8, 0x14#8), (0x24#7, 0x00#8, 0x40#8), (0x2E#7, 0x00#8, 0xC0#8),
    (0x2E#7, 0x00#8, 0x1F#8), (0x23#7, 0x00#8, 0x30#8), (0x21#7, 0x00#8, 0x08#8), (0x23#7, 0x08#8, 0x08#8), (0x20#7, 0x00#8, 0x08#8)]

theorem initMiddleRegs_eq_updateRegs (g : RegIdx → Byte) : initMiddleRegs g = updateRegs accInitUpdates g := by
  rw [← updates_eq_initMiddleRegs, ← updates_eq_initFirstRegs]
  rfl

/-- `CTRL1` after init is in normal mode. -/
theorem initRateByte_normal (x : Byte) (cur target : AccOdr) :
    initRateByte (x &&& 0xF7#8) cur target &&& 0xF7#8 = initRateByte (x &&& 0xF7#8) cur target := by
  have hkept : ∀ x : Byte, x &&& 0xF7#8 &&& 0xF7#8 = x &&& 0xF7#8 := by decide
  have hcleared : ∀ x : Byte, x &&& 0xF7#8 &&& 0x0F#8 &&& 0xF7#8 = x &&& 0xF7#8 &&& 0x0F#8 := by decide
  have hwritten : ∀ v : Byte, ((v &&& 0xF0#8) ||| 0x07#8) &&& 0xF7#8 = (v &&& 0xF0#8) ||| 0x07#8 := by decide
  unfold initRateByte
  split_ifs
  exacts [hkept x, hcleared x, hwritten _]

/-- `CTRL1` after init decodes to the rate that init sets. -/
theorem accOdrOfCtrl1_initRateByte {c1 : Byte} {cur target : AccOdr} (hcur : accOdrOfCtrl1 c1 = some cur)
    (hv : odrValid target .normal = true) : accOdrOfCtrl1 (initRateByte c1 cur target) = some target := by
  have hcleared : ∀ x : Byte, accOdrOfCtrl1 (x &&& 0x0F#8) = some .powerDown := by decide
  have hwritten : odrValid target .normal = true → accOdrOfCtrl1 ((accOdrCode target &&& 0xF0#8) ||| 0x07#8) = some target := by
    cases target <;> decide
  unfold initRateByte
  split_ifs with hsame hpd
  · rw [hcur, hsame]
  · rw [hpd]
    exact hcleared _
  · exact hwritten hv

section
variable {p : Params} {g : RegIdx → Byte} {start : Bool} {cur : AccOdr}

theorem initRegs_ctrl1 : initRegs p g start cur 0x20#7 = initRateByte (g 0x20#7 &&& 0xF7#8) cur (initTarget p start) := rfl

theorem initRegs_of_ne {k : RegIdx} (h : k ≠ 0x20#7) : initRegs p g start cur k = updateRegs accInitUpdates g k :=
  (if_neg h).trans (congrFun (initMiddleRegs_eq_updateRegs g) k)

/-- A second init finds the rate that the first one set, so it leaves the registers as they are. -/
theorem initRegs_initRegs : initRegs p (initRegs p g start cur) start (initTarget p start) = initRegs p g start cur := by
  funext k
  by_cases hk : k = 0x20#7
  · rw [hk, initRegs_ctrl1, initRegs_ctrl1, initRateByte_normal, initRateByte, if_pos rfl]
  · rw [initRegs_of_ne hk]
    exact updateRegs_of_updated (initRegs_of_ne hk)

end

/-! #### A command that ends where the next one can begin -/

/-- The command `c` leads from `s` to a state in which its block accepts again, with the outcome `o` and the registers `g`. -/
structure LeadsTo (c : Instr) (s t : State) (g : RegIdx → Byte) (o : Status) : Prop where
  exec_eq : exec c s = .next t
  params : t.params = s.params
  accepting : accepts t c.target = true
  regs : HasRegs g (t.block c.target).device
  status : (t.block c.target).status = some o

section
variable {c : Instr} {s t u : State} {g : RegIdx → Byte} {o : Status} {log : List Transaction} {dev : Device} {n : Nat}

/-- A second run with the registers and the outcome of the first. -/
theorem LeadsTo.again (h : LeadsTo c s t g o) (h' : LeadsTo c t u g o) :
    exec c t = .next u ∧ (u.block c.target).status = (t.block c.target).status ∧
      ∃ rf rf', (t.block c.target).device = .regFile rf ∧ (u.block c.target).device = .regFile rf' ∧ SameRegs rf rf' := by
  obtain ⟨rf, hdev, -, hrf⟩ := h.regs
  obtain ⟨rf', hdev', -, hrf'⟩ := h'.regs
  exact ⟨h'.exec_eq, h'.status.trans h.status.symm, rf, rf', hdev, hdev', congrFun (hrf'.trans hrf.symm)⟩

theorem leadsTo_of_afterOk {d : Option ResultData} (ha : accepts s c.target = true) (hg : HasRegs g dev) (hexec : exec c s = .next t)
    (hp : t.params = s.params) (hblock : t.block c.target = (afterOk s c.target log dev s.draws d).block c.target) :
    LeadsTo c s t g .ok := by
  have hend : t.block c.target = { s.block c.target with
      status := some .ok, result := d, history := (s.block c.target).history ++ log, device := dev } :=
    hblock.trans (block_setBlock s c.target _)
  refine ⟨hexec, hp, ?_, ?_, ?_⟩ <;> simp only [accepts_iff, hend]
  exacts [accepts_iff.mp ha, hg]

theorem leadsTo_of_initFailed {why : InitReason} {r : RegIdx} {b : Byte} (ha : accepts s c.target = true) (hg : HasRegs g dev)
    (hexec : exec c s = .next (afterOutcome s c.target (.initFailed why r b) log dev n)) :
    LeadsTo c s (afterOutcome s c.target (.initFailed why r b) log dev n) g (.initFailed why r b) := by
  have hend : (afterOutcome s c.target (.initFailed why r b) log dev n).block c.target = _ := block_setBlock s c.target _
  refine ⟨hexec, setBlock_params s c.target _, ?_, ?_, ?_⟩ <;> simp only [accepts_iff, hend, isFatal, isRefusal, Bool.or_false]
  exacts [accepts_iff.mp ha, hg]

end

/-! #### What the device answers, and which registers it then holds -/

/-- The device of block `i` answers `log` and then holds the registers `g`. -/
def AnswersLeaving (s : State) (i : InstanceId) (log : List Transaction) (g : RegIdx → Byte) : Prop :=
  ∃ dev, HasRegs g dev ∧ Answers s i log dev s.draws

section
variable {s : State} {i : InstanceId} {log : List Transaction} {g : RegIdx → Byte}

theorem answersLeaving_nil (hg : HasRegs g (s.block i).device) : AnswersLeaving s i [] g := ⟨_, hg, answers_nil s i⟩

theorem Serves.answersLeaving {g' : RegIdx → Byte} (h : Serves s.acc.dev8 g log g') (hg : HasRegs g s.acc.device) :
    AnswersLeaving s .acc log g' := h s rfl hg

theorem AnswersLeaving.read (h : AnswersLeaving s i log g) (r : RegIdx) :
    AnswersLeaving s i (log ++ readLog (s.block i).dev8 (0#1 ++ r) [g r]) g := by
  obtain ⟨_, ⟨rf, rfl, hwf, rfl⟩, ha⟩ := h
  have hread := answers_readLog_regFile (answered_device s i log (.regFile rf) s.draws) r
  rw [answered_dev8, answered_draws] at hread
  exact ⟨_, ⟨rf.pointed r false, rfl, hwf, rfl⟩, answers_append_of ha hread⟩

theorem AnswersLeaving.update (h : AnswersLeaving s i log g) (r : RegIdx) (v m : Byte) :
    AnswersLeaving s i (log ++ updateLog (s.block i).dev8 r (g r) (merged (g r) v m)) (updateReg g r v m) := by
  obtain ⟨_, ⟨rf, rfl, hwf, rfl⟩, ha⟩ := h
  have hupdate := answers_updateLog_regFile (answered_device s i log (.regFile rf) s.draws) r v m
  rw [answered_dev8, answered_draws] at hupdate
  refine ⟨_, ⟨_, rfl, written_wf (rf := rf.pointed r false) hwf r _, funext fun k => ?_⟩, answers_append_of ha hupdate⟩
  exact regOf_written (rf := rf.pointed r false) hwf r k _

end

/-! #### `ACC_INIT` -/

section
variable {s t : State} {g : RegIdx → Byte} {start : Bool} (ha : accepts s .acc = true) (hg : HasRegs g s.acc.device)
  (hm : s.params.regMap = defaultRegMap)
include ha hg hm

theorem leadsTo_accInit_identity (start : Bool) (hid : g 0x0F#7 ≠ 0x33#8) :
    ∃ t, LeadsTo (.accInit start) s t g (.initFailed .idMismatch 0x0F#7 (g 0x0F#7)) ∧ t.sensAcc = s.sensAcc := by
  obtain ⟨dev, hdev, hanswers⟩ := (answersLeaving_nil (i := .acc) hg).read 0x0F#7
  obtain ⟨hidentity, -, -, -⟩ := accInitCommand s start dev s.draws ha
  simp only [hm] at hidentity
  exact ⟨_, leadsTo_of_initFailed (c := .accInit start) ha hdev (hidentity _ hid hanswers), rfl⟩

/-- A rate that does not decode is a fatal fault, after which nothing is accepted. -/
theorem not_accepts_of_accInit_undecodable (hid : g 0x0F#7 = 0x33#8) (hrate : accOdrOfCtrl1 (g 0x20#7 &&& 0xF7#8) = none)
    (hexec : exec (.accInit start) s = .next t) : accepts t .acc ≠ true := by
  obtain ⟨middle, hmiddle, hserves⟩ := exists_initMiddleLog s.acc.dev8 hid
  obtain ⟨dev, -, hanswers⟩ := (hserves.answersLeaving hg).read 0x20#7
  obtain ⟨-, -, hundecodable, -⟩ := accInitCommand s start dev s.draws ha
  simp only [hm] at hundecodable
  cases hexec.symm.trans (hundecodable middle _ hmiddle hrate hanswers)
  intro hat
  obtain ⟨hfaulted, -, -⟩ := accepts_iff.mp hat
  exact absurd ((Bool.or_true _).symm.trans hfaulted) nofun

theorem leadsTo_accInit_ok {cur : AccOdr} (hp : paramsOk s.params = true) (hid : g 0x0F#7 = 0x33#8)
    (hcur : accOdrOfCtrl1 (g 0x20#7 &&& 0xF7#8) = some cur) (start : Bool) :
    ∃ t, LeadsTo (.accInit start) s t (initRegs s.params g start cur) .ok ∧ t.sensAcc = some (accSens s.params.floatFmt .g2) := by
  obtain ⟨rf, hdev, hwf, rfl⟩ := hg
  obtain ⟨rf', log, -, hwf', -, hexec, hregs⟩ := accInitCompletes s rf start cur ⟨ha, hdev, hwf⟩ hm hp hid hcur
  refine ⟨_, leadsTo_of_afterOk ha ⟨rf', rfl, hwf', funext fun k => ?_⟩ hexec rfl rfl, rfl⟩
  rw [hregs, initRegs, initRateByte_initTarget hp]
  by_cases hk : k = 0x20#7
  · rw [if_pos hk, if_pos hk]
  · rw [if_neg hk, if_neg hk]
    exact (if_neg hk).symm

/-- After a first init, a second one leads to the same registers, cache and outcome. -/
theorem accInit_repeats (hp : paramsOk s.params = true) (hexec : exec (.accInit start) s = .next t) (hat : accepts t .acc = true) :
    ∃ u g' o, LeadsTo (.accInit start) s t g' o ∧ LeadsTo (.accInit start) t u g' o ∧ u.sensAcc = t.sensAcc := by
  by_cases hid : g 0x0F#7 = 0x33#8
  · cases hcur : accOdrOfCtrl1 (g 0x20#7 &&& 0xF7#8) with
    | none => exact absurd hat (not_accepts_of_accInit_undecodable ha hg hm hid hcur hexec)
    | some cur =>
      obtain ⟨t, h, hsens⟩ := leadsTo_accInit_ok ha hg hm hp hid hcur start
      cases hexec.symm.trans h.exec_eq
      have hcur' := accOdrOfCtrl1_initRateByte hcur (odrValid_initTarget hp start)
      rw [← initRateByte_normal] at hcur'
      obtain ⟨u, h', hsens'⟩ := leadsTo_accInit_ok h.accepting h.regs (h.params ▸ hm) (h.params ▸ hp) hid hcur' start
      rw [h.params, initRegs_initRegs] at h'
      rw [h.params] at hsens'
      exact ⟨u, _, _, h, h', hsens'.trans hsens.symm⟩
  · obtain ⟨t, h, -⟩ := leadsTo_accInit_identity ha hg hm start hid
    cases hexec.symm.trans h.exec_eq
    obtain ⟨u, h', hsens⟩ := leadsTo_accInit_identity h.accepting h.regs (h.params ▸ hm) start hid
    exact ⟨u, _, _, h, h', hsens⟩

end

/-! #### `MAG_INIT` -/

/-- The first identification register that differs from the byte wanted. -/
def firstMismatch (g : RegIdx → Byte) (ids : List (RegIdx × Byte)) : Option (RegIdx × Byte) := ids.find? fun id => g id.1 != id.2

theorem firstMismatch_eq_none_iff {g : RegIdx → Byte} {ids : List (RegIdx × Byte)} :
    firstMismatch g ids = none ↔ ∀ id ∈ ids, g id.1 = id.2 := by
  simp [firstMismatch]

/-- The masked updates of `MAG_INIT` (42_mag_codec.md R150). -/
def magInitUpdates (p : Params) (start : Bool) : List (RegIdx × Byte × Byte) :=
  [(p.regMap.magCra, 0x80#8, p.regMap.magTempEnMask),
    (p.regMap.magCra, magOdrCode (magOdr15Hz p.floatFmt p.magOdrHz) <<< 2, p.regMap.magDoMask),
    (p.regMap.magCrb, 0x20#8, p.regMap.magGnMask),
    (p.regMap.magMr, if start then 0x00#8 else p.magSleepPattern, p.regMap.magMdMask)]

/-- The updates of `MAG_INIT` leave the identification registers alone. -/
theorem firstMismatch_magInitUpdates {p : Params} (hm : p.regMap = defaultRegMap) {g : RegIdx → Byte}
    (h : firstMismatch g (magIds p.regMap) = none) (start : Bool) :
    firstMismatch (updateRegs (magInitUpdates p start) g) (magIds p.regMap) = none := by
  rw [firstMismatch_eq_none_iff] at h ⊢
  intro id hid
  rw [updateRegs_of_ne, h id hid]
  revert id
  simp [magInitUpdates, magIds, hm, defaultRegMap]

section
variable {s : State} {g : RegIdx → Byte} {log : List Transaction} {ids : List (RegIdx × Byte)}

theorem AnswersLeaving.readIds (h : AnswersLeaving s .mag log g) (hids : ∀ id ∈ ids, g id.1 = id.2) :
    AnswersLeaving s .mag (log ++ idsLog s.mag.dev8 ids) g := by
  induction ids generalizing log with
  | nil => rwa [idsLog, List.flatMap_nil, List.append_nil]
  | cons id ids ih =>
    obtain ⟨hid, hids⟩ := List.forall_mem_cons.mp hids
    rw [idsLog, List.flatMap_cons, ← List.append_assoc, ← hid]
    exact ih (h.read id.1) hids

/-- With the identity right, the device answers the whole log of init. -/
theorem AnswersLeaving.magInit {p : Params} (h : AnswersLeaving s .mag [] g) (hid : firstMismatch g (magIds p.regMap) = none)
    (start : Bool) : ∃ o1 o2 o3 o4, AnswersLeaving s .mag (magInitFirstLog p s.mag.dev8 o1 o2 ++
      updateLog s.mag.dev8 p.regMap.magCrb o3 (merged o3 0x20#8 p.regMap.magGnMask) ++
      updateLog s.mag.dev8 p.regMap.magMr o4 (merged o4 (if start then 0x00#8 else p.magSleepPattern) p.regMap.magMdMask))
      (updateRegs (magInitUpdates p start) g) :=
  have hids := h.readIds (firstMismatch_eq_none_iff.mp hid)
  ⟨_, _, _, _, (((hids.update _ _ _).update _ _ _).update _ _ _).update _ _ _⟩

variable (ha : accepts s .mag = true) (hg : HasRegs g s.mag.device)
include ha hg

theorem leadsTo_magInit_identity {id : RegIdx × Byte} (hid : firstMismatch g (magIds s.params.regMap) = some id) (start : Bool) :
    ∃ t, LeadsTo (.magInit start) s t g (.initFailed .idMismatch id.1 (g id.1)) ∧ t.sensMagXY = s.sensMagXY ∧
      t.sensMagZ = s.sensMagZ := by
  obtain ⟨hne, before, after, hids, hbefore⟩ := List.find?_eq_some_iff_append.mp hid
  obtain ⟨dev, hdev, hanswers⟩ := ((answersLeaving_nil (i := .mag) hg).readIds (ids := before) (by simpa using hbefore)).read id.1
  have hends := endsIn_magInit_identity (d8 := s.mag.dev8) s.params (bne_iff_ne.mp hne) hids start
  exact ⟨_, leadsTo_of_initFailed (c := .magInit start) ha hdev (runCommand_setter_outcome ha hends hanswers), rfl, rfl⟩

theorem leadsTo_magInit_ok (hid : firstMismatch g (magIds s.params.regMap) = none) (start : Bool) :
    ∃ t, LeadsTo (.magInit start) s t (updateRegs (magInitUpdates s.params start) g) .ok ∧
      t.sensMagXY = some (magSens s.params.floatFmt s.params.magGains .g13).1 ∧
      t.sensMagZ = some (magSens s.params.floatFmt s.params.magGains .g13).2 := by
  obtain ⟨o1, o2, o3, o4, dev, hdev, hanswers⟩ := (answersLeaving_nil (i := .mag) hg).magInit hid start
  rw [List.append_assoc] at hanswers
  have hexec := runCommand_endsScaled ha (endsScaled_magInit s.params o1 o2 o3 o4 start) hanswers
  exact ⟨_, leadsTo_of_afterOk (c := .magInit start) ha hdev hexec rfl rfl, rfl, rfl⟩

/-- After a first init, a second one leads to the same registers, caches and outcome. -/
theorem magInit_repeats {t : State} {start : Bool} (hm : s.params.regMap = defaultRegMap) (hexec : exec (.magInit start) s = .next t) :
    ∃ u g' o, LeadsTo (.magInit start) s t g' o ∧ LeadsTo (.magInit start) t u g' o ∧
      u.sensMagXY = t.sensMagXY ∧ u.sensMagZ = t.sensMagZ := by
  cases hid : firstMismatch g (magIds s.params.regMap) with
  | none =>
    obtain ⟨t, h, hxy, hz⟩ := leadsTo_magInit_ok ha hg hid start
    cases hexec.symm.trans h.exec_eq
    have hid' := firstMismatch_magInitUpdates hm hid start
    obtain ⟨u, h', hxy', hz'⟩ := leadsTo_magInit_ok h.accepting h.regs (h.params ▸ hid') start
    rw [h.params] at h' hxy' hz'
    rw [updateRegs_updateRegs] at h'
    exact ⟨u, _, _, h, h', hxy'.trans hxy.symm, hz'.trans hz.symm⟩
  | some id =>
    obtain ⟨t, h, -, -⟩ := leadsTo_magInit_identity ha hg hid start
    cases hexec.symm.trans h.exec_eq
    obtain ⟨u, h', hxy, hz⟩ := leadsTo_magInit_identity h.accepting h.regs (h.params ▸ hid) start
    exact ⟨u, _, _, h, h', hxy, hz⟩

end

/-- Settles O60: after either init the same init again leads to the same registers, caches and outcome. -/
theorem initIdempotent : Obligations.InitIdempotent := by
  constructor
  · rintro s rf start t ⟨ha, hdev, hwf⟩ hm hp hexec hat
    obtain ⟨u, g, o, h, h', hsens⟩ := accInit_repeats ha ⟨rf, hdev, hwf, rfl⟩ hm hp hexec hat
    obtain ⟨hu, hstatus, rf1, rf2, hrf1, hrf2, hsame⟩ := h.again h'
    exact ⟨u, rf1, rf2, hu, hrf1, hrf2, hsame, hsens, hstatus⟩
  · rintro s rf start t ⟨ha, hdev, hwf⟩ hm hexec
    obtain ⟨u, g, o, h, h', hxy, hz⟩ := magInit_repeats ha ⟨rf, hdev, hwf, rfl⟩ hm hexec
    obtain ⟨hu, hstatus, rf1, rf2, hrf1, hrf2, hsame⟩ := h.again h'
    exact ⟨u, rf1, rf2, hu, hrf1, hrf2, hsame, hxy, hz, hstatus⟩

end Sys2Proof.Machine
